-- ==== Sys2Proof/Word.lean ====
section
/-! DEFINITION. The word types of the MBE: a byte of BUF (rule R10) and a 32-bit CSR or command word (rules R9, R25, R70). -/

namespace Sys2Proof

/-- One byte of a byte string or of BUF (rule R10). -/
abbrev Byte := BitVec 8

/-- A 32-bit CSR value or command word (rules R9 and R70). -/
abbrev Word := BitVec 32

end Sys2Proof
end

