-- ==== Sys2Proof/Config.lean ====
section
/-! DEFINITION. The implementation parameters of rule R7, the hash functions of rule R35 by name, the answers of the
entropy oracle of rule R14, and the points the spec leaves OPEN (opaque constants: nothing can evaluate them). -/

namespace Sys2Proof

/-- The parameters of rule R7 that a rule of the spec can see. They never change while the machine runs; State holds
them because the registers MAXBITS_R and BUFSZ_R do (rule R32). -/
structure Params where
  /-- MAXBITS, the width in bits of every big-integer register. -/
  maxbits : Nat
  /-- BUFSZ, the byte size of the operand buffer. -/
  bufsz : Nat
  /-- TD_BOUND, the largest trial-division prime bound. -/
  tdBound : Nat
deriving DecidableEq, Repr

/-- The default values of rule R7 (log entry 1). -/
def Params.default : Params := { maxbits := 8192, bufsz := 4096, tdBound := 251 }

/-- The hash functions a selector can name (rule R35). -/
inductive HashFn where
  | sha1
  | sha256
  | sha384
  | sha512
deriving DecidableEq, Repr

/-- One answer of the entropy oracle (rule R14): it fails, or it answers with some natural. An answer to
`RngBytes(k)` stands for its big-endian bytes, an answer to `RngRange(lo, hi)` for itself (log entry 4). -/
inductive RngAnswer where
  | fail
  | value (n : Nat)
deriving DecidableEq, Repr, Inhabited

/-- FREE VALUE (rule R14, log entry 4): the oracle's answer to its n-th draw, where the environment has not put an answer into
State.rng. It has no body: no proof can depend on which answer it is. -/
opaque Config.rngAnswer : Nat → RngAnswer

/-- OPEN parameter ENGINE_BASE (rules R7 and R57, log entry 10): the platform's base address of the window. -/
opaque Config.engineBase : Nat

/-- OPEN parameter IRQ_ROUTE (rules R7 and R240, log entry 10): the host interrupt controller input that IRQ drives. -/
opaque Config.irqRoute : Nat

end Sys2Proof
end

