-- ==== Sys2Proof/Syntax.lean ====
section
/-! DEFINITION. The commands of the MBE, one constructor per row of spec/opcode_table.json (rule R73). -/

namespace Sys2Proof

/-- A register index: x0 to x15, and every index is valid (rules R20 and R71). -/
abbrev Reg := Fin 16

/-- The commands (rule R73), operands in the order of rule R78. -/
inductive Instr where
  /-- rule R210 -/
  | nop
  /-- rule R211 -/
  | mov (rd rs1 : Reg)
  /-- rule R212 -/
  | ldi (rd : Reg)
  /-- rule R213 -/
  | zeroize
  /-- rule R100 -/
  | add (rd rs1 rs2 : Reg)
  /-- rule R102 -/
  | sub (rd rs1 rs2 : Reg)
  /-- rule R104 -/
  | mul (rd rs1 rs2 : Reg)
  /-- rule R106 -/
  | modred (rd rs1 rs2 : Reg)
  /-- rule R108 -/
  | modpow (rd rs1 rs2 rs3 : Reg)
  /-- rule R110 -/
  | modinv (rd rs1 rs2 : Reg)
  /-- rule R112 -/
  | cmp (rs1 rs2 : Reg)
  /-- rule R114 -/
  | bitlen (rs1 : Reg)
  /-- rule R140 -/
  | frombytes (rd : Reg)
  /-- rule R142 -/
  | tobytes (rs1 : Reg)
  /-- rule R144 with odd = 0 -/
  | randbits (rd : Reg)
  /-- rule R144 with odd = 1 -/
  | randbitsOdd (rd : Reg)
  /-- rule R160 -/
  | isprime (rs1 : Reg)
  /-- rule R180 -/
  | mgf1
  /-- rule R182 -/
  | oaepPad
  /-- rule R184 -/
  | oaepUnpad
deriving DecidableEq, Repr

/-- The assembler spelling of a command (rule R78), as spec/opcode_table.json has it. -/
def Instr.mnemonic : Instr → String
  | .nop => "nop"
  | .mov _ _ => "mov"
  | .ldi _ => "ldi"
  | .zeroize => "zeroize"
  | .add _ _ _ => "add"
  | .sub _ _ _ => "sub"
  | .mul _ _ _ => "mul"
  | .modred _ _ _ => "modred"
  | .modpow _ _ _ _ => "modpow"
  | .modinv _ _ _ => "modinv"
  | .cmp _ _ => "cmp"
  | .bitlen _ => "bitlen"
  | .frombytes _ => "frombytes"
  | .tobytes _ => "tobytes"
  | .randbits _ => "randbits"
  | .randbitsOdd _ => "randbits.odd"
  | .isprime _ => "isprime"
  | .mgf1 => "mgf1"
  | .oaepPad => "oaep.pad"
  | .oaepUnpad => "oaep.unpad"

end Sys2Proof
end

