-- ==== Sys2Proof/WellFormed.lean ====
section
/-! DEFINITION. What is well formed: a configuration (rule R8) and a command word (rule R75), and the rows of the opcode table.
A term of Instr is well formed by its type: its only operands are register indices below 16, and every one is valid (rule R71). -/

namespace Sys2Proof

/-- Rule R8: a configuration that breaks one of these constraints does not describe an MBE. -/
def Params.legal (p : Params) : Bool :=
  decide (p.maxbits % 64 = 0) && decide (64 ≤ p.maxbits) && decide (p.maxbits ≤ 2 ^ 24) &&
  decide (p.bufsz % 4 = 0) && decide (256 ≤ p.bufsz) && decide (p.bufsz ≤ 2 ^ 24) &&
  decide (3 ≤ p.tdBound)

/-- Which fields of the command word an opcode uses: the "fields used" column of rule R73. -/
structure FieldUse where
  rd : Bool := false
  rs1 : Bool := false
  rs2 : Bool := false
  rs3 : Bool := false
  odd : Bool := false
deriving DecidableEq, Repr

/-- A command with no fields. -/
def FieldUse.none : FieldUse := { rd := false }

/-- The opcode map of rule R73: each opcode with the fields it uses. -/
def opMap : List (BitVec 8 × FieldUse) :=
  [ (0x00, FieldUse.none),
    (0x01, { rd := true, rs1 := true }),
    (0x02, { rd := true }),
    (0x03, FieldUse.none),
    (0x10, { rd := true, rs1 := true, rs2 := true }),
    (0x11, { rd := true, rs1 := true, rs2 := true }),
    (0x12, { rd := true, rs1 := true, rs2 := true }),
    (0x13, { rd := true, rs1 := true, rs2 := true }),
    (0x14, { rd := true, rs1 := true, rs2 := true, rs3 := true }),
    (0x15, { rd := true, rs1 := true, rs2 := true }) ] ++
  [ (0x16, { rs1 := true, rs2 := true }),
    (0x17, { rs1 := true }),
    (0x20, { rd := true }),
    (0x21, { rs1 := true }),
    (0x22, { rd := true, odd := true }),
    (0x30, { rs1 := true }),
    (0x40, FieldUse.none),
    (0x41, FieldUse.none),
    (0x42, FieldUse.none) ]

/-- Rule R75: a word is legal iff its opcode is in the map, bits 31:25 are 0, and every field the opcode does not
use is 0. -/
def legalWord (w : Word) : Bool :=
  match opMap.lookup (w.extractLsb' 0 8) with
  | none => false
  | some u =>
    decide (w.extractLsb' 25 7 = 0) &&
    (u.rd || decide (w.extractLsb' 8 4 = 0)) &&
    (u.rs1 || decide (w.extractLsb' 12 4 = 0)) &&
    (u.rs2 || decide (w.extractLsb' 16 4 = 0)) &&
    (u.rs3 || decide (w.extractLsb' 20 4 = 0)) &&
    (u.odd || decide (w.extractLsb' 24 1 = 0))

/-- One row of spec/opcode_table.json: a word selects the row iff its bits under the mask are the pattern (rule R73). -/
structure OpcodeRow where
  mnemonic : String
  pattern : Word
  mask : Word
deriving DecidableEq, Repr

/-- The rows of spec/opcode_table.json, in its order. -/
def opcodeRows : List OpcodeRow :=
  [ ⟨"nop", 0x00000000, 0xFFFFFFFF⟩,
    ⟨"mov", 0x00000001, 0xFFFF00FF⟩,
    ⟨"ldi", 0x00000002, 0xFFFFF0FF⟩,
    ⟨"zeroize", 0x00000003, 0xFFFFFFFF⟩,
    ⟨"add", 0x00000010, 0xFFF000FF⟩,
    ⟨"sub", 0x00000011, 0xFFF000FF⟩,
    ⟨"mul", 0x00000012, 0xFFF000FF⟩,
    ⟨"modred", 0x00000013, 0xFFF000FF⟩,
    ⟨"modpow", 0x00000014, 0xFF0000FF⟩,
    ⟨"modinv", 0x00000015, 0xFFF000FF⟩ ] ++
  [ ⟨"cmp", 0x00000016, 0xFFF00FFF⟩,
    ⟨"bitlen", 0x00000017, 0xFFFF0FFF⟩,
    ⟨"frombytes", 0x00000020, 0xFFFFF0FF⟩,
    ⟨"tobytes", 0x00000021, 0xFFFF0FFF⟩,
    ⟨"randbits", 0x00000022, 0xFFFFF0FF⟩,
    ⟨"randbits.odd", 0x01000022, 0xFFFFF0FF⟩,
    ⟨"isprime", 0x00000030, 0xFFFF0FFF⟩,
    ⟨"mgf1", 0x00000040, 0xFFFFFFFF⟩,
    ⟨"oaep.pad", 0x00000041, 0xFFFFFFFF⟩,
    ⟨"oaep.unpad", 0x00000042, 0xFFFFFFFF⟩ ]

end Sys2Proof
end

