-- ==== Sys2Proof/Decode.lean ====
section
/-! DEFINITION. Decoding a command word (rules R70, R73, R75, R76) and encoding a command (rule R70). Every command is
one 32-bit word (rule R77); both functions work on that word, bit 0 its least significant bit (rule R9). -/

namespace Sys2Proof

/-- Why a word is illegal (rule R75). Each of them ends the command with ILLEGAL_COMMAND. -/
inductive DecodeError where
  /-- `w[7:0]` is no opcode of rule R73. -/
  | unknownOpcode
  /-- `w[31:25]` is not 0. -/
  | reservedBits
  /-- A field the opcode does not use is not 0. -/
  | unusedField
deriving DecidableEq, Repr

/-- The field `op` (rule R70). -/
def opOf (w : Word) : BitVec 8 := w.extractLsb' 0 8

/-- The 4-bit register field that starts at bit `lo` (rules R70 and R71). -/
def regField (w : Word) (lo : Nat) : Reg := ⟨(w.extractLsb' lo 4).toNat, (w.extractLsb' lo 4).isLt⟩

/-- The field `rd` (rule R70). -/
def rdOf (w : Word) : Reg := regField w 8

/-- The field `rs1` (rule R70). -/
def rs1Of (w : Word) : Reg := regField w 12

/-- The field `rs2` (rule R70). -/
def rs2Of (w : Word) : Reg := regField w 16

/-- The field `rs3` (rule R70). -/
def rs3Of (w : Word) : Reg := regField w 20

/-- The field `odd` (rule R70). -/
def oddOf (w : Word) : Bool := w.getLsbD 24

/-- The opcode map of rule R73, as decoding uses it: `usedmask(op)` of rule R75 (0xFF and the bits of the fields the
opcode uses) and the command that the word's fields make. -/
def opEntry (op : BitVec 8) : Option (Word × (Word → Instr)) :=
  match op with
  | 0x00#8 => some (0x000000FF, fun _ => .nop)
  | 0x01#8 => some (0x0000FFFF, fun w => .mov (rdOf w) (rs1Of w))
  | 0x02#8 => some (0x00000FFF, fun w => .ldi (rdOf w))
  | 0x03#8 => some (0x000000FF, fun _ => .zeroize)
  | 0x10#8 => some (0x000FFFFF, fun w => .add (rdOf w) (rs1Of w) (rs2Of w))
  | 0x11#8 => some (0x000FFFFF, fun w => .sub (rdOf w) (rs1Of w) (rs2Of w))
  | 0x12#8 => some (0x000FFFFF, fun w => .mul (rdOf w) (rs1Of w) (rs2Of w))
  | 0x13#8 => some (0x000FFFFF, fun w => .modred (rdOf w) (rs1Of w) (rs2Of w))
  | 0x14#8 => some (0x00FFFFFF, fun w => .modpow (rdOf w) (rs1Of w) (rs2Of w) (rs3Of w))
  | 0x15#8 => some (0x000FFFFF, fun w => .modinv (rdOf w) (rs1Of w) (rs2Of w))
  | 0x16#8 => some (0x000FF0FF, fun w => .cmp (rs1Of w) (rs2Of w))
  | 0x17#8 => some (0x0000F0FF, fun w => .bitlen (rs1Of w))
  | 0x20#8 => some (0x00000FFF, fun w => .frombytes (rdOf w))
  | 0x21#8 => some (0x0000F0FF, fun w => .tobytes (rs1Of w))
  | 0x22#8 => some (0x01000FFF, fun w => if oddOf w then .randbitsOdd (rdOf w) else .randbits (rdOf w))
  | 0x30#8 => some (0x0000F0FF, fun w => .isprime (rs1Of w))
  | 0x40#8 => some (0x000000FF, fun _ => .mgf1)
  | 0x41#8 => some (0x000000FF, fun _ => .oaepPad)
  | 0x42#8 => some (0x000000FF, fun _ => .oaepUnpad)
  | _ => none

/-- Rule R75's `decode`: total on 32-bit words, an illegal word rejected by name. -/
def decode (w : Word) : Except DecodeError Instr :=
  match opEntry (opOf w) with
  | none => .error .unknownOpcode
  | some (usedMask, build) =>
    if w.extractLsb' 25 7 ≠ 0 then .error .reservedBits
    else if w &&& ~~~usedMask ≠ 0 then .error .unusedField
    else .ok (build w)

/-- Rule R70: `word = op + rd*2^8 + rs1*2^12 + rs2*2^16 + rs3*2^20 + odd*2^24`, the powers written out. -/
def cmdWord (op : Nat) (rd rs1 rs2 rs3 : Reg) (odd : Nat) : Word :=
  BitVec.ofNat 32
    (op + rd.val * 0x100 + rs1.val * 0x1000 + rs2.val * 0x10000 + rs3.val * 0x100000 + odd * 0x1000000)

/-- The word of a command (rules R70 and R73): an unused field is 0. -/
def encode : Instr → Word
  | .nop => cmdWord 0x00 0 0 0 0 0
  | .mov rd rs1 => cmdWord 0x01 rd rs1 0 0 0
  | .ldi rd => cmdWord 0x02 rd 0 0 0 0
  | .zeroize => cmdWord 0x03 0 0 0 0 0
  | .add rd rs1 rs2 => cmdWord 0x10 rd rs1 rs2 0 0
  | .sub rd rs1 rs2 => cmdWord 0x11 rd rs1 rs2 0 0
  | .mul rd rs1 rs2 => cmdWord 0x12 rd rs1 rs2 0 0
  | .modred rd rs1 rs2 => cmdWord 0x13 rd rs1 rs2 0 0
  | .modpow rd rs1 rs2 rs3 => cmdWord 0x14 rd rs1 rs2 rs3 0
  | .modinv rd rs1 rs2 => cmdWord 0x15 rd rs1 rs2 0 0
  | .cmp rs1 rs2 => cmdWord 0x16 0 rs1 rs2 0 0
  | .bitlen rs1 => cmdWord 0x17 0 rs1 0 0 0
  | .frombytes rd => cmdWord 0x20 rd 0 0 0 0
  | .tobytes rs1 => cmdWord 0x21 0 rs1 0 0 0
  | .randbits rd => cmdWord 0x22 rd 0 0 0 0
  | .randbitsOdd rd => cmdWord 0x22 rd 0 0 0 1
  | .isprime rs1 => cmdWord 0x30 0 rs1 0 0 0
  | .mgf1 => cmdWord 0x40 0 0 0 0 0
  | .oaepPad => cmdWord 0x41 0 0 0 0 0
  | .oaepUnpad => cmdWord 0x42 0 0 0 0 0

/-- The 32-bit command word whose low `nbits` bits are those of `w` and whose other bits are 0. -/
def tableWord (nbits w : Nat) : Word := BitVec.ofNat 32 (w % 2 ^ nbits)

/-- What the decoder reads from an instruction whose bits are `w`, numbered as spec/opcode_table.json numbers them. -/
def decodeTableWord (nbits w : Nat) : Option Instr :=
  match decode (tableWord nbits w) with
  | .ok i => some i
  | .error _ => none

end Sys2Proof
end

