-- ==== Sys2Proof/Machine/State.lean ====
section
/-! DEFINITION. The architectural state of the MBE (spec/10_state.md), the reset state (rule R42), and the two ways a
step can stop. State is plain data. -/

namespace Sys2Proof.Machine

/-- BUF (rule R50) as (offset, byte) pairs, offsets strictly rising. An offset that is not listed reads as 0, BUF's
reset contents (rule R42), and no entry holds 0. -/
abbrev Memory := List Host.Cell

/-- The stored bits of STATUS (rule R28). STATUS.ERR is not stored: it always equals (ERRCODE != 0). -/
structure Status where
  busy : Bool
  done : Bool
  overrun : Bool
  accerr : Bool
  rngf : Bool
deriving DecidableEq, Repr

/-- The error codes of rule R232 that have a name. The three after `rngUnavailable` belong to host software: the
engine never writes them (rule R231). -/
inductive ErrCode where
  | ok
  | underflow
  | notInvertible
  | messageTooLong
  | decryptionFailed
  | rngUnavailable
  | invalidKeySize
  | generationFailed
  | invalidCiphertextLength
  | illegalCommand
  | illegalOperand
  | bufRange
  | divByZero
  | capacity
deriving DecidableEq, Repr

/-- The operand CSRs (rules R35 to R38). HASHCFG and ROUNDS hold only the bits the rules name: their other bits are
reserved, read 0 and ignore writes (rule R25). -/
structure Operands where
  hashcfg : BitVec 8
  rounds : BitVec 8
  klen : Word
  arg0 : Word
  arg1 : Word
  arg2 : Word
  arg3 : Word
  arg4 : Word
  arg5 : Word
deriving DecidableEq, Repr

/-- The reset values of the operand CSRs (rules R25 and R42). -/
def Operands.reset : Operands :=
  { hashcfg := 0x11, rounds := 40, klen := 0, arg0 := 0, arg1 := 0, arg2 := 0, arg3 := 0, arg4 := 0, arg5 := 0 }

/-- The width of a host access: 8, 16 or 32 bits, or any other width (rules R52 and R54). -/
inductive Width where
  | byte
  | half
  | word
  | other
deriving DecidableEq, Repr

/-- A host access to the window, at a host offset from ENGINE_BASE (rules R50, R52, R54; log entry 10). An 8-bit
write uses the low byte of `data`. -/
inductive Access where
  | read (width : Width) (offset : Nat)
  | write (width : Width) (offset : Nat) (data : Word)
deriving DecidableEq, Repr

/-- One pending step of the total order of rule R59: a host access, the engine's turn, or the hardware reset input
(rule R260). -/
inductive Event where
  | host (a : Access)
  | engine
  | hardReset
deriving DecidableEq, Repr

/-- MODEL's own (log entry 7): what the bus answered to the last host access. -/
inductive Reply where
  /-- No host access yet. -/
  | idle
  /-- A read answered with this value, zero-extended. -/
  | value (w : Word)
  /-- A write was taken or ignored. -/
  | written
  /-- The access did not reach the MBE (rule R57): what it does is the platform's business. -/
  | platform
deriving DecidableEq, Repr

/-- The state of the MBE. -/
structure State where
  /-- MAXBITS, BUFSZ and TD_BOUND (rules R7 and R32): constant for a given chip. -/
  params : Params
  /-- The big-integer registers x0 to x15 (rule R20). -/
  x : Vector Nat 16
  /-- The operand buffer BUF (rule R50). -/
  buf : Memory
  /-- STATUS (rule R28). -/
  status : Status
  /-- ERRCODE (rule R29). -/
  errcode : ErrCode
  /-- CUR, the last issued command word, which CMD reads back (rules R23 and R30). -/
  cur : Word
  /-- RES (rule R34). -/
  res : Word
  /-- The live operand CSRs (rules R35 to R38). -/
  csr : Operands
  /-- SNAP, the operand CSRs as at issue (rule R23). -/
  snap : Operands
  /-- IER.DONE_IE (rule R39). -/
  doneIe : Bool
  /-- MODEL's own (log entry 2): the pending steps of the host, the engine and the reset input, first to come first. -/
  agenda : List Event
  /-- MODEL's own (log entries 4 and 5): the oracle answers the environment has already decided, first to come first. -/
  rng : List RngAnswer
  /-- MODEL's own (log entries 4 and 5): how many draws the oracle has answered: the RNG history of rule R40. -/
  draws : Nat
  /-- MODEL's own (log entry 7): what the last host access answered. -/
  reply : Reply
deriving DecidableEq, Repr

/-- The MBE never stops because of an error (rule R230: errors are results), so no step faults and there is no reason to
name: nobody raises one. Safe. -/
inductive Fault
deriving DecidableEq, Repr

/-- Why a step can be refused. -/
inductive Refusal where
  /-- Raised by an arm of `exec` whose command has no meaning yet. No arm raises it now. Safe. -/
  | notModelled (mnemonic : String)
  /-- Raised by `step` when the parameters break rule R8: such a configuration does not describe an MBE, and a model
  should refuse it. Safe. -/
  | notAnMbe
deriving DecidableEq, Repr

/-- STATUS after reset (rule R42). -/
def Status.reset : Status := { busy := false, done := false, overrun := false, accerr := false, rngf := false }

/-- The machine right after reset (rules R42 and R260), with the default parameters of rule R7. The model's own fields
start empty (log entries 2, 5 and 7); SNAP starts as a copy of the operand CSRs (log entry 6). -/
def State.reset : State :=
  { params := Params.default
    x := Vector.replicate 16 0
    buf := []
    status := Status.reset
    errcode := .ok
    cur := 0
    res := 0
    csr := Operands.reset
    snap := Operands.reset
    doneIe := false
    agenda := []
    rng := []
    draws := 0
    reply := .idle }

end Sys2Proof.Machine
end

