-- ==== Sys2Proof/Machine/Flags.lean ====
section
/-! DEFINITION. The flag-like outputs of rule R41 as software reads them: STATUS with its computed ERR bit, the numbers
of the error codes, the interrupt line, and CMP's 32-bit result pattern. The MBE has no condition codes. -/

namespace Sys2Proof.Machine

/-- ERRCODE[7:0] (rule R232). -/
def ErrCode.code : ErrCode → BitVec 8
  | .ok => 0x00
  | .underflow => 0x01
  | .notInvertible => 0x02
  | .messageTooLong => 0x03
  | .decryptionFailed => 0x04
  | .rngUnavailable => 0x05
  | .invalidKeySize => 0x06
  | .generationFailed => 0x07
  | .invalidCiphertextLength => 0x08
  | .illegalCommand => 0x10
  | .illegalOperand => 0x11
  | .bufRange => 0x12
  | .divByZero => 0x13
  | .capacity => 0x14

/-- ERRCODE as a 32-bit CSR: bits 31:8 read 0 (rule R29). -/
def ErrCode.word (e : ErrCode) : Word := e.code.zeroExtend 32

/-- The codes reserved for host software, which the engine never writes (rules R231 and R232). -/
def ErrCode.hostOnly : ErrCode → Bool
  | .invalidKeySize => true
  | .generationFailed => true
  | .invalidCiphertextLength => true
  | _ => false

/-- STATUS.ERR always equals (ERRCODE != 0) (rule R28). -/
def State.err (s : State) : Bool := decide (s.errcode.code ≠ 0)

/-- A single bit at place i of a 32-bit word. -/
def bitAt (b : Bool) (i : Nat) : Word := if b then BitVec.ofNat 32 (2 ^ i) else 0

/-- STATUS as a 32-bit CSR (rule R28). -/
def State.statusWord (s : State) : Word :=
  bitAt s.status.busy 0 ||| bitAt s.status.done 1 ||| bitAt s.err 2 ||| bitAt s.status.overrun 3 |||
  bitAt s.status.accerr 4 ||| bitAt s.status.rngf 5

/-- A host write to STATUS (rule R28): a 1 at bit 1, 3 or 4 clears that bit; every other bit is ignored. -/
def Status.writeOneToClear (w : Word) (st : Status) : Status :=
  { st with
    done := st.done && !w.getLsbD 1
    overrun := st.overrun && !w.getLsbD 3
    accerr := st.accerr && !w.getLsbD 4 }

/-- `IRQ = STATUS.DONE AND IER.DONE_IE` (rules R39 and R240). -/
def State.irq (s : State) : Bool := s.status.done && s.doneIe

/-- The level of the host interrupt controller's input n: IRQ drives the input IRQ_ROUTE (rule R240). -/
def State.irqInput (s : State) (n : Nat) : Bool := decide (n = Config.irqRoute) && s.irq

/-- CMP's result (rule R112): -1, 0 or +1 as a 32-bit pattern. -/
def cmpWord (a b : Nat) : Word := if a < b then 0xFFFFFFFF else if a = b then 0 else 1

end Sys2Proof.Machine
end

