-- ==== Sys2Proof/Machine/Bytes.lean ====
section
/-! DEFINITION. Bit lengths and byte strings (rules R9 and R10): BE, I2OSP, C4 and bytewise exclusive-or. -/

namespace Sys2Proof.Machine

/-- `bitlen(v)`: the least k with v < 2^k (rule R9). -/
def bitlen (v : Nat) : Nat := if v = 0 then 0 else Nat.log2 v + 1

/-- `bytelen(v) = ceil(bitlen(v) / 8)` (rule R9). -/
def bytelen (v : Nat) : Nat := (bitlen v + 7) / 8

/-- `BE(S)`: the big-endian reading of a byte string (rule R10). -/
def be (bytes : List Byte) : Nat := bytes.foldl (fun acc b => acc * 256 + b.toNat) 0

/-- `I2OSP` with the bytes already made to its right. -/
def i2ospOnto : Nat → Nat → List Byte → List Byte
  | _, 0, acc => acc
  | v, k + 1, acc => i2ospOnto (v / 256) k (BitVec.ofNat 8 v :: acc)

/-- `I2OSP(v, k)`: the k-byte big-endian string of v, for v < 256^k (rule R10). -/
def i2osp (v k : Nat) : List Byte := i2ospOnto v k []

/-- `C4(i)`: the 4-byte big-endian counter (rule R10). -/
def c4 (i : Nat) : List Byte := i2osp i 4

/-- `zeros(k)` (rule R10). -/
def zeros (k : Nat) : List Byte := List.replicate k 0

/-- `A xor B` of two strings of equal length (rule R10). -/
def xorBytes (a b : List Byte) : List Byte := List.zipWith (· ^^^ ·) a b

end Sys2Proof.Machine
end

