-- ==== Sys2Proof/Machine/Numeric.lean ====
section
/-! DEFINITION. The number functions of the arithmetic and primality commands, written so that they can be evaluated:
modular exponentiation by square-and-multiply (rules R108 and R109), modular inverse by the extended Euclidean
algorithm (rules R110 and R111), the trial-division primes (rule R161) and the Miller-Rabin round (rule R162). -/

namespace Sys2Proof.Machine

/-- Square-and-multiply over the top `k` of the low `len` bits of e, most significant first: `(a ^ (e's top k bits)) mod n`.
The multiply is always formed and its result selected by the bit (rule R109). -/
def modPowTop (a e n len : Nat) : Nat → Nat
  | 0 => 1 % n
  | k + 1 =>
    let r := modPowTop a e n len k
    let sq := r * r % n
    if e.testBit (len - 1 - k) then sq * (a % n) % n else sq

/-- `(a ^ e) mod n` (rule R108), from e's top bit down: the bits above it leave r = 1 mod n (rule R109, log entry 13). -/
def modPow (a e n : Nat) : Nat := modPowTop a e n (bitlen e) (bitlen e)

/-- Rule R109's fixed-window form: `steps` windows of w bits, each w squarings and one multiply by a table entry
`b^digit mod n`, whatever the exponent holds. -/
def modPowWindows (a e n w steps : Nat) : Nat → Nat
  | 0 => 1 % n
  | k + 1 =>
    let r := modPowWindows a e n w steps k
    let digit := e / 2 ^ (w * (steps - 1 - k)) % 2 ^ w
    let sq := (List.replicate w ()).foldl (fun r _ => r * r % n) r
    sq * ((a % n) ^ digit % n) % n

/-- Rule R109's algorithm with window width w over MAXBITS exponent bits: `ceil(MAXBITS / w)` steps. -/
def modPowFixed (maxbits w a e n : Nat) : Nat :=
  modPowWindows a e n w ((maxbits + w - 1) / w) ((maxbits + w - 1) / w)

/-- The extended Euclidean algorithm modulo n on the remainders r0, r1 with coefficients s0, s1, where each remainder is
its coefficient times the base modulo n. Answers the last nonzero remainder and its coefficient. -/
def euclid (n : Nat) : Nat → Nat → Nat → Nat → Nat → Nat × Nat
  | 0, r0, _, s0, _ => (r0, s0)
  | fuel + 1, r0, r1, s0, s1 =>
    if r1 = 0 then (r0, s0)
    else euclid n fuel r1 (r0 % r1) s1 ((s0 + (n - (r0 / r1) * s1 % n)) % n)

/-- The inverse of a modulo n in [0, n), for n > 0 (rule R110); `none` where gcd(a, n) != 1. -/
def modInverse (a n : Nat) : Option Nat :=
  match euclid n (n + 1) n (a % n) 0 (1 % n) with
  | (g, y) => if g = 1 then some y else none

/-- The primes up to b, ascending (rule R161): k is prime iff no smaller prime divides it. -/
def primesUpTo : Nat → List Nat
  | 0 => []
  | k + 1 =>
    let ps := primesUpTo k
    if decide (2 ≤ k + 1) && ps.all (fun p => decide ((k + 1) % p ≠ 0)) then ps ++ [k + 1] else ps

/-- Trial division by the primes in the list, in order (rule R160): the verdict, if they decide the candidate. -/
def trialDivision (c : Nat) : List Nat → Option Bool
  | [] => none
  | p :: ps => if c = p then some true else if c % p = 0 then some false else trialDivision c ps

/-- `m = 2^s * d` with d odd, for m > 0 (rule R160); `fuel` bounds s. -/
def splitTwos : Nat → Nat → Nat × Nat
  | 0, m => (0, m)
  | fuel + 1, m =>
    if m % 2 = 0 then
      match splitTwos fuel (m / 2) with
      | (s, d) => (s + 1, d)
    else (0, m)

/-- The repeated squarings of a Miller-Rabin round (rule R162). -/
def mrSquares (c : Nat) : Nat → Nat → Bool
  | 0, _ => false
  | k + 1, y => if y * y % c = c - 1 then true else mrSquares c k (y * y % c)

/-- `MRround(c, a, s, d)` (rule R162). -/
def mrRound (c a s d : Nat) : Bool :=
  let y := modPow a d c
  if y = 1 ∨ y = c - 1 then true else mrSquares c (s - 1) y

/-- One Miller-Rabin round of candidate c with base a, with c - 1 split as rule R160 says. -/
def mrPasses (c a : Nat) : Bool :=
  match splitTwos (bitlen c) (c - 1) with
  | (s, d) => mrRound c a s d

end Sys2Proof.Machine
end

