-- ==== Sys2Proof/Machine/Memory.lean ====
section
/-! DEFINITION. BUF as a canonical list of cells (rule R50): reading, writing, and the canonical form. -/

namespace Sys2Proof.Machine

/-- What an offset that is not listed reads as: BUF's reset contents (rule R42). -/
def Memory.unlisted : Byte := 0

/-- BUF[a]. -/
def Memory.read : Memory → Nat → Byte
  | [], _ => Memory.unlisted
  | (k, b) :: m, a => if k = a then b else Memory.read m a

/-- The cell to list for the byte b at offset a: none if b is what an unlisted offset reads as. -/
def Memory.cell (a : Nat) (b : Byte) : Memory := if b = Memory.unlisted then [] else [(a, b)]

/-- BUF[a] <- b, keeping the canonical form. -/
def Memory.write : Memory → Nat → Byte → Memory
  | [], a, b => Memory.cell a b
  | (k, c) :: m, a, b =>
    if k < a then (k, c) :: Memory.write m a b
    else if k = a then Memory.cell a b ++ m
    else Memory.cell a b ++ (k, c) :: m

/-- `MemRead(a, n)`: the byte string BUF[a..a+n) (rule R11). -/
def Memory.readBytes (m : Memory) (a n : Nat) : List Byte := (List.range n).map fun i => m.read (a + i)

/-- `MemWrite(a, n, S)` for a string S of n bytes (rule R11). -/
def Memory.writeBytes : Memory → Nat → List Byte → Memory
  | m, _, [] => m
  | m, a, b :: bytes => Memory.writeBytes (Memory.write m a b) (a + 1) bytes

/-- The canonical form: offsets strictly rising, no entry equal to what an unlisted offset reads as. -/
def Memory.wf : Memory → Bool
  | [] => true
  | [(_, b)] => decide (b ≠ Memory.unlisted)
  | (k, b) :: (k', b') :: m => decide (b ≠ Memory.unlisted) && decide (k < k') && Memory.wf ((k', b') :: m)

/-- No entry lies at or past offset n: BUF holds n bytes (rule R50). -/
def Memory.within (m : Memory) (n : Nat) : Bool := m.all fun c => decide (c.1 < n)

end Sys2Proof.Machine
end

