-- ==== Sys2Proof/Machine/Operands.lean ====
section
/-! DEFINITION. Where a command's operands come from (rules R71, R72, R74): the register fields of its word, and the
operand CSRs as they stood at issue (SNAP), each read as the natural it holds. -/

namespace Sys2Proof.Machine

/-- `x[r]` (rule R11). -/
def State.reg (s : State) (r : Reg) : Nat := s.x[r.val]

/-- HASHCFG.HASH_SEL, bits 3:0 (rule R35). -/
def Operands.hashSel (o : Operands) : BitVec 4 := o.hashcfg.extractLsb' 0 4

/-- HASHCFG.MGF_SEL, bits 7:4 (rule R35). -/
def Operands.mgfSel (o : Operands) : BitVec 4 := o.hashcfg.extractLsb' 4 4

/-- The hash a selector names; 4 to 15 are reserved (rule R35). -/
def hashOfSel (sel : BitVec 4) : Option HashFn :=
  match sel.toNat with
  | 0 => some .sha1
  | 1 => some .sha256
  | 2 => some .sha384
  | 3 => some .sha512
  | _ => none

/-- The label hash a command uses: `none` where HASH_SEL is reserved. -/
def State.labelHash (s : State) : Option HashFn := hashOfSel s.snap.hashSel

/-- The hash used inside MGF1: `none` where MGF_SEL is reserved. -/
def State.mgfHash (s : State) : Option HashFn := hashOfSel s.snap.mgfSel

/-- ARG0 as at issue. -/
def State.arg0 (s : State) : Nat := s.snap.arg0.toNat

/-- ARG1 as at issue. -/
def State.arg1 (s : State) : Nat := s.snap.arg1.toNat

/-- ARG2 as at issue. -/
def State.arg2 (s : State) : Nat := s.snap.arg2.toNat

/-- ARG3 as at issue. -/
def State.arg3 (s : State) : Nat := s.snap.arg3.toNat

/-- ARG4 as at issue. -/
def State.arg4 (s : State) : Nat := s.snap.arg4.toNat

/-- ARG5 as at issue. -/
def State.arg5 (s : State) : Nat := s.snap.arg5.toNat

/-- KLEN as at issue. -/
def State.klen (s : State) : Nat := s.snap.klen.toNat

/-- ROUNDS[7:0] as at issue. -/
def State.rounds (s : State) : Nat := s.snap.rounds.toNat

/-- Rule R53: a BUF access at offset a of length n is in range iff a + n <= BUFSZ, in naturals. -/
def State.inRange (s : State) (a n : Nat) : Bool := decide (a + n ≤ s.params.bufsz)

end Sys2Proof.Machine
end

