-- ==== Sys2Proof/Machine/Ops.lean ====
section
/-! DEFINITION. The shared operations of the commands: the two ways a completion ends (rules R24 and R235), writing a register
or BUF, and drawing from the entropy oracle (rules R14 and R234). -/

namespace Sys2Proof.Machine

/-- What a step of the MBE answers. -/
abbrev StepOutcome := Host.Outcome State Fault Refusal

/-- `complete` (rules R11 and R24): the standard success status, ERRCODE <- OK, DONE <- 1, BUSY <- 0. -/
def State.complete (s : State) : State :=
  { s with errcode := .ok, status := { s.status with done := true, busy := false } }

/-- The error exit (rule R235): ERRCODE <- e, DONE <- 1, BUSY <- 0, and RNGF <- 1 if e is RNG_UNAVAILABLE. This is how the
MBE reports every error; it takes no exception and enters no handler (rules R230 and R242). -/
def State.raise (e : ErrCode) (s : State) : State :=
  { s with
    errcode := e
    status := { s.status with done := true, busy := false, rngf := s.status.rngf || decide (e = .rngUnavailable) } }

/-- `x[r] <- v` (rule R11). -/
def State.setReg (r : Reg) (v : Nat) (s : State) : State := { s with x := s.x.set r.val v r.isLt }

/-- `CSR.RES <- w` (rule R34). -/
def State.setRes (w : Word) (s : State) : State := { s with res := w }

/-- `MemWrite(a, len(bytes), bytes)` on BUF (rule R11). -/
def State.writeBuf (a : Nat) (bytes : List Byte) (s : State) : State := { s with buf := s.buf.writeBytes a bytes }

/-- `MemRead(a, n)` on BUF (rule R11). -/
def State.readBuf (s : State) (a n : Nat) : List Byte := s.buf.readBytes a n

/-- A register holds v iff v needs no more than MAXBITS bits (rules R20 and R116). -/
def State.fits (s : State) (v : Nat) : Bool := decide (bitlen v ≤ s.params.maxbits)

/-- Complete with x[rd] <- v, or raise CAPACITY when v needs more than MAXBITS bits (rule R116). -/
def State.completeReg (rd : Reg) (v : Nat) (s : State) : State :=
  if s.fits v then (s.setReg rd v).complete else s.raise .capacity

/-- Asks the oracle once (rules R14 and R40): the environment's next answer, or, where it has put none, the free one. -/
def State.askOracle (s : State) : RngAnswer × State :=
  match s.rng with
  | a :: rest => (a, { s with rng := rest, draws := s.draws + 1 })
  | [] => (Config.rngAnswer s.draws, { s with draws := s.draws + 1 })

/-- One draw (rules R14 and R234): `none` where it fails. While RNGF = 1 it fails without asking the oracle. -/
def State.draw (s : State) : Option Nat × State :=
  if s.status.rngf then (none, s)
  else
    match s.askOracle with
    | (.fail, s') => (none, s')
    | (.value n, s') => (some n, s')

/-- The k bytes that an answer n to `RngBytes(k)` stands for (rule R14, log entry 4). -/
def answerBytes (k n : Nat) : List Byte := i2osp (n % 256 ^ k) k

/-- The natural in [lo, hi] that an answer n to `RngRange(lo, hi)` stands for (rule R14, log entry 4): n itself where
it lies in the range. -/
def answerRange (lo hi n : Nat) : Nat := if lo ≤ n ∧ n ≤ hi then n else lo + n % (hi - lo + 1)

/-- `RngBytes(k)` (rule R14): `none` where the draw fails. -/
def State.drawBytes (k : Nat) (s : State) : Option (List Byte) × State :=
  match s.draw with
  | (none, s') => (none, s')
  | (some n, s') => (some (answerBytes k n), s')

/-- `RngRange(lo, hi)` (rule R14): `none` where the draw fails. -/
def State.drawRange (lo hi : Nat) (s : State) : Option Nat × State :=
  match s.draw with
  | (none, s') => (none, s')
  | (some n, s') => (some (answerRange lo hi n), s')

end Sys2Proof.Machine
end

