-- ==== Sys2Proof/Machine/BigIntArith.lean ====
section
/-! DEFINITION. The arithmetic commands (spec/41_bigint_arith.md). -/

namespace Sys2Proof.Machine

/-- ADD (rule R100). -/
def execAdd (rd rs1 rs2 : Reg) (s : State) : StepOutcome :=
  .next (s.completeReg rd (s.reg rs1 + s.reg rs2))

/-- SUB (rule R102). -/
def execSub (rd rs1 rs2 : Reg) (s : State) : StepOutcome :=
  if s.reg rs1 < s.reg rs2 then .next (s.raise .underflow)
  else .next (s.setReg rd (s.reg rs1 - s.reg rs2)).complete

/-- MUL (rule R104). -/
def execMul (rd rs1 rs2 : Reg) (s : State) : StepOutcome :=
  .next (s.completeReg rd (s.reg rs1 * s.reg rs2))

/-- MODRED (rule R106). -/
def execModred (rd rs1 rs2 : Reg) (s : State) : StepOutcome :=
  if s.reg rs2 = 0 then .next (s.raise .divByZero)
  else .next (s.setReg rd (s.reg rs1 % s.reg rs2)).complete

/-- MODPOW (rule R108). -/
def execModpow (rd rs1 rs2 rs3 : Reg) (s : State) : StepOutcome :=
  if s.reg rs3 = 0 then .next (s.raise .divByZero)
  else .next (s.setReg rd (modPow (s.reg rs1) (s.reg rs2) (s.reg rs3))).complete

/-- MODINV (rule R110). -/
def execModinv (rd rs1 rs2 : Reg) (s : State) : StepOutcome :=
  if s.reg rs2 = 0 then .next (s.raise .divByZero)
  else
    match modInverse (s.reg rs1) (s.reg rs2) with
    | none => .next (s.raise .notInvertible)
    | some y => .next (s.setReg rd y).complete

/-- CMP (rule R112). -/
def execCmp (rs1 rs2 : Reg) (s : State) : StepOutcome :=
  .next (s.setRes (cmpWord (s.reg rs1) (s.reg rs2))).complete

/-- BITLEN (rule R114). -/
def execBitlen (rs1 : Reg) (s : State) : StepOutcome :=
  .next (s.setRes (BitVec.ofNat 32 (bitlen (s.reg rs1)))).complete

end Sys2Proof.Machine
end

