-- ==== Sys2Proof/Machine/BigIntBytes.lean ====
section
/-! DEFINITION. The byte conversion and random commands (spec/42_bigint_bytes.md). -/

namespace Sys2Proof.Machine

/-- FROMBYTES (rule R140). -/
def execFrombytes (rd : Reg) (s : State) : StepOutcome :=
  if s.inRange s.arg0 s.arg1 then .next (s.completeReg rd (be (s.readBuf s.arg0 s.arg1)))
  else .next (s.raise .bufRange)

/-- How many bytes TOBYTES writes: `max(min_len, bytelen(v))` (rule R142). -/
def tobytesLen (minLen v : Nat) : Nat := max minLen (bytelen v)

/-- TOBYTES (rule R142). -/
def execTobytes (rs1 : Reg) (s : State) : StepOutcome :=
  let v := s.reg rs1
  let k := tobytesLen s.arg5 v
  if s.inRange s.arg4 k then .next ((s.writeBuf s.arg4 (i2osp v k)).setRes (BitVec.ofNat 32 k)).complete
  else .next (s.raise .bufRange)

/-- RANDBITS's value from its draw (rule R144): the low nb bits, bit nb-1 forced to 1, and bit 0 too if odd. -/
def randbitsValue (nb : Nat) (odd : Bool) (draw : List Byte) : Nat :=
  let v := be draw % 2 ^ nb ||| 2 ^ (nb - 1)
  if odd then v ||| 1 else v

/-- RANDBITS with the `odd` field of its word (rule R144): both count checks come before the draw. -/
def State.randbits (odd : Bool) (rd : Reg) (s : State) : StepOutcome :=
  let nb := s.arg5
  if nb = 0 then .next (s.raise .illegalOperand)
  else if s.params.maxbits < nb then .next (s.raise .capacity)
  else
    match s.drawBytes ((nb + 7) / 8) with
    | (none, s') => .next (s'.raise .rngUnavailable)
    | (some draw, s') => .next (s'.setReg rd (randbitsValue nb odd draw)).complete

/-- RANDBITS with odd = 0 (rule R144). -/
def execRandbits (rd : Reg) (s : State) : StepOutcome := s.randbits false rd

/-- RANDBITS with odd = 1 (rule R144). -/
def execRandbitsOdd (rd : Reg) (s : State) : StepOutcome := s.randbits true rd

end Sys2Proof.Machine
end

