-- ==== Sys2Proof/Machine/EngineControl.lean ====
section
/-! DEFINITION. The engine-control commands (spec/45_engine_control.md). -/

namespace Sys2Proof.Machine

/-- NOP (rule R210). -/
def execNop (s : State) : StepOutcome := .next s.complete

/-- MOV (rule R211). -/
def execMov (rd rs1 : Reg) (s : State) : StepOutcome := .next (s.setReg rd (s.reg rs1)).complete

/-- LDI (rule R212): the constant is ARG5, zero-extended. -/
def execLdi (rd : Reg) (s : State) : StepOutcome := .next (s.setReg rd s.arg5).complete

/-- ZEROIZE (rule R213, log entry 11): x0 to x15, all of BUF and RES become 0. -/
def execZeroize (s : State) : StepOutcome :=
  .next { s with x := Vector.replicate 16 0, buf := [], res := 0 }.complete

end Sys2Proof.Machine
end

