-- ==== Sys2Proof/Machine/Hash.lean ====
section
/-! DEFINITION. The hash functions of rule R35 (the digests of FIPS 180-4, log entry 8: PRESUMED, they are taken from outside
the spec) and MGF1 (rule R13). -/

namespace Sys2Proof.Machine

/-- `hLen(s)`: the output length in bytes (rule R35). -/
def hashLen : HashFn → Nat
  | .sha1 => 20
  | .sha256 => 32
  | .sha384 => 48
  | .sha512 => 64

/-- The big-endian words of `n` bytes each at the head of a byte string, `k` of them. -/
def wordsOf (w n : Nat) : Nat → List Byte → List (BitVec w)
  | 0, _ => []
  | k + 1, bytes => BitVec.ofNat w (be (bytes.take n)) :: wordsOf w n k (bytes.drop n)

/-- A padded message (FIPS 180-4 section 5.1): 0x80, zeros, and the bit length in `lenBytes` bytes, up to a multiple of
`block` bytes. -/
def shaPad (block lenBytes : Nat) (msg : List Byte) : List Byte :=
  msg ++ [0x80] ++ zeros ((2 * block - 1 - lenBytes - msg.length % block) % block) ++ i2osp (8 * msg.length) lenBytes

/-- Folds `f` over `k` consecutive blocks of `block` bytes. -/
def foldBlocks {σ : Type} (f : σ → List Byte → σ) (block : Nat) : Nat → σ → List Byte → σ
  | 0, st, _ => st
  | k + 1, st, bytes => foldBlocks f block k (f st (bytes.take block)) (bytes.drop block)

/-- The eight chaining words of the SHA-2 functions. -/
structure ShaRegs (w : Nat) where
  a : BitVec w
  b : BitVec w
  c : BitVec w
  d : BitVec w
  e : BitVec w
  f : BitVec w
  g : BitVec w
  h : BitVec w
deriving DecidableEq, Repr

/-- Wordwise sum of two sets of chaining words. -/
def ShaRegs.add {w : Nat} (p q : ShaRegs w) : ShaRegs w :=
  ⟨p.a + q.a, p.b + q.b, p.c + q.c, p.d + q.d, p.e + q.e, p.f + q.f, p.g + q.g, p.h + q.h⟩

/-- The chaining words in order. -/
def ShaRegs.words {w : Nat} (p : ShaRegs w) : List (BitVec w) := [p.a, p.b, p.c, p.d, p.e, p.f, p.g, p.h]

/-- The rotation and shift amounts that tell SHA-256 from SHA-512 (FIPS 180-4 section 4.1). -/
structure ShaAmounts where
  big0 : Nat × Nat × Nat
  big1 : Nat × Nat × Nat
  small0 : Nat × Nat × Nat
  small1 : Nat × Nat × Nat

/-- FIPS 180-4 section 4.1.2. -/
def sha256Amounts : ShaAmounts :=
  { big0 := (2, 13, 22), big1 := (6, 11, 25), small0 := (7, 18, 3), small1 := (17, 19, 10) }

/-- FIPS 180-4 section 4.1.3. -/
def sha512Amounts : ShaAmounts :=
  { big0 := (28, 34, 39), big1 := (14, 18, 41), small0 := (1, 8, 7), small1 := (19, 61, 6) }

/-- Exclusive-or of three right rotations. -/
def rotations {w : Nat} (r : Nat × Nat × Nat) (x : BitVec w) : BitVec w :=
  x.rotateRight r.1 ^^^ x.rotateRight r.2.1 ^^^ x.rotateRight r.2.2

/-- Exclusive-or of two right rotations and a right shift. -/
def rotationsShift {w : Nat} (r : Nat × Nat × Nat) (x : BitVec w) : BitVec w :=
  x.rotateRight r.1 ^^^ x.rotateRight r.2.1 ^^^ (x >>> r.2.2)

/-- `n` words of the SHA-2 message schedule from a window of sixteen (FIPS 180-4 sections 6.2.2 and 6.4.2). -/
def shaSchedule {w : Nat} (am : ShaAmounts) : Nat → List (BitVec w) → List (BitVec w)
  | 0, _ => []
  | n + 1, win =>
    let next := rotationsShift am.small1 (win.getD 14 0) + win.getD 9 0 + rotationsShift am.small0 (win.getD 1 0) +
      win.getD 0 0
    win.getD 0 0 :: shaSchedule am n (win.drop 1 ++ [next])

/-- One SHA-2 round with its constant and its schedule word. -/
def shaRound {w : Nat} (am : ShaAmounts) (v : ShaRegs w) (kw : BitVec w × BitVec w) : ShaRegs w :=
  let t1 := v.h + rotations am.big1 v.e + ((v.e &&& v.f) ^^^ (~~~v.e &&& v.g)) + kw.1 + kw.2
  let t2 := rotations am.big0 v.a + ((v.a &&& v.b) ^^^ (v.a &&& v.c) ^^^ (v.b &&& v.c))
  ⟨t1 + t2, v.a, v.b, v.c, v.d + t1, v.e, v.f, v.g⟩

/-- One SHA-2 block: as many rounds as there are constants. -/
def shaBlock {w : Nat} (am : ShaAmounts) (ks : List (BitVec w)) (st : ShaRegs w) (block : List Byte) : ShaRegs w :=
  st.add ((ks.zip (shaSchedule am ks.length (wordsOf w (w / 8) 16 block))).foldl (shaRound am) st)

/-- The largest `r + m` with `m < 2^k` and `(r + m) ^ n <= x`, for `r ^ n <= x`: the bits of m are tried from the top down. -/
def rootFrom (n x : Nat) : Nat → Nat → Nat
  | 0, r => r
  | k + 1, r => rootFrom n x k (if (r + 2 ^ k) ^ n ≤ x then r + 2 ^ k else r)

/-- The first w bits of the fractional part of the n-th root of p, for a root below 32: how FIPS 180-4 defines every
constant of the SHA-2 functions (sections 4.2.2, 4.2.3 and 5.3.3 to 5.3.5). -/
def rootFraction (n w p : Nat) : BitVec w := BitVec.ofNat w (rootFrom n (p * 2 ^ (n * w)) (w + 5) 0)

/-- The first eighty primes. -/
def shaPrimes : List Nat := primesUpTo 409

/-- The round constants of the SHA-2 functions with `rounds` rounds on w-bit words: the cube roots of the first primes
(FIPS 180-4 sections 4.2.2 and 4.2.3). -/
def shaConstants (w rounds : Nat) : List (BitVec w) := (shaPrimes.take rounds).map (rootFraction 3 w)

/-- The initial value of a SHA-2 function on w-bit words: the square roots of eight consecutive primes, `skip` primes
left out before them (FIPS 180-4 sections 5.3.3 to 5.3.5). -/
def shaInitial (w skip : Nat) : ShaRegs w :=
  let word (i : Nat) := rootFraction 2 w (shaPrimes.getD (skip + i) 0)
  ⟨word 0, word 1, word 2, word 3, word 4, word 5, word 6, word 7⟩

/-- The byte string of a list of words, `n` bytes each, most significant byte first. -/
def bytesOfWords {w : Nat} (n : Nat) (ws : List (BitVec w)) : List Byte := ws.flatMap fun x => i2osp x.toNat n

/-- A SHA-2 function on words of w bits with blocks of 2 * w bytes. -/
def sha2 {w : Nat} (am : ShaAmounts) (ks : List (BitVec w)) (iv : ShaRegs w) (msg : List Byte) : List Byte :=
  let padded := shaPad (2 * w) (w / 4) msg
  bytesOfWords (w / 8) (foldBlocks (shaBlock am ks) (2 * w) (padded.length / (2 * w)) iv padded).words

/-- The five chaining words of SHA-1. -/
structure Sha1Regs where
  a : BitVec 32
  b : BitVec 32
  c : BitVec 32
  d : BitVec 32
  e : BitVec 32
deriving DecidableEq, Repr

/-- `n` words of the SHA-1 message schedule from a window of sixteen (FIPS 180-4 section 6.1.2). -/
def sha1Schedule : Nat → List (BitVec 32) → List (BitVec 32)
  | 0, _ => []
  | n + 1, win =>
    let next := (win.getD 13 0 ^^^ win.getD 8 0 ^^^ win.getD 2 0 ^^^ win.getD 0 0).rotateLeft 1
    win.getD 0 0 :: sha1Schedule n (win.drop 1 ++ [next])

/-- The SHA-1 round function and constant of round t (FIPS 180-4 sections 4.1.1 and 4.2.1). -/
def sha1Mix (t : Nat) (b c d : BitVec 32) : BitVec 32 :=
  if t < 20 then ((b &&& c) ^^^ (~~~b &&& d)) + 0x5a827999
  else if t < 40 then (b ^^^ c ^^^ d) + 0x6ed9eba1
  else if t < 60 then ((b &&& c) ^^^ (b &&& d) ^^^ (c &&& d)) + 0x8f1bbcdc
  else (b ^^^ c ^^^ d) + 0xca62c1d6

/-- One SHA-1 round with its number and its schedule word. -/
def sha1Round (v : Sha1Regs) (tw : Nat × BitVec 32) : Sha1Regs :=
  ⟨v.a.rotateLeft 5 + sha1Mix tw.1 v.b v.c v.d + v.e + tw.2, v.a, v.b.rotateLeft 30, v.c, v.d⟩

/-- One SHA-1 block. -/
def sha1Block (st : Sha1Regs) (block : List Byte) : Sha1Regs :=
  let v := ((List.range 80).zip (sha1Schedule 80 (wordsOf 32 4 16 block))).foldl sha1Round st
  ⟨st.a + v.a, st.b + v.b, st.c + v.c, st.d + v.d, st.e + v.e⟩

/-- The SHA-1 initial value (FIPS 180-4 section 5.3.1). -/
def iv1 : Sha1Regs := ⟨0x67452301, 0xefcdab89, 0x98badcfe, 0x10325476, 0xc3d2e1f0⟩

/-- SHA-1 (FIPS 180-4 section 6.1). -/
def sha1 (msg : List Byte) : List Byte :=
  let padded := shaPad 64 8 msg
  let v := foldBlocks sha1Block 64 (padded.length / 64) iv1 padded
  bytesOfWords 4 [v.a, v.b, v.c, v.d, v.e]

/-- `Hash_s(S)` (rules R13 and R35): `hashLen` bytes. -/
def hash : HashFn → List Byte → List Byte
  | .sha1, msg => sha1 msg
  | .sha256, msg => sha2 sha256Amounts (shaConstants 32 64) (shaInitial 32 0) msg
  | .sha384, msg => (sha2 sha512Amounts (shaConstants 64 80) (shaInitial 64 8) msg).take 48
  | .sha512, msg => sha2 sha512Amounts (shaConstants 64 80) (shaInitial 64 0) msg

/-- `MGF1_s(Z, l)` (rule R13): the hashes of Z with the 4-byte counters 0, 1, ... joined and cut to l bytes. -/
def mgf1 (s : HashFn) (z : List Byte) (l : Nat) : List Byte :=
  ((List.range ((l + hashLen s - 1) / hashLen s)).flatMap fun i => hash s (z ++ c4 i)).take l

end Sys2Proof.Machine
end

