-- ==== Sys2Proof/Machine/Oaep.lean ====
section
/-! DEFINITION. MGF1, OAEP_PAD and OAEP_UNPAD (spec/44_oaep.md). -/

namespace Sys2Proof.Machine

/-- Rule R182's encoded block of message `msg` with label `label`, k bytes long, under the label hash `hs`, the mask
hash `ms` and the seed; for `len(msg) + 2*hLen + 2 <= k`. -/
def oaepEncode (hs ms : HashFn) (k : Nat) (msg label seed : List Byte) : List Byte :=
  let h := hashLen hs
  let db := hash hs label ++ zeros (k - msg.length - 2 * h - 2) ++ [0x01] ++ msg
  let maskedDB := xorBytes db (mgf1 ms seed (k - h - 1))
  let maskedSeed := xorBytes seed (mgf1 ms maskedDB h)
  [0x00] ++ maskedSeed ++ maskedDB

/-- What follows the first nonzero byte of T, if that byte is 0x01 (rule R184). -/
def afterSeparator : List Byte → Option (List Byte)
  | [] => none
  | b :: t => if b = 0x00 then afterSeparator t else if b = 0x01 then some t else none

/-- Rule R184's decoding of the k-byte block `em` with label `label`, for k >= 2*hLen + 2: the message, or `none` for
every structural failure. -/
def oaepDecode (hs ms : HashFn) (k : Nat) (em label : List Byte) : Option (List Byte) :=
  let h := hashLen hs
  let maskedSeed := (em.drop 1).take h
  let maskedDB := em.drop (h + 1)
  let seed := xorBytes maskedSeed (mgf1 ms maskedDB h)
  let db := xorBytes maskedDB (mgf1 ms seed (k - h - 1))
  if em.take 1 = [0x00] ∧ db.take h = hash hs label then afterSeparator (db.drop h) else none

/-- MGF1 (rule R180). -/
def execMgf1 (s : State) : StepOutcome :=
  match s.mgfHash with
  | none => .next (s.raise .illegalOperand)
  | some ms =>
    if s.inRange s.arg0 s.arg1 && s.inRange s.arg4 s.arg5 then
      .next (s.writeBuf s.arg4 (mgf1 ms (s.readBuf s.arg0 s.arg1) s.arg5)).complete
    else .next (s.raise .bufRange)

/-- OAEP_PAD (rule R182). -/
def execOaepPad (s : State) : StepOutcome :=
  match s.labelHash, s.mgfHash with
  | some hs, some ms =>
    let h := hashLen hs
    if s.inRange s.arg0 s.arg1 && s.inRange s.arg2 s.arg3 && s.inRange s.arg4 s.klen then
      if s.klen < s.arg1 + 2 * h + 2 then .next (s.raise .messageTooLong)
      else
        match s.drawBytes h with
        | (none, s') => .next (s'.raise .rngUnavailable)
        | (some seed, s') =>
          .next (s'.writeBuf s.arg4
            (oaepEncode hs ms s.klen (s.readBuf s.arg0 s.arg1) (s.readBuf s.arg2 s.arg3) seed)).complete
    else .next (s.raise .bufRange)
  | _, _ => .next (s.raise .illegalOperand)

/-- OAEP_UNPAD (rule R184): the ranges are checked before the block is decoded, the output range with the largest
possible message length, so that no outcome but DECRYPTION_FAILED depends on the block's contents. -/
def execOaepUnpad (s : State) : StepOutcome :=
  match s.labelHash, s.mgfHash with
  | some hs, some ms =>
    let h := hashLen hs
    if s.inRange s.arg0 s.klen && s.inRange s.arg2 s.arg3 &&
        (decide (s.klen < 2 * h + 2) || s.inRange s.arg4 (s.klen - 2 * h - 2)) then
      if s.klen < 2 * h + 2 then .next (s.raise .decryptionFailed)
      else
        match oaepDecode hs ms s.klen (s.readBuf s.arg0 s.klen) (s.readBuf s.arg2 s.arg3) with
        | none => .next (s.raise .decryptionFailed)
        | some msg => .next ((s.writeBuf s.arg4 msg).setRes (BitVec.ofNat 32 msg.length)).complete
    else .next (s.raise .bufRange)
  | _, _ => .next (s.raise .illegalOperand)

end Sys2Proof.Machine
end

