-- ==== Sys2Proof/Machine/Primality.lean ====
section
/-! DEFINITION. The primality command (spec/43_primality.md). -/

namespace Sys2Proof.Machine

/-- The trial-division set of rule R161, ascending. -/
def State.tdPrimes (s : State) : List Nat := primesUpTo s.params.tdBound

/-- Up to t Miller-Rabin rounds on c (rule R160), one base drawn for each, stopping at the first witness: the verdict, or
`none` where a draw fails, and the state the draws leave. -/
def State.mrRounds (c : Nat) : Nat → State → Option Bool × State
  | 0, s => (some true, s)
  | t + 1, s =>
    match s.drawRange 2 (c - 2) with
    | (none, s') => (none, s')
    | (some a, s') => if mrPasses c a then State.mrRounds c t s' else (some false, s')

/-- ISPRIME's verdict in RES (rule R34): 1 for probably prime, 0 for composite. -/
def verdictWord (prime : Bool) : Word := if prime then 1 else 0

/-- ISPRIME (rule R160). -/
def execIsprime (rs1 : Reg) (s : State) : StepOutcome :=
  let c := s.reg rs1
  if s.rounds = 0 then .next (s.raise .illegalOperand)
  else if c < 2 then .next (s.setRes (verdictWord false)).complete
  else
    match trialDivision c s.tdPrimes with
    | some v => .next (s.setRes (verdictWord v)).complete
    | none =>
      match s.mrRounds c s.rounds with
      | (none, s') => .next (s'.raise .rngUnavailable)
      | (some v, s') => .next (s'.setRes (verdictWord v)).complete

end Sys2Proof.Machine
end

