-- ==== Sys2Proof/Machine/Dispatch.lean ====
section
/-! DEFINITION. What the completion of each command does: one arm per row of the opcode map (rule R73). -/

namespace Sys2Proof.Machine

def exec (i : Instr) (s : State) : Host.Outcome State Fault Refusal :=
  match i with
  | .nop => Sys2Proof.Machine.execNop s
  | .mov rd rs1 => Sys2Proof.Machine.execMov rd rs1 s
  | .ldi rd => Sys2Proof.Machine.execLdi rd s
  | .zeroize => Sys2Proof.Machine.execZeroize s
  | .add rd rs1 rs2 => Sys2Proof.Machine.execAdd rd rs1 rs2 s
  | .sub rd rs1 rs2 => Sys2Proof.Machine.execSub rd rs1 rs2 s
  | .mul rd rs1 rs2 => Sys2Proof.Machine.execMul rd rs1 rs2 s
  | .modred rd rs1 rs2 => Sys2Proof.Machine.execModred rd rs1 rs2 s
  | .modpow rd rs1 rs2 rs3 => Sys2Proof.Machine.execModpow rd rs1 rs2 rs3 s
  | .modinv rd rs1 rs2 => Sys2Proof.Machine.execModinv rd rs1 rs2 s
  | .cmp rs1 rs2 => Sys2Proof.Machine.execCmp rs1 rs2 s
  | .bitlen rs1 => Sys2Proof.Machine.execBitlen rs1 s
  | .frombytes rd => Sys2Proof.Machine.execFrombytes rd s
  | .tobytes rs1 => Sys2Proof.Machine.execTobytes rs1 s
  | .randbits rd => Sys2Proof.Machine.execRandbits rd s
  | .randbitsOdd rd => Sys2Proof.Machine.execRandbitsOdd rd s
  | .isprime rs1 => Sys2Proof.Machine.execIsprime rs1 s
  | .mgf1 => Sys2Proof.Machine.execMgf1 s
  | .oaepPad => Sys2Proof.Machine.execOaepPad s
  | .oaepUnpad => Sys2Proof.Machine.execOaepUnpad s

end Sys2Proof.Machine
end

