-- ==== Sys2Proof/Machine/HostWindow.lean ====
section
/-! DEFINITION. The host window: the CSR map (rule R25), host reads and writes of CSRs and BUF (rules R26 to R39, R50 to
R57), issue (rule R24), and the two resets (rules R260 and R261). -/

namespace Sys2Proof.Machine

/-- The CSRs of rule R25. -/
inductive Csr where
  | id
  | maxbitsR
  | bufszR
  | nregR
  | ctrl
  | status
  | errcode
  | cmd
  | res
  | hashcfg
  | rounds
  | klen
  | arg0
  | arg1
  | arg2
  | arg3
  | arg4
  | arg5
  | ier
deriving DecidableEq, Repr

/-- The CSR map (rule R25): the CSR at an offset of the CSR region, `none` where the offset is unmapped. -/
def csrAt (offset : Nat) : Option Csr :=
  match offset with
  | 0x000 => some .id
  | 0x004 => some .maxbitsR
  | 0x008 => some .bufszR
  | 0x00C => some .nregR
  | 0x010 => some .ctrl
  | 0x014 => some .status
  | 0x018 => some .errcode
  | 0x01C => some .cmd
  | 0x020 => some .res
  | 0x024 => some .hashcfg
  | 0x028 => some .rounds
  | 0x02C => some .klen
  | 0x030 => some .arg0
  | 0x034 => some .arg1
  | 0x038 => some .arg2
  | 0x03C => some .arg3
  | 0x040 => some .arg4
  | 0x044 => some .arg5
  | 0x048 => some .ier
  | _ => none

/-- The constant of the ID register: "MBE", edition 7 (rule R31). -/
def idWord : Word := 0x4D424507

/-- What a legal 32-bit read of a CSR returns (rules R26 and R28 to R39). -/
def readCsr (c : Csr) (s : State) : Word :=
  match c with
  | .id => idWord
  | .maxbitsR => BitVec.ofNat 32 s.params.maxbits
  | .bufszR => BitVec.ofNat 32 s.params.bufsz
  | .nregR => 16
  | .ctrl => 0
  | .status => s.statusWord
  | .errcode => s.errcode.word
  | .cmd => s.cur
  | .res => s.res
  | .hashcfg => s.csr.hashcfg.zeroExtend 32
  | .rounds => s.csr.rounds.zeroExtend 32
  | .klen => s.csr.klen
  | .arg0 => s.csr.arg0
  | .arg1 => s.csr.arg1
  | .arg2 => s.csr.arg2
  | .arg3 => s.csr.arg3
  | .arg4 => s.csr.arg4
  | .arg5 => s.csr.arg5
  | .ier => bitAt s.doneIe 0

/-- STATUS.ACCERR <- 1 (rules R27, R52, R54, R55). -/
def State.accessError (s : State) : State := { s with status := { s.status with accerr := true } }

/-- Both resets (rules R42, R260, R261): every piece of MBE state takes its reset value and any command in flight is
cancelled. The parameters are constants, and the oracle, the pending steps and the bus answer are not MBE state. -/
def State.resetMbe (s : State) : State :=
  { State.reset with params := s.params, agenda := s.agenda, rng := s.rng, draws := s.draws, reply := s.reply }

/-- Issue (rule R24): CUR <- w, SNAP <- the operand CSRs, DONE <- 0, BUSY <- 1. It does not decode w. -/
def State.issue (w : Word) (s : State) : State :=
  { s with cur := w, snap := s.csr, status := { s.status with done := false, busy := true } }

/-- A write to CMD (rules R27 and R30): it issues when idle; when busy it is dropped and sets OVERRUN. -/
def State.writeCmd (w : Word) (s : State) : State :=
  if s.status.busy then { s with status := { s.status with overrun := true } } else s.issue w

/-- A write to an operand CSR (rule R27): it takes effect when idle; when busy it is dropped and sets ACCERR. -/
def State.writeOperand (upd : Operands → Operands) (s : State) : State :=
  if s.status.busy then s.accessError else { s with csr := upd s.csr }

/-- A write to IER (rules R27 and R39). -/
def State.writeIer (w : Word) (s : State) : State :=
  if s.status.busy then s.accessError else { s with doneIe := w.getLsbD 0 }

/-- What a 32-bit write of w to a CSR does (rules R25, R27 to R39). A write to a read-only CSR is ignored. -/
def writeCsr (c : Csr) (w : Word) (s : State) : State :=
  match c with
  | .id => s
  | .maxbitsR => s
  | .bufszR => s
  | .nregR => s
  | .ctrl => if w.getLsbD 0 then s.resetMbe else s
  | .status => { s with status := s.status.writeOneToClear w }
  | .errcode => s
  | .cmd => s.writeCmd w
  | .res => s
  | .hashcfg => s.writeOperand fun o => { o with hashcfg := w.extractLsb' 0 8 }
  | .rounds => s.writeOperand fun o => { o with rounds := w.extractLsb' 0 8 }
  | .klen => s.writeOperand fun o => { o with klen := w }
  | .arg0 => s.writeOperand fun o => { o with arg0 := w }
  | .arg1 => s.writeOperand fun o => { o with arg1 := w }
  | .arg2 => s.writeOperand fun o => { o with arg2 := w }
  | .arg3 => s.writeOperand fun o => { o with arg3 := w }
  | .arg4 => s.writeOperand fun o => { o with arg4 := w }
  | .arg5 => s.writeOperand fun o => { o with arg5 := w }
  | .ier => s.writeIer w

/-- The bus answers w to a read. -/
def State.answer (w : Word) (s : State) : State := { s with reply := .value w }

/-- The bus takes a write. -/
def State.taken (s : State) : State := { s with reply := .written }

/-- A refused access (rule R52): a read returns 0, a write is ignored, either sets ACCERR. -/
def State.refuse (isRead : Bool) (s : State) : State :=
  if isRead then s.accessError.answer 0 else s.accessError.taken

/-- A read in the CSR region (rule R52): 32 bits wide at the offset of a CSR, or refused. -/
def State.csrRead (width : Width) (offset : Nat) (s : State) : State :=
  match width, csrAt offset with
  | .word, some c => s.answer (readCsr c s)
  | _, _ => s.refuse true

/-- A write in the CSR region (rule R52): 32 bits wide at the offset of a CSR, or refused. -/
def State.csrWrite (width : Width) (offset : Nat) (data : Word) (s : State) : State :=
  match width, csrAt offset with
  | .word, some c => (writeCsr c data s).taken
  | _, _ => s.refuse false

/-- The little-endian lanes of a 32-bit BUF read at k (rule R54). -/
def Memory.readLanes (m : Memory) (k : Nat) : Word :=
  m.read (k + 3) ++ m.read (k + 2) ++ m.read (k + 1) ++ m.read k

/-- The little-endian lanes of a 32-bit BUF write at k (rule R54). -/
def lanes (w : Word) : List Byte :=
  [w.extractLsb' 0 8, w.extractLsb' 8 8, w.extractLsb' 16 8, w.extractLsb' 24 8]

/-- A read of the BUF window at BUF offset k (rules R54 and R55). -/
def State.bufRead (width : Width) (k : Nat) (s : State) : State :=
  if s.status.busy then s.refuse true
  else
    match width with
    | .byte => s.answer ((s.buf.read k).zeroExtend 32)
    | .word => if k % 4 = 0 then s.answer (s.buf.readLanes k) else s.refuse true
    | .half => s.refuse true
    | .other => s.refuse true

/-- A write to the BUF window at BUF offset k (rules R54 and R55). -/
def State.bufWrite (width : Width) (k : Nat) (data : Word) (s : State) : State :=
  if s.status.busy then s.refuse false
  else
    match width with
    | .byte => { s with buf := s.buf.write k (data.extractLsb' 0 8) }.taken
    | .word => if k % 4 = 0 then { s with buf := s.buf.writeBytes k (lanes data) }.taken else s.refuse false
    | .half => s.refuse false
    | .other => s.refuse false

/-- Where BUF starts in the window (rule R50). -/
def bufStart : Nat := 0x1000

/-- One past the window's last offset (rules R50 and R57). -/
def State.windowEnd (s : State) : Nat := bufStart + s.params.bufsz

/-- One host access (rules R50, R52, R54, R57): in the CSR region, in the BUF window, or past the window, where it does not
reach the MBE. The region is chosen by the access's first offset (log entry 9). -/
def State.hostAccess (a : Access) (s : State) : State :=
  match a with
  | .read width offset =>
    if offset < bufStart then s.csrRead width offset
    else if offset < s.windowEnd then s.bufRead width (offset - bufStart)
    else { s with reply := .platform }
  | .write width offset data =>
    if offset < bufStart then s.csrWrite width offset data
    else if offset < s.windowEnd then s.bufWrite width (offset - bufStart) data
    else { s with reply := .platform }

/-- The host offset of an address of the host's address space, where the window covers it (rules R50 and R57, log entry 10). -/
def State.windowOffset (s : State) (address : Nat) : Option Nat :=
  if Config.engineBase ≤ address ∧ address < Config.engineBase + s.windowEnd then some (address - Config.engineBase)
  else none

end Sys2Proof.Machine
end

