-- ==== Sys2Proof/Machine/Engine.lean ====
section
/-! DEFINITION. The engine's step, completion (rule R24), and the order of the pending steps (rules R59 and R260; log entry 2). -/

namespace Sys2Proof.Machine

/-- Completion (rules R24, R75 and R235): CUR is decoded and its command's rule executed; an illegal word raises
ILLEGAL_COMMAND and writes nothing else. -/
def State.completion (s : State) : StepOutcome :=
  match decode s.cur with
  | .ok i => exec i s
  | .error _ => .next (s.raise .illegalCommand)

/-- The engine's turn (rule R24): completion is enabled exactly when BUSY = 1; an idle engine keeps every value (rule R255). -/
def State.engineTurn (s : State) : StepOutcome := if s.status.busy then s.completion else .next s

/-- One pending step. -/
def State.perform (e : Event) (s : State) : StepOutcome :=
  match e with
  | .host a => .next (s.hostAccess a)
  | .engine => s.engineTurn
  | .hardReset => .next s.resetMbe

/-- The next step of the total order (rule R59): the first pending one, or the engine's turn where none is pending, so that
an issued command completes after finitely many steps (rule R270; log entries 2 and 15). -/
def State.advance (s : State) : StepOutcome :=
  match s.agenda with
  | [] => s.engineTurn
  | e :: rest => State.perform e { s with agenda := rest }

/-- The pending steps with the engine's turn made the next one. -/
def engineNext (agenda : List Event) : List Event :=
  match agenda with
  | [] => []
  | e :: rest => .engine :: e :: rest

end Sys2Proof.Machine
end

