-- ==== Sys2Proof/Machine/Step.lean ====
section
/-! DEFINITION. The step of the machine, and placing a command where the next step runs it. -/

namespace Sys2Proof.Machine

/-- One atomic step (rules R16, R24, R59). A configuration that breaks rule R8 does not describe an MBE and is refused. -/
def step (s : State) : Host.Outcome State Fault Refusal :=
  if s.params.legal then s.advance else .refused .notAnMbe

/-- `s` with the command word issued (rule R24) and the engine's turn next, so that the very next step completes that
command (log entry 3). -/
def State.withFetchWord (s : State) (nbits w : Nat) : State :=
  { s.issue (tableWord nbits w) with agenda := engineNext s.agenda }

end Sys2Proof.Machine
end

