-- ==== Sys2Proof/Safety.lean ====
section
/-! DEFINITION. The terms the claims use: the invariant of the machine, what the completion of a command may and may not
change, and the spec's own formulas for byte strings and Miller-Rabin rounds, written without the model's algorithms. -/

namespace Sys2Proof.Machine

/-- What holds of every state an MBE can be in. -/
structure State.Inv (s : State) : Prop where
  /-- The configuration describes an MBE (rule R8). -/
  legal : s.params.legal = true
  /-- Every register holds a natural below 2^MAXBITS (rule R20). -/
  regs : ∀ r : Reg, s.reg r < 2 ^ s.params.maxbits
  /-- BUF is in canonical form. -/
  bufCanonical : s.buf.wf = true
  /-- BUF has only BUFSZ bytes (rule R50). -/
  bufWithin : s.buf.within s.params.bufsz = true
  /-- While a command is in flight, SNAP equals the live operand CSRs (rule R23). -/
  snapLive : s.status.busy = true → s.snap = s.csr
  /-- While a command is in flight, DONE is 0 (rule R24). -/
  busyNotDone : s.status.busy = true → s.status.done = false
  /-- The engine never writes a code reserved for host software (rule R231). -/
  engineCode : s.errcode.hostOnly = false

/-- The state of s after a command that failed with a code other than RNG_UNAVAILABLE (rule R235): ERRCODE, DONE and BUSY
are written, and nothing else changes. -/
def State.afterError (e : ErrCode) (s : State) : State :=
  { s with errcode := e, status := { s.status with done := true, busy := false } }

/-- The state of s after a command that failed with RNG_UNAVAILABLE (rules R234 and R235), the oracle's history being
`rng` and `draws` afterwards. -/
def State.afterRngError (rng : List RngAnswer) (draws : Nat) (s : State) : State :=
  { s with
    errcode := .rngUnavailable
    status := { s.status with done := true, busy := false, rngf := true }
    rng := rng
    draws := draws }

/-- What no command's completion changes: the parameters, CUR, the operand CSRs and their snapshot, IER, the pending
steps and the bus answer. -/
structure KeepsHostState (s t : State) : Prop where
  params : t.params = s.params
  cur : t.cur = s.cur
  csr : t.csr = s.csr
  snap : t.snap = s.snap
  doneIe : t.doneIe = s.doneIe
  agenda : t.agenda = s.agenda
  reply : t.reply = s.reply

/-- The success status (rule R24): ERRCODE <- 0, DONE <- 1, BUSY <- 0, the sticky STATUS bits as they were. -/
structure EndsOk (s t : State) : Prop where
  errcode : t.errcode = .ok
  done : t.status.done = true
  busy : t.status.busy = false
  overrun : t.status.overrun = s.status.overrun
  accerr : t.status.accerr = s.status.accerr
  rngf : t.status.rngf = s.status.rngf

/-- No register changed. -/
def KeepsRegs (s t : State) : Prop := ∀ r : Reg, t.reg r = s.reg r

/-- No byte of BUF changed. -/
def KeepsBuf (s t : State) : Prop := ∀ a : Nat, t.buf.read a = s.buf.read a

/-- No draw was made (rule R148). -/
def NoDraw (s t : State) : Prop := t.rng = s.rng ∧ t.draws = s.draws

/-- A successful command whose only result is x[rd] = v: every other register, every byte of BUF and RES are unchanged. The
oracle's history is not spoken of. -/
structure WritesReg (rd : Reg) (v : Nat) (s t : State) : Prop where
  dest : t.reg rd = v
  others : ∀ r : Reg, r ≠ rd → t.reg r = s.reg r
  buf : KeepsBuf s t
  res : t.res = s.res
  ends : EndsOk s t
  host : KeepsHostState s t

/-- A successful command whose only result is RES = w. The oracle's history is not spoken of. -/
structure WritesRes (w : Word) (s t : State) : Prop where
  dest : t.res = w
  regs : KeepsRegs s t
  buf : KeepsBuf s t
  ends : EndsOk s t
  host : KeepsHostState s t

/-- A successful command that stores the byte string `bytes` at BUF offset a and leaves every other byte, every register
and the host's state as they were. RES and the oracle's history are not spoken of. -/
structure WritesBuf (a : Nat) (bytes : List Byte) (s t : State) : Prop where
  stored : ∀ i : Nat, ∀ h : i < bytes.length, t.buf.read (a + i) = bytes[i]
  others : ∀ b : Nat, b < a ∨ a + bytes.length ≤ b → t.buf.read b = s.buf.read b
  regs : KeepsRegs s t
  ends : EndsOk s t
  host : KeepsHostState s t

/-- `BE(BUF[a..a+n))` as rule R10's sum. -/
def beSum (s : State) (a n : Nat) : Nat :=
  ∑ i ∈ Finset.range n, (s.buf.read (a + i)).toNat * 256 ^ (n - 1 - i)

/-- Rule R162's round as a property: a is no witness against c. -/
def NoWitness (c a : Nat) : Prop :=
  ∃ s d : Nat, d % 2 = 1 ∧ c - 1 = 2 ^ s * d ∧
    (a ^ d % c = 1 ∨ a ^ d % c = c - 1 ∨ ∃ j : Nat, 1 ≤ j ∧ j < s ∧ a ^ (d * 2 ^ j) % c = c - 1)

/-- The values of rule R42, as software reads them. -/
structure ResetValues (t : State) : Prop where
  regs : ∀ r : Reg, t.reg r = 0
  buf : ∀ a : Nat, t.buf.read a = 0
  status : t.statusWord = 0
  idle : t.status.busy = false
  errcode : readCsr .errcode t = 0
  cmd : readCsr .cmd t = 0
  res : readCsr .res t = 0
  hashcfg : readCsr .hashcfg t = 0x00000011
  rounds : readCsr .rounds t = 40
  klen : readCsr .klen t = 0
  args : readCsr .arg0 t = 0 ∧ readCsr .arg1 t = 0 ∧ readCsr .arg2 t = 0 ∧ readCsr .arg3 t = 0 ∧
    readCsr .arg4 t = 0 ∧ readCsr .arg5 t = 0
  ier : readCsr .ier t = 0
  ident : readCsr .id t = 0x4D424507
  maxbitsR : readCsr .maxbitsR t = BitVec.ofNat 32 t.params.maxbits
  bufszR : readCsr .bufszR t = BitVec.ofNat 32 t.params.bufsz
  nregR : readCsr .nregR t = 16
  irq : t.irq = false

/-- The oracle's next answers are the naturals of `ns`, in order, and then those of `rest`. -/
def State.willDraw (s : State) (ns : List Nat) (rest : List RngAnswer) : Prop := s.rng = ns.map RngAnswer.value ++ rest

end Sys2Proof.Machine
end

