-- ==== Sys2Proof/Certificates/Slice0/Obligations.lean ====
section
/-! DEFINITION. The statements for the provers: what the rules of spec/ say the MBE does. `State.agenda`
(which step comes next), `State.reply` (what the bus answered) and `State.rng` with `State.draws` (the oracle's answers) are the
model's own fields (log entries 2, 7, 4 and 5): a statement that places a step, reads an answer or fixes a draw speaks through
them. -/

open Sys2Proof Sys2Proof.Machine

/-! ### Encoding -/

/-- Rules R70 and R73: every command's word decodes to that command, every operand kept. -/
def Obligations.DecodeOfEncodeIsTheCommand : Prop :=
  ∀ i : Instr, decode (encode i) = .ok i

/-- Rules R70, R73 and R75: a legal word is the word of the command it decodes to, so no two words mean one command. -/
def Obligations.EncodeOfDecodeIsTheWord : Prop :=
  ∀ (w : Word) (i : Instr), decode w = .ok i → encode i = w

/-- Rules R75 and R76: decode answers a command exactly on the legal words; the reserved opcodes are illegal; only the
word 0 is NOP; and the completion of an illegal word raises ILLEGAL_COMMAND and writes nothing else. Which steps are the
completion is EngineTurnRunsTheIssuedCommand. -/
def Obligations.IllegalWordsRaiseIllegalCommand : Prop :=
  (∀ w : Word, (∃ i, decode w = .ok i) ↔ legalWord w = true) ∧
  (∀ w : Word,
    let op := (w.extractLsb' 0 8).toNat
    ((0x04 ≤ op ∧ op ≤ 0x0F) ∨ (0x18 ≤ op ∧ op ≤ 0x1F) ∨ (0x23 ≤ op ∧ op ≤ 0x2F) ∨ (0x31 ≤ op ∧ op ≤ 0x3F) ∨ 0x43 ≤ op) →
    legalWord w = false) ∧
  (∀ w : Word, decode w = .ok .nop → w = 0) ∧
  ∀ s : State, legalWord s.cur = false → s.completion = .next (s.afterError .illegalCommand)

/-- Rule R73: a word selects a row of the opcode table iff (w AND mask) = match. -/
def Obligations.WordSelectsExactlyItsTableRow : Prop :=
  ∀ row ∈ opcodeRows, ∀ w : Word,
    (∃ i, decode w = .ok i ∧ i.mnemonic = row.mnemonic) ↔ w &&& row.mask = row.pattern

/-- Words written out from the format of rule R70 (and listed in 95_test_vectors.md section 2) decode as the spec says. -/
def Obligations.EncodingVectorsDecode : Prop :=
  decode 0x00002501 = .ok (.mov 5 2) ∧ decode 0x00124514 = .ok (.modpow 5 4 2 1) ∧
  decode 0x00046016 = .ok (.cmp 6 4) ∧ decode 0x01000122 = .ok (.randbitsOdd 1) ∧
  decode 0x00005021 = .ok (.tobytes 5) ∧ decode 0x00000042 = .ok .oaepUnpad ∧
  decode 0x02000010 = .error .reservedBits ∧ decode 0x00000116 = .error .unusedField ∧
  decode 0x00000023 = .error .unknownOpcode

/-! ### Steps -/

/-- Rule R24: while BUSY = 1 the engine's turn is the completion of CUR, and the completion of a word that decodes
executes its command. With no step pending the turn is the engine's (the model's order, log entry 2). -/
def Obligations.EngineTurnRunsTheIssuedCommand : Prop :=
  (∀ (s : State) (i : Instr), s.params.legal = true → s.status.busy = true → decode s.cur = .ok i →
    (s.agenda = [] → step s = exec i s) ∧
    ∀ rest, s.agenda = .engine :: rest → step s = exec i { s with agenda := rest }) ∧
  ∀ s : State, s.params.legal = true → s.status.busy = true →
    (s.agenda = [] → step s = s.completion) ∧
    ∀ rest, s.agenda = .engine :: rest → step s = ({ s with agenda := rest } : State).completion

/-- Rules R59 and R255: a pending host access is one step; an idle engine keeps every value. The pending steps are the model's
own field (log entry 2). -/
def Obligations.HostStepsAndIdleTurns : Prop :=
  ∀ s : State, s.params.legal = true →
    (∀ a rest, s.agenda = .host a :: rest → step s = .next (State.hostAccess a { s with agenda := rest })) ∧
    (s.status.busy = false → s.agenda = [] → step s = .next s) ∧
    (s.status.busy = false → ∀ rest, s.agenda = .engine :: rest → step s = .next { s with agenda := rest })

/-- Rule R8: the machine is refused iff its configuration breaks one of the constraints. -/
def Obligations.ExactlyTheIllegalConfigurationsAreRefused : Prop :=
  ∀ s : State, step s = .refused .notAnMbe ↔
    ¬ (64 ∣ s.params.maxbits ∧ 64 ≤ s.params.maxbits ∧ s.params.maxbits ≤ 2 ^ 24 ∧
       4 ∣ s.params.bufsz ∧ 256 ≤ s.params.bufsz ∧ s.params.bufsz ≤ 2 ^ 24 ∧ 3 ≤ s.params.tdBound)

/-! ### Reset -/

/-- Rules R42 and R260: after a hardware reset, and in State.reset, every piece of state has its stated value; the command in
flight is cancelled; the oracle's history is untouched. -/
def Obligations.HardwareResetLeavesTheStatedValues : Prop :=
  ResetValues State.reset ∧
  ∀ (s : State) (rest : List Event), s.params.legal = true → s.agenda = .hardReset :: rest →
    ∃ t, step s = .next t ∧ ResetValues t ∧ t.params = s.params ∧ t.rng = s.rng ∧ t.draws = s.draws ∧ t.agenda = rest

/-- Rules R33 and R261: a write of 1 to CTRL.SRST has the effect of the hardware reset, busy or not; the other bits of a CTRL
write are ignored; CTRL reads 0. -/
def Obligations.SoftResetEqualsHardwareReset : Prop :=
  ∀ (s : State) (w : Word),
    (w.getLsbD 0 = true → ∃ t, State.hostAccess (.write .word 0x010 w) s = t ∧ ResetValues t ∧ t.params = s.params ∧
      t.rng = s.rng ∧ t.draws = s.draws ∧ t.agenda = s.agenda ∧
      ∀ rest, s.params.legal = true → s.agenda = .hardReset :: rest →
        step s = .next { t with agenda := rest, reply := s.reply }) ∧
    (w.getLsbD 0 = false → State.hostAccess (.write .word 0x010 w) s = { s with reply := .written }) ∧
    State.hostAccess (.read .word 0x010) s = { s with reply := .value 0 }

/-! ### The host window -/

/-- Rule R30 with rule R24's issue and rule R27: a CMD write issues when idle, is dropped when busy, and CMD reads CUR. -/
def Obligations.CmdIssuesWhenIdleAndDropsWhenBusy : Prop :=
  ∀ (s : State) (w : Word),
    (s.status.busy = false → State.hostAccess (.write .word 0x01C w) s =
      { s with cur := w, snap := s.csr, status := { s.status with done := false, busy := true }, reply := .written }) ∧
    (s.status.busy = true → State.hostAccess (.write .word 0x01C w) s =
      { s with status := { s.status with overrun := true }, reply := .written }) ∧
    State.hostAccess (.read .word 0x01C) s = { s with reply := .value s.cur } ∧ State.reset.cur = 0

/-- Rules R27, R55 and R271: while BUSY = 1 a write to an operand CSR or IER is dropped with ACCERR, every access to the BUF
window is refused with ACCERR, and STATUS's W1C bits still clear. -/
def Obligations.BusyEngineDropsOperandAndBufAccesses : Prop :=
  ∀ s : State, s.status.busy = true →
    (∀ (w : Word), ∀ offset ∈ [0x024, 0x028, 0x02C, 0x030, 0x034, 0x038, 0x03C, 0x040, 0x044, 0x048],
      State.hostAccess (.write .word offset w) s =
        { s with status := { s.status with accerr := true }, reply := .written }) ∧
    (∀ (width : Width) (k : Nat), k < s.params.bufsz →
      State.hostAccess (.read width (0x1000 + k)) s =
        { s with status := { s.status with accerr := true }, reply := .value 0 } ∧
      ∀ w : Word, State.hostAccess (.write width (0x1000 + k) w) s =
        { s with status := { s.status with accerr := true }, reply := .written }) ∧
    ∀ w : Word, State.hostAccess (.write .word 0x014 w) s =
      { s with
        status := { s.status with
          done := s.status.done && !w.getLsbD 1
          overrun := s.status.overrun && !w.getLsbD 3
          accerr := s.status.accerr && !w.getLsbD 4 }
        reply := .written }

/-- Rules R25 and R35 to R39: an idle write to an operand CSR or IER is read back in the bits the rules name, the reserved
bits read 0, and every other CSR reads as before; no register and no byte of BUF changes. That SNAP, which rule R23 speaks
of only while a command is in flight, keeps its value here is the model's own (log entry 6). -/
def Obligations.IdleOperandWritesReadBack : Prop :=
  ∀ (s : State) (w : Word), s.status.busy = false →
    ∀ p ∈ ([(0x024, 0xFF), (0x028, 0xFF), (0x02C, 0xFFFFFFFF), (0x030, 0xFFFFFFFF), (0x034, 0xFFFFFFFF),
      (0x038, 0xFFFFFFFF), (0x03C, 0xFFFFFFFF), (0x040, 0xFFFFFFFF), (0x044, 0xFFFFFFFF), (0x048, 1)] : List (Nat × Word)),
      let t := State.hostAccess (.write .word p.1 w) s
      (State.hostAccess (.read .word p.1) t).reply = .value (w &&& p.2) ∧
      (∀ offset, offset ≠ p.1 → offset < 0x1000 →
        (State.hostAccess (.read .word offset) t).reply = (State.hostAccess (.read .word offset) s).reply) ∧
      KeepsRegs s t ∧ KeepsBuf s t ∧ t.snap = s.snap

/-- Rule R28: STATUS's fields as read, and its W1C writes. -/
def Obligations.StatusFieldsReadAndClear : Prop :=
  ∀ s : State,
    State.hostAccess (.read .word 0x014) s = { s with reply := .value s.statusWord } ∧
    s.statusWord.getLsbD 0 = s.status.busy ∧ s.statusWord.getLsbD 1 = s.status.done ∧
    s.statusWord.getLsbD 2 = decide (s.errcode ≠ .ok) ∧ s.statusWord.getLsbD 3 = s.status.overrun ∧
    s.statusWord.getLsbD 4 = s.status.accerr ∧ s.statusWord.getLsbD 5 = s.status.rngf ∧
    (∀ i, 6 ≤ i → s.statusWord.getLsbD i = false) ∧
    ∀ w : Word, let t := State.hostAccess (.write .word 0x014 w) s
      t.statusWord = s.statusWord &&& ~~~(w &&& 0x1A) ∧ t = { s with status := t.status, reply := .written }

/-- Rules R25, R26 and R29 to R39: the CSR map. A 32-bit read of a mapped CSR returns its value and changes nothing else, busy
or not; a write to a read-only CSR is ignored. -/
def Obligations.CsrMapReadsAndReadOnlyWrites : Prop :=
  ∀ s : State,
    (∀ p ∈ ([(0x000, 0x4D424507), (0x004, BitVec.ofNat 32 s.params.maxbits), (0x008, BitVec.ofNat 32 s.params.bufsz),
        (0x00C, 16), (0x010, 0), (0x014, s.statusWord), (0x018, s.errcode.code.zeroExtend 32), (0x01C, s.cur),
        (0x020, s.res), (0x024, s.csr.hashcfg.zeroExtend 32), (0x028, s.csr.rounds.zeroExtend 32), (0x02C, s.csr.klen),
        (0x030, s.csr.arg0), (0x034, s.csr.arg1), (0x038, s.csr.arg2), (0x03C, s.csr.arg3), (0x040, s.csr.arg4),
        (0x044, s.csr.arg5), (0x048, if s.doneIe then 1 else 0)] : List (Nat × Word)),
      State.hostAccess (.read .word p.1) s = { s with reply := .value p.2 }) ∧
    ∀ w : Word, ∀ offset ∈ [0x000, 0x004, 0x008, 0x00C, 0x018, 0x020],
      State.hostAccess (.write .word offset w) s = { s with reply := .written }

/-- Rule R52: an access to the CSR region that is not 32 bits wide, is misaligned, or is at an unmapped offset is refused:
a read returns 0, a write is ignored, either sets ACCERR. No other read there is refused. No other write there sets
ACCERR, but for a write to an operand CSR or IER while BUSY = 1, which is dropped with ACCERR (rule R27). -/
def Obligations.IllegalCsrAccessesAreRefused : Prop :=
  ∀ (s : State) (width : Width) (offset : Nat), offset < 0x1000 →
    ((width ≠ .word ∨ offset % 4 ≠ 0 ∨ 0x048 < offset) →
      State.hostAccess (.read width offset) s =
        { s with status := { s.status with accerr := true }, reply := .value 0 } ∧
      ∀ w : Word, State.hostAccess (.write width offset w) s =
        { s with status := { s.status with accerr := true }, reply := .written }) ∧
    ((width = .word ∧ offset % 4 = 0 ∧ offset ≤ 0x048) →
      (∃ v, State.hostAccess (.read width offset) s = { s with reply := .value v }) ∧
      ∀ w : Word, let t := State.hostAccess (.write width offset w) s
        t.reply = .written ∧
        (s.status.busy = true ∧ 0x024 ≤ offset →
          t = { s with status := { s.status with accerr := true }, reply := .written }) ∧
        (¬ (s.status.busy = true ∧ 0x024 ≤ offset) → t.status.accerr = true → s.status.accerr = true))

/-- Rule R54: while BUSY = 0, 8-bit accesses reach one byte of BUF and aligned 32-bit accesses four bytes in little-endian
lanes; a 16-bit access or a misaligned 32-bit access is refused. That an access of any other width is refused too is log
entry 9, and that an 8-bit access carries its byte in the data's low bits, zero-extended when read, is log entry 23. -/
def Obligations.BufAccessesUseLittleEndianLanes : Prop :=
  ∀ (s : State) (k : Nat), s.status.busy = false → s.buf.wf = true → s.params.bufsz % 4 = 0 → k < s.params.bufsz →
    State.hostAccess (.read .byte (0x1000 + k)) s = { s with reply := .value ((s.buf.read k).zeroExtend 32) } ∧
    (∀ w : Word, ∃ t, State.hostAccess (.write .byte (0x1000 + k) w) s = t ∧ t = { s with buf := t.buf, reply := .written } ∧
      t.buf.read k = w.extractLsb' 0 8 ∧ ∀ b, b ≠ k → t.buf.read b = s.buf.read b) ∧
    (k % 4 = 0 →
      (∃ v : Word, State.hostAccess (.read .word (0x1000 + k)) s = { s with reply := .value v } ∧
        v.toNat = (s.buf.read k).toNat + 256 * (s.buf.read (k + 1)).toNat + 65536 * (s.buf.read (k + 2)).toNat +
          16777216 * (s.buf.read (k + 3)).toNat) ∧
      ∀ w : Word, ∃ t, State.hostAccess (.write .word (0x1000 + k) w) s = t ∧ t = { s with buf := t.buf, reply := .written } ∧
        t.buf.read k = w.extractLsb' 0 8 ∧ t.buf.read (k + 1) = w.extractLsb' 8 8 ∧
        t.buf.read (k + 2) = w.extractLsb' 16 8 ∧ t.buf.read (k + 3) = w.extractLsb' 24 8 ∧
        (∀ b, b < k ∨ k + 4 ≤ b → t.buf.read b = s.buf.read b) ∧
        (State.hostAccess (.read .word (0x1000 + k)) t).reply = .value w) ∧
    ∀ width : Width, (width = .half ∨ width = .other ∨ (width = .word ∧ k % 4 ≠ 0)) →
      State.hostAccess (.read width (0x1000 + k)) s =
        { s with status := { s.status with accerr := true }, reply := .value 0 } ∧
      ∀ w : Word, State.hostAccess (.write width (0x1000 + k) w) s =
        { s with status := { s.status with accerr := true }, reply := .written }

/-- Rule R57: an access at or above 0x1000 + BUFSZ does not reach the MBE: nothing of the MBE changes, only the bus answer
(the model's own field, log entry 7) says so. -/
def Obligations.AccessesPastTheWindowChangeNothing : Prop :=
  ∀ (s : State) (width : Width) (offset : Nat) (w : Word), 0x1000 + s.params.bufsz ≤ offset →
    State.hostAccess (.read width offset) s = { s with reply := .platform } ∧
    State.hostAccess (.write width offset w) s = { s with reply := .platform }

/-- Rule R237: a host access that raises OVERRUN or ACCERR changes neither ERRCODE nor DONE and raises no interrupt. -/
def Obligations.HostAccessEventsAreNotCommandErrors : Prop :=
  ∀ (s : State) (a : Access), let t := State.hostAccess a s
    ((s.status.overrun = false ∧ t.status.overrun = true) ∨ (s.status.accerr = false ∧ t.status.accerr = true)) →
    t.errcode = s.errcode ∧ t.status.done = s.status.done ∧ t.irq = s.irq

/-- Rules R39 and R240: IRQ is DONE AND DONE_IE; every completion, of a command or of an illegal word, drives it to
DONE_IE; writing 1 to STATUS.DONE or issuing the next command lowers it; an idle write to IER masks or unmasks it. That it
drives the interrupt controller's input IRQ_ROUTE and no other is the model's form of the open routing (log entry 10). -/
def Obligations.InterruptLineFollowsDoneAndEnable : Prop :=
  ∀ s : State,
    (s.irq = true ↔ s.status.done = true ∧ s.doneIe = true) ∧
    (∃ t, s.completion = .next t ∧ t.irq = s.doneIe) ∧
    (∀ i t, exec i s = .next t → t.irq = s.doneIe) ∧
    (∀ w : Word, w.getLsbD 1 = true → (State.hostAccess (.write .word 0x014 w) s).irq = false) ∧
    (s.status.busy = false → ∀ w : Word, (State.hostAccess (.write .word 0x01C w) s).irq = false) ∧
    (s.status.busy = false → ∀ w : Word,
      (State.hostAccess (.write .word 0x048 w) s).irq = (s.status.done && w.getLsbD 0)) ∧
    ∀ n, s.irqInput n = true ↔ n = Config.irqRoute ∧ s.irq = true

/-! ### Engine control -/

/-- Rules R210 and R211: NOP changes only the status; MOV copies x[rs1] to x[rd]. -/
def Obligations.NopAndMovComplete : Prop :=
  ∀ (rd rs1 : Reg) (s : State),
    opOf (encode .nop) = 0x00 ∧ opOf (encode (.mov rd rs1)) = 0x01 ∧
    (∃ t, exec .nop s = .next t ∧ KeepsRegs s t ∧ KeepsBuf s t ∧ t.res = s.res ∧ EndsOk s t ∧ KeepsHostState s t ∧ NoDraw s t) ∧
    ∃ t, exec (.mov rd rs1) s = .next t ∧ WritesReg rd (s.reg rs1) s t ∧ NoDraw s t

/-- Rule R212: LDI loads ARG5 as at issue, zero-extended. -/
def Obligations.LdiLoadsArg5ZeroExtended : Prop :=
  ∀ (rd : Reg) (s : State), opOf (encode (.ldi rd)) = 0x02 ∧
    ∃ t, exec (.ldi rd) s = .next t ∧ WritesReg rd s.snap.arg5.toNat s t ∧ NoDraw s t

/-- Rule R213: ZEROIZE clears x0 to x15, all of BUF and RES, and keeps everything else but the standard status. -/
def Obligations.ZeroizeClearsSecretState : Prop :=
  ∀ s : State, opOf (encode .zeroize) = 0x03 ∧
    ∃ t, exec .zeroize s = .next t ∧ (∀ r : Reg, t.reg r = 0) ∧ (∀ a, t.buf.read a = 0) ∧ t.res = 0 ∧
      EndsOk s t ∧ KeepsHostState s t ∧ NoDraw s t

/-! ### Arithmetic -/

/-- Rules R100 and R104: ADD and MUL give the exact natural result, or CAPACITY when it needs more than MAXBITS bits. -/
def Obligations.AddAndMulAreExactOrCapacity : Prop :=
  ∀ (rd rs1 rs2 : Reg) (s : State),
    opOf (encode (.add rd rs1 rs2)) = 0x10 ∧ opOf (encode (.mul rd rs1 rs2)) = 0x12 ∧
    (s.reg rs1 + s.reg rs2 < 2 ^ s.params.maxbits →
      ∃ t, exec (.add rd rs1 rs2) s = .next t ∧ WritesReg rd (s.reg rs1 + s.reg rs2) s t ∧ NoDraw s t) ∧
    (2 ^ s.params.maxbits ≤ s.reg rs1 + s.reg rs2 → exec (.add rd rs1 rs2) s = .next (s.afterError .capacity)) ∧
    (s.reg rs1 * s.reg rs2 < 2 ^ s.params.maxbits →
      ∃ t, exec (.mul rd rs1 rs2) s = .next t ∧ WritesReg rd (s.reg rs1 * s.reg rs2) s t ∧ NoDraw s t) ∧
    (2 ^ s.params.maxbits ≤ s.reg rs1 * s.reg rs2 → exec (.mul rd rs1 rs2) s = .next (s.afterError .capacity))

/-- Rule R102: SUB gives the difference, or UNDERFLOW iff x[rs1] < x[rs2]. -/
def Obligations.SubIsExactOrUnderflow : Prop :=
  ∀ (rd rs1 rs2 : Reg) (s : State), opOf (encode (.sub rd rs1 rs2)) = 0x11 ∧
    (∀ d : Nat, s.reg rs2 + d = s.reg rs1 →
      ∃ t, exec (.sub rd rs1 rs2) s = .next t ∧ WritesReg rd d s t ∧ NoDraw s t) ∧
    (s.reg rs1 < s.reg rs2 → exec (.sub rd rs1 rs2) s = .next (s.afterError .underflow))

/-- Rule R106: MODRED gives the remainder, or DIV_BY_ZERO iff the modulus is 0. -/
def Obligations.ModredGivesTheRemainder : Prop :=
  ∀ (rd rs1 rs2 : Reg) (s : State), opOf (encode (.modred rd rs1 rs2)) = 0x13 ∧
    (∀ q r : Nat, s.reg rs1 = q * s.reg rs2 + r → r < s.reg rs2 →
      ∃ t, exec (.modred rd rs1 rs2) s = .next t ∧ WritesReg rd r s t ∧ NoDraw s t) ∧
    (s.reg rs2 = 0 → exec (.modred rd rs1 rs2) s = .next (s.afterError .divByZero))

/-- Rule R108: MODPOW gives (a ^ e) mod n, with a ^ 0 = 1 for every a, or DIV_BY_ZERO iff n = 0. -/
def Obligations.ModpowGivesTheModularPower : Prop :=
  ∀ (rd rs1 rs2 rs3 : Reg) (s : State), opOf (encode (.modpow rd rs1 rs2 rs3)) = 0x14 ∧
    (s.reg rs3 ≠ 0 → ∃ t, exec (.modpow rd rs1 rs2 rs3) s = .next t ∧
      WritesReg rd (s.reg rs1 ^ s.reg rs2 % s.reg rs3) s t ∧ NoDraw s t) ∧
    (s.reg rs3 = 0 → exec (.modpow rd rs1 rs2 rs3) s = .next (s.afterError .divByZero))

/-- Rule R110: MODINV gives the unique inverse in [0, n), NOT_INVERTIBLE iff n > 0 and gcd(a, n) != 1, DIV_BY_ZERO iff n = 0. -/
def Obligations.ModinvGivesTheUniqueInverse : Prop :=
  ∀ (rd rs1 rs2 : Reg) (s : State), opOf (encode (.modinv rd rs1 rs2)) = 0x15 ∧
    (s.reg rs2 ≠ 0 → Nat.gcd (s.reg rs1) (s.reg rs2) = 1 →
      ∃ t y, exec (.modinv rd rs1 rs2) s = .next t ∧ WritesReg rd y s t ∧ NoDraw s t ∧
        y < s.reg rs2 ∧ s.reg rs1 * y % s.reg rs2 = 1 % s.reg rs2 ∧
        ∀ z, z < s.reg rs2 → s.reg rs1 * z % s.reg rs2 = 1 % s.reg rs2 → z = y) ∧
    (s.reg rs2 ≠ 0 → Nat.gcd (s.reg rs1) (s.reg rs2) ≠ 1 →
      exec (.modinv rd rs1 rs2) s = .next (s.afterError .notInvertible)) ∧
    (s.reg rs2 = 0 → exec (.modinv rd rs1 rs2) s = .next (s.afterError .divByZero))

/-- Rule R112: CMP writes -1, 0 or +1 to RES as a 32-bit two's-complement pattern. -/
def Obligations.CmpOrdersTheRegisters : Prop :=
  ∀ (rs1 rs2 : Reg) (s : State), opOf (encode (.cmp rs1 rs2)) = 0x16 ∧
    ∃ t w, exec (.cmp rs1 rs2) s = .next t ∧ WritesRes w s t ∧ NoDraw s t ∧
      (s.reg rs1 < s.reg rs2 → w.toInt = -1) ∧ (s.reg rs1 = s.reg rs2 → w.toInt = 0) ∧ (s.reg rs2 < s.reg rs1 → w.toInt = 1)

/-- Rule R114: BITLEN writes the least k with x[rs1] < 2^k to RES; for a register of an MBE it fits there. -/
def Obligations.BitlenIsTheLeastExponent : Prop :=
  ∀ (rs1 : Reg) (s : State), opOf (encode (.bitlen rs1)) = 0x17 ∧
    ∃ t k, exec (.bitlen rs1) s = .next t ∧ WritesRes (BitVec.ofNat 32 k) s t ∧ NoDraw s t ∧
      s.reg rs1 < 2 ^ k ∧ (∀ j, s.reg rs1 < 2 ^ j → k ≤ j) ∧ (s.Inv → t.res.toNat = k)

/-! ### Bytes and random integers -/

/-- Rule R140: FROMBYTES reads BE(BUF[ARG0..ARG0+ARG1)), or raises BUF_RANGE or CAPACITY. -/
def Obligations.FrombytesReadsBigEndian : Prop :=
  ∀ (rd : Reg) (s : State), opOf (encode (.frombytes rd)) = 0x20 ∧
    let off := s.snap.arg0.toNat
    let n := s.snap.arg1.toNat
    (off + n ≤ s.params.bufsz → beSum s off n < 2 ^ s.params.maxbits →
      ∃ t, exec (.frombytes rd) s = .next t ∧ WritesReg rd (beSum s off n) s t ∧ NoDraw s t) ∧
    (off + n ≤ s.params.bufsz → 2 ^ s.params.maxbits ≤ beSum s off n →
      exec (.frombytes rd) s = .next (s.afterError .capacity)) ∧
    (s.params.bufsz < off + n → exec (.frombytes rd) s = .next (s.afterError .bufRange))

/-- Rule R142: TOBYTES stores x[rs1] in k = max(ARG5, bytelen) big-endian bytes at ARG4, RES = k, or raises BUF_RANGE. The
byte length is the least k with x[rs1] < 256^k (rule R9). -/
def Obligations.TobytesStoresBigEndian : Prop :=
  ∀ (rs1 : Reg) (s : State) (len : Nat), opOf (encode (.tobytes rs1)) = 0x21 ∧
    (s.buf.wf = true → s.reg rs1 < 256 ^ len → (∀ j, s.reg rs1 < 256 ^ j → len ≤ j) →
      let off := s.snap.arg4.toNat
      let k := max s.snap.arg5.toNat len
      (off + k ≤ s.params.bufsz →
        ∃ t bytes, exec (.tobytes rs1) s = .next t ∧ bytes.length = k ∧
          (∀ i, ∀ h : i < bytes.length, (bytes[i]).toNat = s.reg rs1 / 256 ^ (k - 1 - i) % 256) ∧
          WritesBuf off bytes s t ∧ t.res = BitVec.ofNat 32 k ∧ NoDraw s t) ∧
      (s.params.bufsz < off + k → exec (.tobytes rs1) s = .next (s.afterError .bufRange)))

/-- The round trip that the spec marks as derived from rules R140 and R142 (its sentence: rule R147): what TOBYTES stored,
FROMBYTES of the same offset and length RES loads back into any register; and what FROMBYTES loaded, TOBYTES with min_len n
writes back. -/
def Obligations.TobytesFrombytesRoundTrip : Prop :=
  (∀ (rs1 rd : Reg) (s t u : State), s.Inv → exec (.tobytes rs1) s = .next t → t.errcode = .ok →
    u.params = t.params → u.buf = t.buf → u.snap.arg0 = s.snap.arg4 → u.snap.arg1 = t.res →
    ∃ v, exec (.frombytes rd) u = .next v ∧ WritesReg rd (s.reg rs1) u v) ∧
  ∀ (rd : Reg) (s t u : State), s.Inv → exec (.frombytes rd) s = .next t → t.errcode = .ok →
    u.params = t.params → u.reg rd = t.reg rd → u.buf.wf = true → u.snap.arg5 = s.snap.arg1 →
    u.snap.arg4.toNat + s.snap.arg1.toNat ≤ u.params.bufsz →
    ∃ v, exec (.tobytes rd) u = .next v ∧
      WritesBuf u.snap.arg4.toNat (s.readBuf s.snap.arg0.toNat s.snap.arg1.toNat) u v ∧ v.res = s.snap.arg1

/-- Rule R144: RANDBITS takes ceil(nb / 8) bytes of the oracle, keeps their low nb bits, and forces bit nb-1 (and bit 0 for
randbits.odd) to 1. -/
def Obligations.RandbitsKeepsLowBitsAndForcesTop : Prop :=
  ∀ (rd : Reg) (s : State) (draw : List Byte) (rest : List RngAnswer) (odd : Bool),
    opOf (encode (.randbits rd)) = 0x22 ∧ opOf (encode (.randbitsOdd rd)) = 0x22 ∧
    let nb := s.snap.arg5.toNat
    (1 ≤ nb → nb ≤ s.params.maxbits → s.status.rngf = false → draw.length = (nb + 7) / 8 →
      s.rng = .value (be draw) :: rest →
      ∃ t v, exec (if odd then .randbitsOdd rd else .randbits rd) s = .next t ∧ WritesReg rd v s t ∧
        t.rng = rest ∧ t.draws = s.draws + 1 ∧ v < 2 ^ nb ∧ v.testBit (nb - 1) = true ∧
        ∀ j, j < nb - 1 → v.testBit j = ((be draw).testBit j || (odd && decide (j = 0))))

/-- Rules R144 and R234: RANDBITS's errors, in order: a zero count, a count above MAXBITS, then a failed draw, which sets
RNGF; while RNGF = 1 the oracle is not asked. -/
def Obligations.RandbitsErrorsInOrder : Prop :=
  ∀ (rd : Reg) (s : State) (odd : Bool),
    let i : Instr := if odd then .randbitsOdd rd else .randbits rd
    let nb := s.snap.arg5.toNat
    (nb = 0 → exec i s = .next (s.afterError .illegalOperand)) ∧
    (nb ≠ 0 → s.params.maxbits < nb → exec i s = .next (s.afterError .capacity)) ∧
    (nb ≠ 0 → nb ≤ s.params.maxbits → s.status.rngf = true →
      exec i s = .next (s.afterRngError s.rng s.draws)) ∧
    (nb ≠ 0 → nb ≤ s.params.maxbits → s.status.rngf = false → ∀ rest, s.rng = .fail :: rest →
      exec i s = .next (s.afterRngError rest (s.draws + 1)))

/-- The law that the spec marks as derived from rule R144 (its sentence: rule R146): every successful RANDBITS gives an nb-bit
value with the forced bits set, and every such value is reached by some answer of the oracle. -/
def Obligations.RandbitsReachesExactlyTheForcedBitValues : Prop :=
  ∀ (rd : Reg) (s : State) (odd : Bool),
    let i : Instr := if odd then .randbitsOdd rd else .randbits rd
    let nb := s.snap.arg5.toNat
    (∀ t, exec i s = .next t → t.errcode = .ok →
      2 ^ (nb - 1) ≤ t.reg rd ∧ t.reg rd < 2 ^ nb ∧ (odd = true → t.reg rd % 2 = 1)) ∧
    (1 ≤ nb → nb ≤ s.params.maxbits → s.status.rngf = false →
      ∀ v, 2 ^ (nb - 1) ≤ v → v < 2 ^ nb → (odd = true → v % 2 = 1) →
        ∃ n t, exec i { s with rng := .value n :: s.rng } = .next t ∧ WritesReg rd v s t)

/-! ### Primality -/

/-- The law that the spec marks as derived from rules R160 and R162 (its sentence: rule R163, item 1): a prime gives RES = 1
for every draw; it consumes no draw when it is a trial-division prime, and ROUNDS draws otherwise. -/
def Obligations.IsprimeAcceptsEveryPrime : Prop :=
  ∀ (rs1 : Reg) (s : State), opOf (encode (.isprime rs1)) = 0x30 ∧
    (s.params.legal = true → (s.reg rs1).Prime → s.snap.rounds ≠ 0 →
      (∀ t, exec (.isprime rs1) s = .next t → t.errcode = .ok → WritesRes 1 s t) ∧
      (s.reg rs1 ≤ s.params.tdBound → ∃ t, exec (.isprime rs1) s = .next t ∧ WritesRes 1 s t ∧ NoDraw s t) ∧
      (s.params.tdBound < s.reg rs1 → s.status.rngf = false → ∀ ns rest, ns.length = s.snap.rounds.toNat →
        s.willDraw ns rest →
        ∃ t, exec (.isprime rs1) s = .next t ∧ WritesRes 1 s t ∧ t.rng = rest ∧
          t.draws = s.draws + s.snap.rounds.toNat))

/-- The law that the spec marks as derived from rule R160 (its sentence: rule R163, item 2), with rule R160's c < 2: 0, 1 and
every composite with a factor in TD_PRIMES give RES = 0 with no draw. -/
def Obligations.IsprimeRejectsByTrialDivision : Prop :=
  ∀ (rs1 : Reg) (s : State), s.snap.rounds ≠ 0 → ¬ (s.reg rs1).Prime →
    (s.reg rs1 < 2 ∨ ∃ p, p.Prime ∧ p ≤ s.params.tdBound ∧ p ∣ s.reg rs1) →
    ∃ t, exec (.isprime rs1) s = .next t ∧ WritesRes 0 s t ∧ NoDraw s t

/-- The law that the spec marks as derived from rules R160, R161 and R163 (its sentence: rule R165): with q the least prime
above TD_BOUND, every candidate below q^2 is decided exactly, whatever the draws. -/
def Obligations.IsprimeIsExactBelowTheSquare : Prop :=
  ∀ (rs1 : Reg) (s t : State) (q : Nat), s.params.legal = true → q.Prime → s.params.tdBound < q →
    (∀ p, p.Prime → s.params.tdBound < p → q ≤ p) → s.reg rs1 < q ^ 2 →
    exec (.isprime rs1) s = .next t → t.errcode = .ok →
    ((s.reg rs1).Prime → t.res = 1) ∧ (¬ (s.reg rs1).Prime → t.res = 0)

/-- Rules R160 and R162: for a candidate trial division does not decide, RES = 1 iff no drawn base is a witness; the test
stops at the first witness. -/
def Obligations.IsprimeFollowsTheDrawnBases : Prop :=
  ∀ (rs1 : Reg) (s : State) (bases : List Nat) (rest : List RngAnswer),
    s.params.legal = true → s.snap.rounds ≠ 0 → s.status.rngf = false → 2 ≤ s.reg rs1 →
    (∀ p, p.Prime → p ≤ s.params.tdBound → ¬ p ∣ s.reg rs1) →
    (∀ a ∈ bases, 2 ≤ a ∧ a ≤ s.reg rs1 - 2 ∧ NoWitness (s.reg rs1) a) →
    (bases.length = s.snap.rounds.toNat → s.willDraw bases rest →
      ∃ t, exec (.isprime rs1) s = .next t ∧ WritesRes 1 s t ∧ t.rng = rest ∧ t.draws = s.draws + bases.length) ∧
    (bases.length < s.snap.rounds.toNat → ∀ w, 2 ≤ w → w ≤ s.reg rs1 - 2 → ¬ NoWitness (s.reg rs1) w →
      s.willDraw (bases ++ [w]) rest →
      ∃ t, exec (.isprime rs1) s = .next t ∧ WritesRes 0 s t ∧ t.rng = rest ∧ t.draws = s.draws + bases.length + 1)

/-- Rules R160 and R234: ISPRIME's errors: zero rounds, then a base draw that fails (RES unchanged, the draws made stay
consumed) or is made while RNGF = 1. -/
def Obligations.IsprimeErrorsInOrder : Prop :=
  ∀ (rs1 : Reg) (s : State),
    (s.snap.rounds = 0 → exec (.isprime rs1) s = .next (s.afterError .illegalOperand)) ∧
    (s.snap.rounds ≠ 0 → 2 ≤ s.reg rs1 → (∀ p, p.Prime → p ≤ s.params.tdBound → ¬ p ∣ s.reg rs1) →
      (s.status.rngf = true → exec (.isprime rs1) s = .next (s.afterRngError s.rng s.draws)) ∧
      (s.params.legal = true → s.status.rngf = false → ∀ bases rest, bases.length < s.snap.rounds.toNat →
        (∀ a ∈ bases, 2 ≤ a ∧ a ≤ s.reg rs1 - 2 ∧ NoWitness (s.reg rs1) a) →
        s.willDraw bases (.fail :: rest) →
        exec (.isprime rs1) s = .next (s.afterRngError rest (s.draws + bases.length + 1))))

/-! ### MGF1 and OAEP -/

/-- Rule R35: the selector fields of HASHCFG, the hash each selector names, and the output lengths. -/
def Obligations.HashSelectorsNameTheHashes : Prop :=
  (∀ o : Operands, o.hashSel.toNat = o.hashcfg.toNat % 16 ∧ o.mgfSel.toNat = o.hashcfg.toNat / 16) ∧
  hashOfSel 0 = some .sha1 ∧ hashOfSel 1 = some .sha256 ∧ hashOfSel 2 = some .sha384 ∧ hashOfSel 3 = some .sha512 ∧
  (∀ sel : BitVec 4, 4 ≤ sel.toNat → hashOfSel sel = none) ∧
  hashLen .sha1 = 20 ∧ hashLen .sha256 = 32 ∧ hashLen .sha384 = 48 ∧ hashLen .sha512 = 64 ∧
  State.reset.csr.hashSel = 1 ∧ State.reset.csr.mgfSel = 1

/-- Rules R180 and R13: MGF1 writes, at byte j, byte j mod hLen of the hash of Z with the counter j div hLen; a reserved
MGF_SEL raises ILLEGAL_OPERAND, a range that leaves BUF BUF_RANGE. HASH_SEL plays no part. -/
def Obligations.Mgf1WritesTheMask : Prop :=
  ∀ s : State, opOf (encode .mgf1) = 0x40 ∧
    let z := s.readBuf s.snap.arg0.toNat s.snap.arg1.toNat
    (∀ ms, hashOfSel s.snap.mgfSel = some ms → s.buf.wf = true →
      s.snap.arg0.toNat + s.snap.arg1.toNat ≤ s.params.bufsz → s.snap.arg4.toNat + s.snap.arg5.toNat ≤ s.params.bufsz →
      ∃ t mask, exec .mgf1 s = .next t ∧ mask.length = s.snap.arg5.toNat ∧
        (∀ j, j < mask.length → mask[j]? = (hash ms (z ++ c4 (j / hashLen ms)))[j % hashLen ms]?) ∧
        WritesBuf s.snap.arg4.toNat mask s t ∧ t.res = s.res ∧ NoDraw s t) ∧
    (hashOfSel s.snap.mgfSel = none → exec .mgf1 s = .next (s.afterError .illegalOperand)) ∧
    (hashOfSel s.snap.mgfSel ≠ none →
      (s.params.bufsz < s.snap.arg0.toNat + s.snap.arg1.toNat ∨ s.params.bufsz < s.snap.arg4.toNat + s.snap.arg5.toNat) →
      exec .mgf1 s = .next (s.afterError .bufRange))

/-- Rule R182: OAEP_PAD writes the encoded block of exactly KLEN bytes for the drawn seed. -/
def Obligations.OaepPadWritesTheEncodedBlock : Prop :=
  ∀ (s : State) (hs ms : HashFn) (seed : List Byte) (rest : List RngAnswer), opOf (encode .oaepPad) = 0x41 ∧
    let h := hashLen hs
    let k := s.snap.klen.toNat
    let msg := s.readBuf s.snap.arg0.toNat s.snap.arg1.toNat
    let label := s.readBuf s.snap.arg2.toNat s.snap.arg3.toNat
    (hashOfSel s.snap.hashSel = some hs → hashOfSel s.snap.mgfSel = some ms → s.buf.wf = true →
      s.snap.arg0.toNat + s.snap.arg1.toNat ≤ s.params.bufsz → s.snap.arg2.toNat + s.snap.arg3.toNat ≤ s.params.bufsz →
      s.snap.arg4.toNat + k ≤ s.params.bufsz → s.snap.arg1.toNat + 2 * h + 2 ≤ k →
      s.status.rngf = false → seed.length = h → s.rng = .value (be seed) :: rest →
      ∃ t db maskedDB maskedSeed, exec .oaepPad s = .next t ∧
        db = hash hs label ++ zeros (k - s.snap.arg1.toNat - 2 * h - 2) ++ [0x01] ++ msg ∧
        maskedDB = xorBytes db (mgf1 ms seed (k - h - 1)) ∧ maskedSeed = xorBytes seed (mgf1 ms maskedDB h) ∧
        ([0x00] ++ maskedSeed ++ maskedDB).length = k ∧
        WritesBuf s.snap.arg4.toNat ([0x00] ++ maskedSeed ++ maskedDB) s t ∧ t.res = s.res ∧
        t.rng = rest ∧ t.draws = s.draws + 1)

/-- Rules R182 and R234, and the bound the spec marks as derived from rule R182 (its sentence: rule R187): OAEP_PAD's errors,
in order; the first three make no draw, and MESSAGE_TOO_LONG is raised exactly for the messages longer than KLEN - 2*hLen - 2. -/
def Obligations.OaepPadErrorsInOrder : Prop :=
  ∀ s : State,
    let k := s.snap.klen.toNat
    let inBuf := s.snap.arg0.toNat + s.snap.arg1.toNat ≤ s.params.bufsz ∧
      s.snap.arg2.toNat + s.snap.arg3.toNat ≤ s.params.bufsz ∧ s.snap.arg4.toNat + k ≤ s.params.bufsz
    (hashOfSel s.snap.hashSel = none ∨ hashOfSel s.snap.mgfSel = none →
      exec .oaepPad s = .next (s.afterError .illegalOperand)) ∧
    ∀ hs ms, hashOfSel s.snap.hashSel = some hs → hashOfSel s.snap.mgfSel = some ms →
      (¬ inBuf → exec .oaepPad s = .next (s.afterError .bufRange)) ∧
      (inBuf → k < s.snap.arg1.toNat + 2 * hashLen hs + 2 → exec .oaepPad s = .next (s.afterError .messageTooLong)) ∧
      (inBuf → s.snap.arg1.toNat + 2 * hashLen hs + 2 ≤ k →
        (s.status.rngf = true → exec .oaepPad s = .next (s.afterRngError s.rng s.draws)) ∧
        (s.status.rngf = false → ∀ rest, s.rng = .fail :: rest →
          exec .oaepPad s = .next (s.afterRngError rest (s.draws + 1))) ∧
        (s.status.rngf = false → ∀ n rest, s.rng = .value n :: rest →
          ∃ t, exec .oaepPad s = .next t ∧ EndsOk s t))

/-- Rule R184: a block decodes iff its first byte is 0 and its DB is the label's hash, zeros, 0x01 and a message; then the
message is written and its length put in RES; every other block gives DECRYPTION_FAILED. -/
def Obligations.OaepUnpadAcceptsExactlyTheWellFormedBlocks : Prop :=
  ∀ (s : State) (hs ms : HashFn), opOf (encode .oaepUnpad) = 0x42 ∧
    let h := hashLen hs
    let k := s.snap.klen.toNat
    let em := s.readBuf s.snap.arg0.toNat k
    let label := s.readBuf s.snap.arg2.toNat s.snap.arg3.toNat
    let seed := xorBytes ((em.drop 1).take h) (mgf1 ms (em.drop (h + 1)) h)
    let db := xorBytes (em.drop (h + 1)) (mgf1 ms seed (k - h - 1))
    (hashOfSel s.snap.hashSel = some hs → hashOfSel s.snap.mgfSel = some ms → s.buf.wf = true →
      s.snap.arg0.toNat + k ≤ s.params.bufsz → s.snap.arg2.toNat + s.snap.arg3.toNat ≤ s.params.bufsz →
      2 * h + 2 ≤ k → s.snap.arg4.toNat + (k - 2 * h - 2) ≤ s.params.bufsz →
      (∀ i msg, em[0]? = some 0x00 → db = hash hs label ++ zeros i ++ [0x01] ++ msg →
        ∃ t, exec .oaepUnpad s = .next t ∧ WritesBuf s.snap.arg4.toNat msg s t ∧
          t.res = BitVec.ofNat 32 msg.length ∧ NoDraw s t) ∧
      ((¬ ∃ i msg, em[0]? = some 0x00 ∧ db = hash hs label ++ zeros i ++ [0x01] ++ msg) →
        exec .oaepUnpad s = .next (s.afterError .decryptionFailed)))

/-- Rule R184's errors before decoding, in order: a reserved selector; a range that leaves BUF, the output's with the largest
possible length; a KLEN that cannot hold a block. -/
def Obligations.OaepUnpadErrorsInOrder : Prop :=
  ∀ s : State,
    let k := s.snap.klen.toNat
    (hashOfSel s.snap.hashSel = none ∨ hashOfSel s.snap.mgfSel = none →
      exec .oaepUnpad s = .next (s.afterError .illegalOperand)) ∧
    ∀ hs ms, hashOfSel s.snap.hashSel = some hs → hashOfSel s.snap.mgfSel = some ms →
      let h := hashLen hs
      (s.params.bufsz < s.snap.arg0.toNat + k ∨ s.params.bufsz < s.snap.arg2.toNat + s.snap.arg3.toNat ∨
          (2 * h + 2 ≤ k ∧ s.params.bufsz < s.snap.arg4.toNat + (k - 2 * h - 2)) →
        exec .oaepUnpad s = .next (s.afterError .bufRange)) ∧
      (s.snap.arg0.toNat + k ≤ s.params.bufsz → s.snap.arg2.toNat + s.snap.arg3.toNat ≤ s.params.bufsz → k < 2 * h + 2 →
        exec .oaepUnpad s = .next (s.afterError .decryptionFailed))

/-- The round trip that the spec marks as derived from rules R182 and R184 (its sentence: rule R186): OAEP_UNPAD of the block
a successful OAEP_PAD wrote, with the same k, label and selectors, completes with OK and writes back the padded message, for
every seed draw. -/
def Obligations.OaepRoundTrip : Prop :=
  ∀ (s t u : State) (hs : HashFn), s.buf.wf = true → exec .oaepPad s = .next t → t.errcode = .ok →
    hashOfSel s.snap.hashSel = some hs → u.buf.wf = true →
    u.snap.hashcfg = s.snap.hashcfg → u.snap.klen = s.snap.klen →
    u.readBuf u.snap.arg2.toNat u.snap.arg3.toNat = s.readBuf s.snap.arg2.toNat s.snap.arg3.toNat →
    u.readBuf u.snap.arg0.toNat u.snap.klen.toNat = t.readBuf s.snap.arg4.toNat s.snap.klen.toNat →
    u.snap.arg0.toNat + u.snap.klen.toNat ≤ u.params.bufsz →
    u.snap.arg2.toNat + u.snap.arg3.toNat ≤ u.params.bufsz →
    u.snap.arg4.toNat + (u.snap.klen.toNat - 2 * hashLen hs - 2) ≤ u.params.bufsz →
    ∃ v, exec .oaepUnpad u = .next v ∧
      WritesBuf u.snap.arg4.toNat (s.readBuf s.snap.arg0.toNat s.snap.arg1.toNat) u v ∧ v.res = s.snap.arg1

/-! ### The whole machine -/

/-- Rules R230, R231 and R24: every command completes, with DONE = 1, BUSY = 0 and a code that is not one of host software's;
the host's registers and the host-set STATUS bits are as they were. -/
def Obligations.EveryCommandCompletes : Prop :=
  ∀ (i : Instr) (s : State), ∃ t, exec i s = .next t ∧ t.status.done = true ∧ t.status.busy = false ∧
    t.status.overrun = s.status.overrun ∧ t.status.accerr = s.status.accerr ∧ KeepsHostState s t ∧
    t.errcode.hostOnly = false ∧ (t.err = true ↔ t.errcode ≠ .ok)

/-- Rule R235: the state after a failed command equals the state before it, except for ERRCODE, STATUS and the RNG history. -/
def Obligations.FailedCommandsArePrecise : Prop :=
  ∀ (i : Instr) (s t : State), exec i s = .next t → t.errcode ≠ .ok →
    t = { s with
      errcode := t.errcode
      status := { s.status with
        done := true
        busy := false
        rngf := s.status.rngf || decide (t.errcode = .rngUnavailable) }
      rng := t.rng
      draws := t.draws }

/-- Rules R34 and R213 (decision D54): only successful CMP, BITLEN, TOBYTES, ISPRIME, OAEP_UNPAD and ZEROIZE change RES. That
ZEROIZE is one of them, which R34's list omits, is log entry 11. -/
def Obligations.OnlyResultCommandsChangeRes : Prop :=
  ∀ (i : Instr) (s t : State), exec i s = .next t → t.res ≠ s.res →
    t.errcode = .ok ∧ i.mnemonic ∈ ["cmp", "bitlen", "tobytes", "isprime", "oaep.unpad", "zeroize"]

/-- Rule R148: only RANDBITS, ISPRIME and OAEP_PAD draw from the RNG. -/
def Obligations.OnlyThreeCommandsDraw : Prop :=
  ∀ (i : Instr) (s t : State), exec i s = .next t → ¬ NoDraw s t →
    i.mnemonic ∈ ["randbits", "randbits.odd", "isprime", "oaep.pad"]

/-- Rule R234: RNG_UNAVAILABLE sets RNGF; while RNGF = 1 no step asks the oracle, and only a reset clears RNGF. -/
def Obligations.RngFailureIsStickyUntilReset : Prop :=
  (∀ (i : Instr) (s t : State), exec i s = .next t → t.errcode = .rngUnavailable → t.status.rngf = true) ∧
  ∀ s t : State, s.status.rngf = true → step s = .next t →
    t.rng = s.rng ∧ t.draws = s.draws ∧
    (t.status.rngf = true ∨ s.agenda.head? = some .hardReset ∨
      ∃ w : Word, w.getLsbD 0 = true ∧ s.agenda.head? = some (.host (.write .word 0x010 w)))

/-- Every step keeps the invariant of the machine (rules R8, R20, R23, R24, R50 and R231, and BUF's canonical form, which is
the model's own, log entry 19). -/
def Obligations.EveryStepKeepsTheInvariant : Prop :=
  ∀ s t : State, s.Inv → step s = .next t → t.Inv

/-- The invariant of the machine holds after reset. -/
def Obligations.ResetMeetsTheInvariant : Prop := State.reset.Inv

/-- Rule R59: a command's result depends only on the state at its issue and on the oracle's answers: a host access made while
it is in flight, other than a soft reset, does not change what its completion leaves. -/
def Obligations.BusyHostAccessesCannotChangeTheResult : Prop :=
  ∀ (s : State) (a : Access), s.status.busy = true → (State.hostAccess a s).status.busy = true →
    ∃ t u, s.completion = .next t ∧ (State.hostAccess a s).completion = .next u ∧
      u.x = t.x ∧ u.buf = t.buf ∧ u.res = t.res ∧ u.errcode = t.errcode ∧ u.rng = t.rng ∧ u.draws = t.draws ∧
      u.status.rngf = t.status.rngf ∧ u.cur = t.cur ∧ u.csr = t.csr

/-- Rule R109: the binary algorithm over all MAXBITS exponent bits and the fixed-window algorithm, for every window width,
compute the result of rule R108. -/
def Obligations.FixedWindowExponentiationAgrees : Prop :=
  ∀ maxbits w a e n : Nat, 1 ≤ w → e < 2 ^ maxbits →
    modPowTop a e n maxbits maxbits = a ^ e % n ∧ modPowFixed maxbits w a e n = a ^ e % n

/-- Rule R270: an issued command does not stay in flight: after at most one step more than the steps pending, BUSY has been 0.
That the pending steps are a finite list is the model's own (log entry 15). -/
def Obligations.IssuedCommandsComplete : Prop :=
  ∀ s : State, s.params.legal = true →
    ∃ n t, n ≤ s.agenda.length + 1 ∧ Sys2Proof.core.run n s = .next t ∧ t.status.busy = false
end

