-- ==== Sys2Proof/Laws/Bytes.lean ====
section
/-! SUPPORT. The laws of bit lengths and byte strings (rules R9 and R10) and of the output lengths of the hashes. -/

namespace Sys2Proof.Machine

/-- `bitlen(v)` is the least k with v < 2^k (rule R9). -/
theorem bitlen_le_iff (v k : Nat) : bitlen v ≤ k ↔ v < 2 ^ k := by
  unfold bitlen
  split
  · next h => subst h; simp
  · next h => rw [Nat.succ_le_iff, Nat.log2_lt h]

theorem lt_two_pow_bitlen (v : Nat) : v < 2 ^ bitlen v := (bitlen_le_iff v _).1 (le_refl _)

/-- A value fits in bytelen(v) bytes, and in any k bytes with v < 256^k. -/
theorem bytelen_le_iff (v k : Nat) : bytelen v ≤ k ↔ v < 256 ^ k := by
  have h : (256 : Nat) ^ k = 2 ^ (8 * k) := by rw [pow_mul]; norm_num
  rw [h, ← bitlen_le_iff]
  unfold bytelen
  omega

@[simp] theorem be_nil : be [] = 0 := rfl

theorem be_append_singleton (s : List Byte) (b : Byte) : be (s ++ [b]) = be s * 256 + b.toNat := by
  simp [be]

theorem be_lt (s : List Byte) : be s < 256 ^ s.length := by
  induction s using List.reverseRecOn with
  | nil => simp
  | append_singleton s b ih =>
    rw [be_append_singleton, List.length_append, List.length_singleton, pow_succ]
    have := b.isLt
    omega

theorem i2ospOnto_eq (v k : Nat) (acc : List Byte) : i2ospOnto v k acc = i2osp v k ++ acc := by
  unfold i2osp
  induction k generalizing v acc with
  | zero => rfl
  | succ k ih =>
    rw [i2ospOnto, i2ospOnto, ih (v / 256) (BitVec.ofNat 8 v :: acc), ih (v / 256) [BitVec.ofNat 8 v]]
    simp

@[simp] theorem i2osp_zero (v : Nat) : i2osp v 0 = [] := rfl

theorem i2osp_succ (v k : Nat) : i2osp v (k + 1) = i2osp (v / 256) k ++ [BitVec.ofNat 8 v] := by
  conv_lhs => rw [i2osp, i2ospOnto, i2ospOnto_eq]

@[simp] theorem length_i2osp (v k : Nat) : (i2osp v k).length = k := by
  induction k generalizing v with
  | zero => rfl
  | succ k ih => simp [i2osp_succ, ih]

theorem be_i2osp_mod (v k : Nat) : be (i2osp v k) = v % 256 ^ k := by
  induction k generalizing v with
  | zero => simp [Nat.mod_one]
  | succ k ih =>
    rw [i2osp_succ, be_append_singleton, ih, BitVec.toNat_ofNat, pow_succ' 256 k, Nat.mod_mul]
    omega

/-- `BE(I2OSP(v, k)) = v` for v < 256^k (rule R10). -/
theorem be_i2osp {v k : Nat} (h : v < 256 ^ k) : be (i2osp v k) = v := by
  rw [be_i2osp_mod, Nat.mod_eq_of_lt h]

/-- `I2OSP(BE(S), len(S)) = S` (rule R10). -/
theorem i2osp_be (s : List Byte) : i2osp (be s) s.length = s := by
  induction s using List.reverseRecOn with
  | nil => rfl
  | append_singleton s b ih =>
    rw [List.length_append, List.length_singleton, i2osp_succ, be_append_singleton]
    have hb := b.isLt
    have h1 : (be s * 256 + b.toNat) / 256 = be s := by omega
    rw [h1, ih]
    congr 2
    apply BitVec.eq_of_toNat_eq
    rw [BitVec.toNat_ofNat]
    omega

/-- The bytes of I2OSP, most significant first. -/
theorem toNat_getElem_i2osp (v k i : Nat) (h : i < (i2osp v k).length) :
    ((i2osp v k)[i]).toNat = v / 256 ^ (k - 1 - i) % 256 := by
  induction k generalizing v with
  | zero => simp at h
  | succ k ih =>
    simp only [length_i2osp] at h
    by_cases hi : i < k
    · have hl : i < (i2osp (v / 256) k).length := by simpa using hi
      simp only [i2osp_succ]
      rw [List.getElem_append_left hl, ih _ hl, Nat.div_div_eq_div_mul, ← pow_succ',
        show k - 1 - i + 1 = k + 1 - 1 - i by omega]
    · have hik : i = k := by omega
      subst hik
      simp [i2osp_succ]

/-- BE as rule R10's sum. -/
theorem be_eq_sum (s : List Byte) :
    be s = ∑ i ∈ Finset.range s.length, (s.getD i 0).toNat * 256 ^ (s.length - 1 - i) := by
  induction s using List.reverseRecOn with
  | nil => simp
  | append_singleton s b ih =>
    rw [be_append_singleton, List.length_append, List.length_singleton, Finset.sum_range_succ, ih, Finset.sum_mul]
    congr 1
    · apply Finset.sum_congr rfl
      intro i hi
      have hi : i < s.length := Finset.mem_range.1 hi
      rw [List.getD_append _ _ _ _ hi, mul_assoc, ← pow_succ]
      congr 2
      omega
    · simp

@[simp] theorem length_xorBytes (a b : List Byte) : (xorBytes a b).length = min a.length b.length := by
  simp [xorBytes]

/-- Masking twice with the same mask gives the string back. -/
theorem xorBytes_xorBytes {a m : List Byte} (h : a.length = m.length) : xorBytes (xorBytes a m) m = a := by
  apply List.ext_getElem
  · simp [h]
  · intro i h1 h2
    simp [xorBytes]

@[simp] theorem length_zeros (k : Nat) : (zeros k).length = k := by simp [zeros]

theorem length_bytesOfWords {w : Nat} (n : Nat) (ws : List (BitVec w)) :
    (bytesOfWords n ws).length = ws.length * n := by
  simp [bytesOfWords]

/-- `rootFrom` finds the integer root: its n-th power does not pass x, and the next one's does wherever that of the end of
the searched range does. -/
theorem rootFrom_spec (n x : Nat) : ∀ k r : Nat, r ^ n ≤ x → x < (r + 2 ^ k) ^ n →
    rootFrom n x k r ^ n ≤ x ∧ x < (rootFrom n x k r + 1) ^ n
  | 0, r, h, h' => ⟨h, h'⟩
  | k + 1, r, h, h' => by
    unfold rootFrom
    split
    · next hc => exact rootFrom_spec n x k _ hc (by rwa [Nat.add_assoc, ← Nat.two_mul, ← Nat.pow_succ'])
    · next hc => exact rootFrom_spec n x k r h (Nat.lt_of_not_le hc)

/-- Every hash returns hLen bytes (rules R13 and R35). -/
theorem length_hash (f : HashFn) (msg : List Byte) : (hash f msg).length = hashLen f := by
  cases f <;> simp [hash, sha1, sha2, length_bytesOfWords, ShaRegs.words, hashLen]

theorem hashLen_pos (f : HashFn) : 0 < hashLen f := by cases f <;> simp [hashLen]

theorem length_mgf1_blocks (f : HashFn) (z : List Byte) (k : Nat) :
    ((List.range k).flatMap fun i => hash f (z ++ c4 i)).length = k * hashLen f := by
  simp [List.length_flatMap, length_hash]

theorem le_ceilDiv_mul (l : Nat) {h : Nat} (hh : 0 < h) : l ≤ (l + h - 1) / h * h := by
  have h1 := Nat.div_add_mod (l + h - 1) h
  have h2 := Nat.mod_lt (l + h - 1) hh
  rw [Nat.mul_comm] at h1
  omega

/-- MGF1 returns as many bytes as it is asked for (rule R13). -/
@[simp] theorem length_mgf1 (f : HashFn) (z : List Byte) (l : Nat) : (mgf1 f z l).length = l := by
  rw [mgf1, List.length_take, length_mgf1_blocks]
  exact Nat.min_eq_left (le_ceilDiv_mul l (hashLen_pos f))

end Sys2Proof.Machine
end

