-- ==== Sys2Proof/Laws/Memory.lean ====
section
/-! SUPPORT. The laws of BUF: read after write, bytes of a string, and that every operation keeps the canonical form. -/

namespace Sys2Proof.Machine

@[simp] theorem Memory.read_nil (a : Nat) : Memory.read [] a = 0 := rfl

theorem Memory.read_cons (k : Nat) (b : Byte) (m : Memory) (a : Nat) :
    Memory.read ((k, b) :: m) a = if k = a then b else Memory.read m a := rfl

/-- Every offset of the list is above n. -/
def Memory.above (n : Nat) (m : Memory) : Prop := ∀ c ∈ m, n < c.1

theorem Memory.read_of_above {n a : Nat} {m : Memory} (h : Memory.above n m) (ha : a ≤ n) : m.read a = 0 := by
  induction m with
  | nil => rfl
  | cons c m ih =>
    obtain ⟨k, b⟩ := c
    have hk : n < k := h (k, b) (by simp)
    rw [Memory.read_cons, if_neg (by omega)]
    exact ih fun c hc => h c (by simp [hc])

theorem Memory.wf_cons {k : Nat} {b : Byte} {m : Memory} :
    Memory.wf ((k, b) :: m) = true ↔ b ≠ 0 ∧ Memory.above k m ∧ Memory.wf m = true := by
  induction m generalizing k b with
  | nil =>
    simp only [Memory.wf, decide_eq_true_eq, and_true]
    exact ⟨fun hb => ⟨hb, by simp [Memory.above]⟩, fun hb => hb.1⟩
  | cons c m ih =>
    obtain ⟨k', b'⟩ := c
    have hw := ih (k := k') (b := b')
    simp only [Memory.wf, Bool.and_eq_true, decide_eq_true_eq]
    constructor
    · rintro ⟨⟨hb, hk⟩, hm⟩
      refine ⟨hb, ?_, hm⟩
      intro c hc
      rcases List.mem_cons.1 hc with rfl | hc
      · exact hk
      · exact Nat.lt_trans hk ((hw.1 hm).2.1 c hc)
    · rintro ⟨hb, ha, hm⟩
      exact ⟨⟨hb, ha (k', b') (by simp)⟩, hm⟩

theorem Memory.cell_append_read (a b : Nat) (v : Byte) (m : Memory) (h : m.read a = 0) :
    Memory.read (Memory.cell a v ++ m) b = if b = a then v else m.read b := by
  unfold Memory.cell
  by_cases hv : v = Memory.unlisted
  · rw [if_pos hv]
    have : v = 0 := hv
    by_cases hb : b = a
    · subst hb; simp [h, this]
    · simp [hb]
  · rw [if_neg hv]
    by_cases hb : b = a
    · simp [Memory.read_cons, hb]
    · have : a ≠ b := fun e => hb e.symm
      simp [Memory.read_cons, hb, this]

/-- A byte after a write, on memory in canonical form. -/
theorem Memory.read_write {m : Memory} (h : m.wf = true) (a b : Nat) (v : Byte) :
    (m.write a v).read b = if b = a then v else m.read b := by
  induction m with
  | nil => exact (by simpa [Memory.write] using Memory.cell_append_read a b v [] rfl)
  | cons c m ih =>
    obtain ⟨k, w⟩ := c
    obtain ⟨-, ha, hm⟩ := Memory.wf_cons.1 h
    simp only [Memory.write]
    split
    · next hk =>
      rw [Memory.read_cons, ih hm, Memory.read_cons]
      by_cases hb : b = a
      · subst hb; simp [show k ≠ b by omega]
      · simp [hb]
    · split
      · next hk =>
        subst hk
        rw [Memory.cell_append_read _ _ _ _ (Memory.read_of_above ha (le_refl _)), Memory.read_cons]
        by_cases hb : b = k
        · simp [hb]
        · have hkb : k ≠ b := fun e => hb e.symm
          simp [hb, hkb]
      · next hk hk' =>
        have hka : a < k := by omega
        have hr : Memory.read ((k, w) :: m) a = 0 := by
          rw [Memory.read_cons, if_neg (by omega)]
          exact Memory.read_of_above ha (by omega)
        exact Memory.cell_append_read a b v _ hr

/-- A write lists nothing but its own offset anew. -/
theorem Memory.mem_write {m : Memory} {a : Nat} {v : Byte} {c : Host.Cell} (h : c ∈ m.write a v) : c ∈ m ∨ c.1 = a := by
  induction m with
  | nil =>
    simp only [Memory.write, Memory.cell] at h
    split at h <;> simp_all
  | cons d m ih =>
    obtain ⟨k, w⟩ := d
    simp only [Memory.write, Memory.cell] at h
    split at h
    · rcases List.mem_cons.1 h with rfl | h
      · simp
      · rcases ih h with h | h <;> simp_all
    · split at h <;> split at h <;> simp_all
      · rcases h with h | h <;> simp_all
      · rcases h with h | h <;> simp_all

theorem Memory.wf_cell_append {a : Nat} {v : Byte} {m : Memory} (h : m.wf = true) (ha : Memory.above a m) :
    Memory.wf (Memory.cell a v ++ m) = true := by
  unfold Memory.cell
  split
  · simpa using h
  · next hv => exact Memory.wf_cons.2 ⟨hv, ha, h⟩

/-- A write keeps the canonical form. -/
theorem Memory.wf_write {m : Memory} (h : m.wf = true) (a : Nat) (v : Byte) : (m.write a v).wf = true := by
  induction m with
  | nil => simpa [Memory.write] using Memory.wf_cell_append (a := a) (v := v) (m := []) rfl (by simp [Memory.above])
  | cons c m ih =>
    obtain ⟨k, w⟩ := c
    obtain ⟨hw, ha, hm⟩ := Memory.wf_cons.1 h
    simp only [Memory.write]
    split
    · next hk =>
      refine Memory.wf_cons.2 ⟨hw, ?_, ih hm⟩
      intro c hc
      rcases Memory.mem_write hc with hc | hc
      · exact ha c hc
      · omega
    · split
      · next hk => subst hk; exact Memory.wf_cell_append hm ha
      · next hk hk' =>
        refine Memory.wf_cell_append h ?_
        intro c hc
        rcases List.mem_cons.1 hc with rfl | hc
        · simp only; omega
        · have := ha c hc; omega

theorem Memory.within_write {m : Memory} {n a : Nat} (h : m.within n = true) (ha : a < n) (v : Byte) :
    (m.write a v).within n = true := by
  simp only [Memory.within, List.all_eq_true, decide_eq_true_eq] at h ⊢
  intro c hc
  rcases Memory.mem_write hc with hc | hc
  · exact h c hc
  · omega

/-- Writing a string keeps the canonical form. -/
theorem Memory.wf_writeBytes {m : Memory} (h : m.wf = true) (a : Nat) (bytes : List Byte) :
    (m.writeBytes a bytes).wf = true := by
  induction bytes generalizing m a with
  | nil => exact h
  | cons b bytes ih => exact ih (Memory.wf_write h a b) (a + 1)

theorem Memory.within_writeBytes {m : Memory} {n a : Nat} (h : m.within n = true) (bytes : List Byte)
    (ha : a + bytes.length ≤ n) : (m.writeBytes a bytes).within n = true := by
  induction bytes generalizing m a with
  | nil => exact h
  | cons b bytes ih =>
    simp only [List.length_cons] at ha
    exact ih (Memory.within_write h (by omega) b) (by omega)

/-- A byte after a string was written, on memory in canonical form: the string's own byte inside its range, the old
byte elsewhere. -/
theorem Memory.read_writeBytes {m : Memory} (h : m.wf = true) (a b : Nat) (bytes : List Byte) :
    (m.writeBytes a bytes).read b =
      if hb : a ≤ b ∧ b < a + bytes.length then bytes[b - a]'(by omega) else m.read b := by
  induction bytes generalizing m a with
  | nil => simp [Memory.writeBytes]
  | cons v bytes ih =>
    simp only [Memory.writeBytes]
    rw [ih (Memory.wf_write h a v) (a + 1), Memory.read_write h]
    simp only [List.length_cons]
    by_cases hb : b = a
    · subst hb
      simp
    · by_cases hin : a + 1 ≤ b ∧ b < a + 1 + bytes.length
      · rw [dif_pos hin, dif_pos (by omega)]
        obtain ⟨j, rfl⟩ : ∃ j, b = a + 1 + j := ⟨b - (a + 1), by omega⟩
        simp [show a + 1 + j - a = j + 1 by omega]
      · rw [dif_neg hin, dif_neg (by omega), if_neg hb]

theorem Memory.read_writeBytes_inside {m : Memory} (h : m.wf = true) (a i : Nat) (bytes : List Byte)
    (hi : i < bytes.length) : (m.writeBytes a bytes).read (a + i) = bytes[i] := by
  rw [Memory.read_writeBytes h, dif_pos ⟨by omega, by omega⟩]
  simp

theorem Memory.read_writeBytes_outside {m : Memory} (h : m.wf = true) (a b : Nat) (bytes : List Byte)
    (hb : b < a ∨ a + bytes.length ≤ b) : (m.writeBytes a bytes).read b = m.read b := by
  rw [Memory.read_writeBytes h, dif_neg (by omega)]

@[simp] theorem Memory.length_readBytes (m : Memory) (a n : Nat) : (m.readBytes a n).length = n := by
  simp [Memory.readBytes]

@[simp] theorem Memory.getElem_readBytes (m : Memory) (a n i : Nat) (h : i < (m.readBytes a n).length) :
    (m.readBytes a n)[i] = m.read (a + i) := by
  simp [Memory.readBytes]

theorem Memory.readBytes_congr {m m' : Memory} {a a' n : Nat} (h : ∀ i < n, m.read (a + i) = m'.read (a' + i)) :
    m.readBytes a n = m'.readBytes a' n := by
  apply List.ext_getElem
  · simp
  · intro i h1 h2
    simp only [Memory.length_readBytes] at h1
    simpa using h i h1

/-- Reading back the string that was written. -/
theorem Memory.readBytes_writeBytes {m : Memory} (h : m.wf = true) (a : Nat) (bytes : List Byte) :
    (m.writeBytes a bytes).readBytes a bytes.length = bytes := by
  apply List.ext_getElem
  · simp
  · intro i h1 h2
    rw [Memory.getElem_readBytes, Memory.read_writeBytes_inside h a i bytes h2]

theorem Memory.read_of_within {m : Memory} {n a : Nat} (h : m.within n = true) (ha : n ≤ a) : m.read a = 0 := by
  induction m with
  | nil => rfl
  | cons c m ih =>
    obtain ⟨k, b⟩ := c
    simp only [Memory.within, List.all_cons, Bool.and_eq_true, decide_eq_true_eq] at h
    rw [Memory.read_cons, if_neg (by omega)]
    exact ih (by simpa [Memory.within] using h.2)

/-- Canonical memories that read the same everywhere are the same data. -/
theorem Memory.ext {m m' : Memory} (h : m.wf = true) (h' : m'.wf = true) (heq : ∀ a, m.read a = m'.read a) : m = m' := by
  induction m generalizing m' with
  | nil =>
    cases m' with
    | nil => rfl
    | cons c m' =>
      obtain ⟨k, b⟩ := c
      have := heq k
      simp only [Memory.read_nil, Memory.read_cons, if_pos] at this
      exact absurd this.symm (Memory.wf_cons.1 h').1
  | cons c m ih =>
    obtain ⟨k, b⟩ := c
    obtain ⟨hb, ha, hm⟩ := Memory.wf_cons.1 h
    cases m' with
    | nil =>
      have := heq k
      simp only [Memory.read_nil, Memory.read_cons, if_pos] at this
      exact absurd this hb
    | cons c' m' =>
      obtain ⟨k', b'⟩ := c'
      obtain ⟨hb', ha', hm'⟩ := Memory.wf_cons.1 h'
      have hkk : k = k' := by
        rcases Nat.lt_trichotomy k k' with hlt | heq' | hgt
        · have := heq k
          rw [Memory.read_cons, if_pos rfl, Memory.read_cons, if_neg (by omega),
            Memory.read_of_above ha' (by omega)] at this
          exact absurd this hb
        · exact heq'
        · have := heq k'
          rw [Memory.read_cons, if_neg (by omega), Memory.read_of_above ha (by omega), Memory.read_cons,
            if_pos rfl] at this
          exact absurd this.symm hb'
      subst hkk
      have hbb : b = b' := by simpa [Memory.read_cons] using heq k
      subst hbb
      congr 1
      refine ih hm hm' fun a => ?_
      by_cases hka : k = a
      · subst hka
        rw [Memory.read_of_above ha (le_refl _), Memory.read_of_above ha' (le_refl _)]
      · simpa [Memory.read_cons, hka] using heq a

end Sys2Proof.Machine
end

