-- ==== Sys2Proof/Laws/Numeric.lean ====
section
/-! SUPPORT. What the number functions compute: modular powers, inverses, primes and the splitting of c - 1. -/

namespace Sys2Proof.Machine

/-- Reading the top k bits of e most significant first gives e's quotient by 2^(len - k). -/
theorem modPowTop_eq (a e n len k : Nat) (he : e < 2 ^ len) (hk : k ≤ len) :
    modPowTop a e n len k = a ^ (e / 2 ^ (len - k)) % n := by
  induction k with
  | zero =>
    rw [modPowTop, Nat.sub_zero, Nat.div_eq_of_lt he, pow_zero]
  | succ k ih =>
    have hq : e / 2 ^ (len - k) = e / 2 ^ (len - 1 - k) / 2 := by
      rw [Nat.div_div_eq_div_mul, ← pow_succ, show len - 1 - k + 1 = len - k by omega]
    have hbit : e.testBit (len - 1 - k) = decide (e / 2 ^ (len - 1 - k) % 2 = 1) := by
      rw [Nat.testBit_eq_decide_div_mod_eq]
    have hsub : len - (k + 1) = len - 1 - k := by omega
    simp only [modPowTop, ih (by omega), hbit, hsub, decide_eq_true_eq]
    rw [hq]
    generalize e / 2 ^ (len - 1 - k) = m
    have hm := Nat.div_add_mod m 2
    have hsq : a ^ (m / 2) % n * (a ^ (m / 2) % n) % n = a ^ (2 * (m / 2)) % n := by
      rw [← Nat.mul_mod, ← pow_add, two_mul]
    rw [hsq]
    split
    · next h =>
      rw [← Nat.mul_mod, ← pow_succ, show 2 * (m / 2) + 1 = m by omega]
    · next h =>
      rw [show 2 * (m / 2) = m by omega]

/-- Square-and-multiply computes the modular power (rule R108). -/
theorem modPow_eq (a e n : Nat) : modPow a e n = a ^ e % n := by
  rw [modPow, modPowTop_eq a e n _ _ (lt_two_pow_bitlen e) (le_refl _), Nat.sub_self, pow_zero, Nat.div_one]

/-- The coefficient step of the extended Euclidean algorithm, modulo n. -/
theorem euclid_coeff_step {n a q r0 r1 s0 s1 : Nat} (hn : 0 < n) (h0 : s0 * a ≡ r0 [MOD n]) (h1 : s1 * a ≡ r1 [MOD n])
    (hr : r0 = r1 * q + r0 % r1) : (s0 + (n - q * s1 % n)) % n * a ≡ r0 % r1 [MOD n] := by
  have hle : q * s1 % n ≤ n := (Nat.mod_lt _ hn).le
  have key : (s0 + (n - q * s1 % n)) * a + q * s1 % n * a ≡ r0 % r1 + q * s1 * a [MOD n] := by
    have e1 : (s0 + (n - q * s1 % n)) * a + q * s1 % n * a = s0 * a + n * a := by
      rw [← Nat.add_mul, Nat.add_assoc, Nat.sub_add_cancel hle, Nat.add_mul]
    have e2 : s0 * a + n * a ≡ r0 [MOD n] := by
      calc s0 * a + n * a ≡ r0 + 0 [MOD n] := h0.add (by simp [Nat.ModEq])
        _ = r0 := by simp
    have e3 : r0 % r1 + q * s1 * a ≡ r0 [MOD n] := by
      calc r0 % r1 + q * s1 * a = r0 % r1 + q * (s1 * a) := by rw [Nat.mul_assoc]
        _ ≡ r0 % r1 + q * r1 [MOD n] := (Nat.ModEq.refl _).add ((Nat.ModEq.refl q).mul h1)
        _ = r0 := by rw [Nat.mul_comm q r1, Nat.add_comm]; exact hr.symm
    rw [e1]
    exact e2.trans e3.symm
  have hmod : q * s1 % n * a ≡ q * s1 * a [MOD n] := (Nat.mod_modEq _ _).mul (Nat.ModEq.refl a)
  have hcancel : (s0 + (n - q * s1 % n)) * a ≡ r0 % r1 [MOD n] :=
    Nat.ModEq.add_right_cancel hmod key
  exact ((Nat.mod_modEq _ _).mul (Nat.ModEq.refl a)).trans hcancel

/-- The extended Euclidean algorithm answers the gcd and a coefficient for it, reduced modulo n. -/
theorem euclid_spec {n a : Nat} (hn : 0 < n) (fuel r0 r1 s0 s1 : Nat) (hfuel : r1 < fuel)
    (h0 : s0 * a ≡ r0 [MOD n]) (h1 : s1 * a ≡ r1 [MOD n]) (hs0 : s0 < n) (hs1 : s1 < n) :
    (euclid n fuel r0 r1 s0 s1).1 = Nat.gcd r0 r1 ∧
      (euclid n fuel r0 r1 s0 s1).2 * a ≡ Nat.gcd r0 r1 [MOD n] ∧ (euclid n fuel r0 r1 s0 s1).2 < n := by
  induction fuel generalizing r0 r1 s0 s1 with
  | zero => omega
  | succ fuel ih =>
    rw [euclid]
    split
    · next h =>
      subst h
      simpa using ⟨h0, hs0⟩
    · next h =>
      have hlt : r0 % r1 < r1 := Nat.mod_lt _ (by omega)
      have hg : Nat.gcd r0 r1 = Nat.gcd r1 (r0 % r1) := by
        rw [Nat.gcd_comm r0 r1, Nat.gcd_rec r1 r0, Nat.gcd_comm]
      rw [hg]
      exact ih r1 (r0 % r1) s1 _ (by omega) h1
        (euclid_coeff_step hn h0 h1 (Nat.div_add_mod r0 r1).symm) hs1 (Nat.mod_lt _ hn)

/-- The inverse exists iff gcd(a, n) = 1, and is then in [0, n) with a * y = 1 modulo n (rule R110). -/
theorem modInverse_spec (a : Nat) {n : Nat} (hn : 0 < n) :
    (Nat.gcd a n = 1 → ∃ y, modInverse a n = some y ∧ y < n ∧ a * y % n = 1 % n) ∧
      (Nat.gcd a n ≠ 1 → modInverse a n = none) := by
  have hspec : _ := euclid_spec (a := a) hn (n + 1) n (a % n) 0 (1 % n) (by have := Nat.mod_lt a hn; omega)
    (by simp [Nat.ModEq]) (by
      calc 1 % n * a ≡ 1 * a [MOD n] := (Nat.mod_modEq _ _).mul (Nat.ModEq.refl a)
        _ = a := one_mul a
        _ ≡ a % n [MOD n] := (Nat.mod_modEq _ _).symm) hn (Nat.mod_lt _ hn)
  have hg : Nat.gcd n (a % n) = Nat.gcd a n := by rw [Nat.gcd_comm a n, Nat.gcd_rec n a, Nat.gcd_comm]
  rw [hg] at hspec
  obtain ⟨h1, h2, h3⟩ := hspec
  constructor
  · intro hgcd
    refine ⟨(euclid n (n + 1) n (a % n) 0 (1 % n)).2, ?_, h3, ?_⟩
    · simp [modInverse, h1, hgcd]
    · rw [hgcd] at h2
      rw [Nat.mul_comm]
      exact h2
  · intro hgcd
    simp [modInverse, h1, hgcd]

/-- A number above 1 that no prime below it divides is prime. -/
theorem prime_of_no_smaller_prime_factor {k : Nat} (hk : 2 ≤ k) (h : ∀ p, p.Prime → p < k → ¬ p ∣ k) : k.Prime := by
  by_contra hnp
  exact h k.minFac (Nat.minFac_prime (by omega))
    (lt_of_le_of_ne (Nat.minFac_le (by omega)) fun e => hnp (e ▸ Nat.minFac_prime (by omega))) (Nat.minFac_dvd k)

/-- The trial-division set holds the primes up to the bound (rule R161). -/
theorem mem_primesUpTo (b p : Nat) : p ∈ primesUpTo b ↔ p.Prime ∧ p ≤ b := by
  induction b generalizing p with
  | zero =>
    simp only [primesUpTo, List.not_mem_nil, false_iff, not_and]
    intro hp; have := hp.two_le; omega
  | succ b ih =>
    have hprime : (2 ≤ b + 1 ∧ ∀ q ∈ primesUpTo b, (b + 1) % q ≠ 0) ↔ (b + 1).Prime := by
      constructor
      · rintro ⟨h2, hall⟩
        refine prime_of_no_smaller_prime_factor h2 fun q hq hlt hdvd => ?_
        exact hall q ((ih q).2 ⟨hq, by omega⟩) (Nat.mod_eq_zero_of_dvd hdvd)
      · intro hp
        refine ⟨hp.two_le, fun q hq hmod => ?_⟩
        obtain ⟨hqp, hqb⟩ := (ih q).1 hq
        rcases hp.eq_one_or_self_of_dvd q (Nat.dvd_of_mod_eq_zero hmod) with h | h
        · exact hqp.one_lt.ne' h
        · omega
    have hcond : (decide (2 ≤ b + 1) && (primesUpTo b).all fun q => decide ((b + 1) % q ≠ 0)) = true ↔ (b + 1).Prime := by
      rw [← hprime]; simp
    simp only [primesUpTo]
    by_cases hb : (b + 1).Prime
    · rw [if_pos (hcond.2 hb), List.mem_append, List.mem_singleton, ih]
      constructor
      · rintro (⟨h1, h2⟩ | rfl)
        · exact ⟨h1, by omega⟩
        · exact ⟨hb, le_refl _⟩
      · rintro ⟨h1, h2⟩
        rcases Nat.lt_or_ge p (b + 1) with h | h
        · exact .inl ⟨h1, by omega⟩
        · exact .inr (by omega)
    · rw [if_neg (fun h => hb (hcond.1 h)), ih]
      constructor
      · rintro ⟨h1, h2⟩; exact ⟨h1, by omega⟩
      · rintro ⟨h1, h2⟩
        refine ⟨h1, ?_⟩
        rcases Nat.lt_or_ge p (b + 1) with h | h
        · omega
        · exact absurd (show (b + 1).Prime by rwa [show b + 1 = p by omega]) hb

/-- What trial division by a list of primes answers (rule R160). -/
theorem trialDivision_spec (c : Nat) (ps : List Nat) (hps : ∀ p ∈ ps, p.Prime) :
    (c.Prime → c ∈ ps → trialDivision c ps = some true) ∧
      (¬ c.Prime → (∃ p ∈ ps, p ∣ c) → trialDivision c ps = some false) ∧
      ((∀ p ∈ ps, ¬ p ∣ c) → trialDivision c ps = none) := by
  induction ps with
  | nil => simp [trialDivision]
  | cons p ps ih =>
    have hp : p.Prime := hps p (by simp)
    obtain ⟨ih1, ih2, ih3⟩ := ih fun q hq => hps q (by simp [hq])
    refine ⟨fun hc hmem => ?_, fun hc hex => ?_, fun hall => ?_⟩
    · rw [trialDivision]
      by_cases hcp : c = p
      · simp [hcp]
      · have hnd : c % p ≠ 0 := fun h => by
          rcases hc.eq_one_or_self_of_dvd p (Nat.dvd_of_mod_eq_zero h) with h | h
          · exact hp.one_lt.ne' h
          · exact hcp h.symm
        rw [if_neg hcp, if_neg hnd]
        exact ih1 hc (by simpa [hcp] using hmem)
    · rw [trialDivision]
      have hcp : c ≠ p := fun h => hc (h ▸ hp)
      rw [if_neg hcp]
      split
      · rfl
      · next hnd =>
        refine ih2 hc ?_
        obtain ⟨q, hq, hdvd⟩ := hex
        rcases List.mem_cons.1 hq with rfl | hq
        · exact absurd (Nat.mod_eq_zero_of_dvd hdvd) hnd
        · exact ⟨q, hq, hdvd⟩
    · rw [trialDivision]
      have hnd : ¬ p ∣ c := hall p (by simp)
      have hcp : c ≠ p := fun h => hnd (h ▸ dvd_refl _)
      rw [if_neg hcp, if_neg fun h => hnd (Nat.dvd_of_mod_eq_zero h)]
      exact ih3 fun q hq => hall q (by simp [hq])

/-- `splitTwos` answers m = 2^s * d with d odd (rule R160). -/
theorem splitTwos_spec (fuel m : Nat) (hm : 0 < m) (hf : m < 2 ^ fuel) :
    m = 2 ^ (splitTwos fuel m).1 * (splitTwos fuel m).2 ∧ (splitTwos fuel m).2 % 2 = 1 := by
  induction fuel generalizing m with
  | zero => simp at hf; omega
  | succ fuel ih =>
    rw [splitTwos]
    split
    · next h =>
      obtain ⟨h1, h2⟩ := ih (m / 2) (by omega) (by rw [pow_succ] at hf; omega)
      refine ⟨?_, h2⟩
      rw [pow_succ, Nat.mul_comm (2 ^ _) 2, Nat.mul_assoc, ← h1]
      omega
    · next h =>
      simp
      omega

/-- The repeated squarings find c - 1 among y^(2^1), ..., y^(2^k) (rule R162). -/
theorem mrSquares_iff (c k y : Nat) :
    mrSquares c k y = true ↔ ∃ j, 1 ≤ j ∧ j ≤ k ∧ y ^ 2 ^ j % c = c - 1 := by
  induction k generalizing y with
  | zero =>
    simp only [mrSquares, Bool.false_eq_true, false_iff, not_exists, not_and]
    intro j h1 h2; omega
  | succ k ih =>
    have hstep : ∀ j, (y * y % c) ^ 2 ^ j % c = y ^ 2 ^ (j + 1) % c := fun j => by
      rw [← Nat.pow_mod, ← pow_two, ← pow_mul, ← pow_succ']
    rw [mrSquares]
    split
    · next h =>
      simp only [true_iff]
      exact ⟨1, le_refl _, by omega, by simpa [pow_two] using h⟩
    · next h =>
      rw [ih]
      constructor
      · rintro ⟨j, h1, h2, h3⟩
        exact ⟨j + 1, by omega, by omega, by rw [← hstep]; exact h3⟩
      · rintro ⟨j, h1, h2, h3⟩
        rcases Nat.lt_or_ge j 2 with hj | hj
        · have : j = 1 := by omega
          subst this
          exact absurd (by simpa [pow_two] using h3) h
        · refine ⟨j - 1, by omega, by omega, ?_⟩
          rw [hstep, show j - 1 + 1 = j by omega]
          exact h3

end Sys2Proof.Machine
end

