-- ==== Sys2Proof/Laws/State.lean ====
section
/-! SUPPORT. One lemma per field per update of State, each true by rfl, and the register reads after each update. -/

namespace Sys2Proof.Machine

@[simp] theorem State.complete_params (s : State) : s.complete.params = s.params := rfl
@[simp] theorem State.complete_x (s : State) : s.complete.x = s.x := rfl
@[simp] theorem State.complete_buf (s : State) : s.complete.buf = s.buf := rfl
@[simp] theorem State.complete_status (s : State) : s.complete.status = { s.status with done := true, busy := false } := rfl
@[simp] theorem State.complete_errcode (s : State) : s.complete.errcode = .ok := rfl
@[simp] theorem State.complete_cur (s : State) : s.complete.cur = s.cur := rfl
@[simp] theorem State.complete_res (s : State) : s.complete.res = s.res := rfl
@[simp] theorem State.complete_csr (s : State) : s.complete.csr = s.csr := rfl
@[simp] theorem State.complete_snap (s : State) : s.complete.snap = s.snap := rfl
@[simp] theorem State.complete_doneIe (s : State) : s.complete.doneIe = s.doneIe := rfl
@[simp] theorem State.complete_agenda (s : State) : s.complete.agenda = s.agenda := rfl
@[simp] theorem State.complete_rng (s : State) : s.complete.rng = s.rng := rfl
@[simp] theorem State.complete_draws (s : State) : s.complete.draws = s.draws := rfl
@[simp] theorem State.complete_reply (s : State) : s.complete.reply = s.reply := rfl

@[simp] theorem State.raise_params (e : ErrCode) (s : State) : (s.raise e).params = s.params := rfl
@[simp] theorem State.raise_x (e : ErrCode) (s : State) : (s.raise e).x = s.x := rfl
@[simp] theorem State.raise_buf (e : ErrCode) (s : State) : (s.raise e).buf = s.buf := rfl
@[simp] theorem State.raise_status (e : ErrCode) (s : State) : (s.raise e).status = { s.status with done := true, busy := false, rngf := s.status.rngf || decide (e = .rngUnavailable) } := rfl
@[simp] theorem State.raise_errcode (e : ErrCode) (s : State) : (s.raise e).errcode = e := rfl
@[simp] theorem State.raise_cur (e : ErrCode) (s : State) : (s.raise e).cur = s.cur := rfl
@[simp] theorem State.raise_res (e : ErrCode) (s : State) : (s.raise e).res = s.res := rfl
@[simp] theorem State.raise_csr (e : ErrCode) (s : State) : (s.raise e).csr = s.csr := rfl
@[simp] theorem State.raise_snap (e : ErrCode) (s : State) : (s.raise e).snap = s.snap := rfl
@[simp] theorem State.raise_doneIe (e : ErrCode) (s : State) : (s.raise e).doneIe = s.doneIe := rfl
@[simp] theorem State.raise_agenda (e : ErrCode) (s : State) : (s.raise e).agenda = s.agenda := rfl
@[simp] theorem State.raise_rng (e : ErrCode) (s : State) : (s.raise e).rng = s.rng := rfl
@[simp] theorem State.raise_draws (e : ErrCode) (s : State) : (s.raise e).draws = s.draws := rfl
@[simp] theorem State.raise_reply (e : ErrCode) (s : State) : (s.raise e).reply = s.reply := rfl

@[simp] theorem State.setReg_params (r : Reg) (v : Nat) (s : State) : (s.setReg r v).params = s.params := rfl
@[simp] theorem State.setReg_x (r : Reg) (v : Nat) (s : State) : (s.setReg r v).x = s.x.set r.val v r.isLt := rfl
@[simp] theorem State.setReg_buf (r : Reg) (v : Nat) (s : State) : (s.setReg r v).buf = s.buf := rfl
@[simp] theorem State.setReg_status (r : Reg) (v : Nat) (s : State) : (s.setReg r v).status = s.status := rfl
@[simp] theorem State.setReg_errcode (r : Reg) (v : Nat) (s : State) : (s.setReg r v).errcode = s.errcode := rfl
@[simp] theorem State.setReg_cur (r : Reg) (v : Nat) (s : State) : (s.setReg r v).cur = s.cur := rfl
@[simp] theorem State.setReg_res (r : Reg) (v : Nat) (s : State) : (s.setReg r v).res = s.res := rfl
@[simp] theorem State.setReg_csr (r : Reg) (v : Nat) (s : State) : (s.setReg r v).csr = s.csr := rfl
@[simp] theorem State.setReg_snap (r : Reg) (v : Nat) (s : State) : (s.setReg r v).snap = s.snap := rfl
@[simp] theorem State.setReg_doneIe (r : Reg) (v : Nat) (s : State) : (s.setReg r v).doneIe = s.doneIe := rfl
@[simp] theorem State.setReg_agenda (r : Reg) (v : Nat) (s : State) : (s.setReg r v).agenda = s.agenda := rfl
@[simp] theorem State.setReg_rng (r : Reg) (v : Nat) (s : State) : (s.setReg r v).rng = s.rng := rfl
@[simp] theorem State.setReg_draws (r : Reg) (v : Nat) (s : State) : (s.setReg r v).draws = s.draws := rfl
@[simp] theorem State.setReg_reply (r : Reg) (v : Nat) (s : State) : (s.setReg r v).reply = s.reply := rfl

@[simp] theorem State.setRes_params (w : Word) (s : State) : (s.setRes w).params = s.params := rfl
@[simp] theorem State.setRes_x (w : Word) (s : State) : (s.setRes w).x = s.x := rfl
@[simp] theorem State.setRes_buf (w : Word) (s : State) : (s.setRes w).buf = s.buf := rfl
@[simp] theorem State.setRes_status (w : Word) (s : State) : (s.setRes w).status = s.status := rfl
@[simp] theorem State.setRes_errcode (w : Word) (s : State) : (s.setRes w).errcode = s.errcode := rfl
@[simp] theorem State.setRes_cur (w : Word) (s : State) : (s.setRes w).cur = s.cur := rfl
@[simp] theorem State.setRes_res (w : Word) (s : State) : (s.setRes w).res = w := rfl
@[simp] theorem State.setRes_csr (w : Word) (s : State) : (s.setRes w).csr = s.csr := rfl
@[simp] theorem State.setRes_snap (w : Word) (s : State) : (s.setRes w).snap = s.snap := rfl
@[simp] theorem State.setRes_doneIe (w : Word) (s : State) : (s.setRes w).doneIe = s.doneIe := rfl
@[simp] theorem State.setRes_agenda (w : Word) (s : State) : (s.setRes w).agenda = s.agenda := rfl
@[simp] theorem State.setRes_rng (w : Word) (s : State) : (s.setRes w).rng = s.rng := rfl
@[simp] theorem State.setRes_draws (w : Word) (s : State) : (s.setRes w).draws = s.draws := rfl
@[simp] theorem State.setRes_reply (w : Word) (s : State) : (s.setRes w).reply = s.reply := rfl

@[simp] theorem State.writeBuf_params (a : Nat) (bytes : List Byte) (s : State) : (s.writeBuf a bytes).params = s.params := rfl
@[simp] theorem State.writeBuf_x (a : Nat) (bytes : List Byte) (s : State) : (s.writeBuf a bytes).x = s.x := rfl
@[simp] theorem State.writeBuf_buf (a : Nat) (bytes : List Byte) (s : State) : (s.writeBuf a bytes).buf = s.buf.writeBytes a bytes := rfl
@[simp] theorem State.writeBuf_status (a : Nat) (bytes : List Byte) (s : State) : (s.writeBuf a bytes).status = s.status := rfl
@[simp] theorem State.writeBuf_errcode (a : Nat) (bytes : List Byte) (s : State) : (s.writeBuf a bytes).errcode = s.errcode := rfl
@[simp] theorem State.writeBuf_cur (a : Nat) (bytes : List Byte) (s : State) : (s.writeBuf a bytes).cur = s.cur := rfl
@[simp] theorem State.writeBuf_res (a : Nat) (bytes : List Byte) (s : State) : (s.writeBuf a bytes).res = s.res := rfl
@[simp] theorem State.writeBuf_csr (a : Nat) (bytes : List Byte) (s : State) : (s.writeBuf a bytes).csr = s.csr := rfl
@[simp] theorem State.writeBuf_snap (a : Nat) (bytes : List Byte) (s : State) : (s.writeBuf a bytes).snap = s.snap := rfl
@[simp] theorem State.writeBuf_doneIe (a : Nat) (bytes : List Byte) (s : State) : (s.writeBuf a bytes).doneIe = s.doneIe := rfl
@[simp] theorem State.writeBuf_agenda (a : Nat) (bytes : List Byte) (s : State) : (s.writeBuf a bytes).agenda = s.agenda := rfl
@[simp] theorem State.writeBuf_rng (a : Nat) (bytes : List Byte) (s : State) : (s.writeBuf a bytes).rng = s.rng := rfl
@[simp] theorem State.writeBuf_draws (a : Nat) (bytes : List Byte) (s : State) : (s.writeBuf a bytes).draws = s.draws := rfl
@[simp] theorem State.writeBuf_reply (a : Nat) (bytes : List Byte) (s : State) : (s.writeBuf a bytes).reply = s.reply := rfl

@[simp] theorem State.issue_params (w : Word) (s : State) : (s.issue w).params = s.params := rfl
@[simp] theorem State.issue_x (w : Word) (s : State) : (s.issue w).x = s.x := rfl
@[simp] theorem State.issue_buf (w : Word) (s : State) : (s.issue w).buf = s.buf := rfl
@[simp] theorem State.issue_status (w : Word) (s : State) : (s.issue w).status = { s.status with done := false, busy := true } := rfl
@[simp] theorem State.issue_errcode (w : Word) (s : State) : (s.issue w).errcode = s.errcode := rfl
@[simp] theorem State.issue_cur (w : Word) (s : State) : (s.issue w).cur = w := rfl
@[simp] theorem State.issue_res (w : Word) (s : State) : (s.issue w).res = s.res := rfl
@[simp] theorem State.issue_csr (w : Word) (s : State) : (s.issue w).csr = s.csr := rfl
@[simp] theorem State.issue_snap (w : Word) (s : State) : (s.issue w).snap = s.csr := rfl
@[simp] theorem State.issue_doneIe (w : Word) (s : State) : (s.issue w).doneIe = s.doneIe := rfl
@[simp] theorem State.issue_agenda (w : Word) (s : State) : (s.issue w).agenda = s.agenda := rfl
@[simp] theorem State.issue_rng (w : Word) (s : State) : (s.issue w).rng = s.rng := rfl
@[simp] theorem State.issue_draws (w : Word) (s : State) : (s.issue w).draws = s.draws := rfl
@[simp] theorem State.issue_reply (w : Word) (s : State) : (s.issue w).reply = s.reply := rfl

@[simp] theorem State.accessError_params (s : State) : s.accessError.params = s.params := rfl
@[simp] theorem State.accessError_x (s : State) : s.accessError.x = s.x := rfl
@[simp] theorem State.accessError_buf (s : State) : s.accessError.buf = s.buf := rfl
@[simp] theorem State.accessError_status (s : State) : s.accessError.status = { s.status with accerr := true } := rfl
@[simp] theorem State.accessError_errcode (s : State) : s.accessError.errcode = s.errcode := rfl
@[simp] theorem State.accessError_cur (s : State) : s.accessError.cur = s.cur := rfl
@[simp] theorem State.accessError_res (s : State) : s.accessError.res = s.res := rfl
@[simp] theorem State.accessError_csr (s : State) : s.accessError.csr = s.csr := rfl
@[simp] theorem State.accessError_snap (s : State) : s.accessError.snap = s.snap := rfl
@[simp] theorem State.accessError_doneIe (s : State) : s.accessError.doneIe = s.doneIe := rfl
@[simp] theorem State.accessError_agenda (s : State) : s.accessError.agenda = s.agenda := rfl
@[simp] theorem State.accessError_rng (s : State) : s.accessError.rng = s.rng := rfl
@[simp] theorem State.accessError_draws (s : State) : s.accessError.draws = s.draws := rfl
@[simp] theorem State.accessError_reply (s : State) : s.accessError.reply = s.reply := rfl

@[simp] theorem State.answer_params (w : Word) (s : State) : (s.answer w).params = s.params := rfl
@[simp] theorem State.answer_x (w : Word) (s : State) : (s.answer w).x = s.x := rfl
@[simp] theorem State.answer_buf (w : Word) (s : State) : (s.answer w).buf = s.buf := rfl
@[simp] theorem State.answer_status (w : Word) (s : State) : (s.answer w).status = s.status := rfl
@[simp] theorem State.answer_errcode (w : Word) (s : State) : (s.answer w).errcode = s.errcode := rfl
@[simp] theorem State.answer_cur (w : Word) (s : State) : (s.answer w).cur = s.cur := rfl
@[simp] theorem State.answer_res (w : Word) (s : State) : (s.answer w).res = s.res := rfl
@[simp] theorem State.answer_csr (w : Word) (s : State) : (s.answer w).csr = s.csr := rfl
@[simp] theorem State.answer_snap (w : Word) (s : State) : (s.answer w).snap = s.snap := rfl
@[simp] theorem State.answer_doneIe (w : Word) (s : State) : (s.answer w).doneIe = s.doneIe := rfl
@[simp] theorem State.answer_agenda (w : Word) (s : State) : (s.answer w).agenda = s.agenda := rfl
@[simp] theorem State.answer_rng (w : Word) (s : State) : (s.answer w).rng = s.rng := rfl
@[simp] theorem State.answer_draws (w : Word) (s : State) : (s.answer w).draws = s.draws := rfl
@[simp] theorem State.answer_reply (w : Word) (s : State) : (s.answer w).reply = .value w := rfl

@[simp] theorem State.taken_params (s : State) : s.taken.params = s.params := rfl
@[simp] theorem State.taken_x (s : State) : s.taken.x = s.x := rfl
@[simp] theorem State.taken_buf (s : State) : s.taken.buf = s.buf := rfl
@[simp] theorem State.taken_status (s : State) : s.taken.status = s.status := rfl
@[simp] theorem State.taken_errcode (s : State) : s.taken.errcode = s.errcode := rfl
@[simp] theorem State.taken_cur (s : State) : s.taken.cur = s.cur := rfl
@[simp] theorem State.taken_res (s : State) : s.taken.res = s.res := rfl
@[simp] theorem State.taken_csr (s : State) : s.taken.csr = s.csr := rfl
@[simp] theorem State.taken_snap (s : State) : s.taken.snap = s.snap := rfl
@[simp] theorem State.taken_doneIe (s : State) : s.taken.doneIe = s.doneIe := rfl
@[simp] theorem State.taken_agenda (s : State) : s.taken.agenda = s.agenda := rfl
@[simp] theorem State.taken_rng (s : State) : s.taken.rng = s.rng := rfl
@[simp] theorem State.taken_draws (s : State) : s.taken.draws = s.draws := rfl
@[simp] theorem State.taken_reply (s : State) : s.taken.reply = .written := rfl

@[simp] theorem State.resetMbe_params (s : State) : s.resetMbe.params = s.params := rfl
@[simp] theorem State.resetMbe_x (s : State) : s.resetMbe.x = Vector.replicate 16 0 := rfl
@[simp] theorem State.resetMbe_buf (s : State) : s.resetMbe.buf = [] := rfl
@[simp] theorem State.resetMbe_status (s : State) : s.resetMbe.status = Status.reset := rfl
@[simp] theorem State.resetMbe_errcode (s : State) : s.resetMbe.errcode = .ok := rfl
@[simp] theorem State.resetMbe_cur (s : State) : s.resetMbe.cur = 0 := rfl
@[simp] theorem State.resetMbe_res (s : State) : s.resetMbe.res = 0 := rfl
@[simp] theorem State.resetMbe_csr (s : State) : s.resetMbe.csr = Operands.reset := rfl
@[simp] theorem State.resetMbe_snap (s : State) : s.resetMbe.snap = Operands.reset := rfl
@[simp] theorem State.resetMbe_doneIe (s : State) : s.resetMbe.doneIe = false := rfl
@[simp] theorem State.resetMbe_agenda (s : State) : s.resetMbe.agenda = s.agenda := rfl
@[simp] theorem State.resetMbe_rng (s : State) : s.resetMbe.rng = s.rng := rfl
@[simp] theorem State.resetMbe_draws (s : State) : s.resetMbe.draws = s.draws := rfl
@[simp] theorem State.resetMbe_reply (s : State) : s.resetMbe.reply = s.reply := rfl

@[simp] theorem State.complete_reg (s : State) (q : Reg) : s.complete.reg q = s.reg q := rfl
@[simp] theorem State.raise_reg (e : ErrCode) (s : State) (q : Reg) : (s.raise e).reg q = s.reg q := rfl
@[simp] theorem State.setRes_reg (w : Word) (s : State) (q : Reg) : (s.setRes w).reg q = s.reg q := rfl
@[simp] theorem State.writeBuf_reg (a : Nat) (bytes : List Byte) (s : State) (q : Reg) : (s.writeBuf a bytes).reg q = s.reg q := rfl
@[simp] theorem State.issue_reg (w : Word) (s : State) (q : Reg) : (s.issue w).reg q = s.reg q := rfl
@[simp] theorem State.accessError_reg (s : State) (q : Reg) : s.accessError.reg q = s.reg q := rfl
@[simp] theorem State.answer_reg (w : Word) (s : State) (q : Reg) : (s.answer w).reg q = s.reg q := rfl
@[simp] theorem State.taken_reg (s : State) (q : Reg) : s.taken.reg q = s.reg q := rfl

@[simp] theorem State.setReg_reg_same (r : Reg) (v : Nat) (s : State) : (s.setReg r v).reg r = v := by
  simp [State.reg]

@[simp] theorem State.setReg_reg_ne {r q : Reg} (h : q ≠ r) (v : Nat) (s : State) : (s.setReg r v).reg q = s.reg q := by
  have hv : r.val ≠ q.val := fun e => h (Fin.ext e.symm)
  simp [State.reg, hv]

/-- A register after a register write, as a case split. -/
theorem State.setReg_reg (r q : Reg) (v : Nat) (s : State) : (s.setReg r v).reg q = if q = r then v else s.reg q := by
  split
  · next h => subst h; simp
  · next h => simp [h]

@[simp] theorem State.resetMbe_reg (s : State) (q : Reg) : s.resetMbe.reg q = 0 := by
  simp [State.reg]

@[simp] theorem State.reset_reg (q : Reg) : State.reset.reg q = 0 := by
  simp [State.reg, State.reset]

/-- Two states with the same registers, one by one, have the same register file. -/
theorem State.x_ext {s t : State} (h : ∀ r : Reg, t.reg r = s.reg r) : t.x = s.x := by
  apply Vector.ext
  intro i hi
  exact h ⟨i, hi⟩

end Sys2Proof.Machine
end

