-- ==== Sys2Proof/Laws/Ops.lean ====
section
/-! SUPPORT. What each shared operation of the commands can do: the draws, the Miller-Rabin rounds, the range and capacity
checks, and the two ends of a completion. -/

namespace Sys2Proof.Machine

/-- t is s but for the oracle's history. -/
def OnlyDraws (s t : State) : Prop := t = { s with rng := t.rng, draws := t.draws }

theorem OnlyDraws.refl (s : State) : OnlyDraws s s := rfl

theorem OnlyDraws.trans {s t u : State} (h : OnlyDraws s t) (h' : OnlyDraws t u) : OnlyDraws s u := by
  unfold OnlyDraws at *
  rw [h', h]

theorem State.askOracle_frame (s : State) : OnlyDraws s s.askOracle.2 := by
  unfold State.askOracle
  split <;> rfl

/-- A draw changes nothing but the oracle's history (rules R14 and R40). -/
theorem State.draw_frame (s : State) : OnlyDraws s s.draw.2 := by
  have h := s.askOracle_frame
  unfold State.draw
  split
  · rfl
  · generalize s.askOracle = p at h
    obtain ⟨_ | _, s'⟩ := p <;> exact h

theorem State.drawBytes_frame (k : Nat) (s : State) : OnlyDraws s (s.drawBytes k).2 := by
  have h := s.draw_frame
  unfold State.drawBytes
  generalize s.draw = p at h
  obtain ⟨_ | _, s'⟩ := p <;> exact h

theorem State.drawRange_frame (lo hi : Nat) (s : State) : OnlyDraws s (s.drawRange lo hi).2 := by
  have h := s.draw_frame
  unfold State.drawRange
  generalize s.draw = p at h
  obtain ⟨_ | _, s'⟩ := p <;> exact h

/-- The Miller-Rabin rounds change nothing but the oracle's history. -/
theorem State.mrRounds_frame (c t : Nat) (s : State) : OnlyDraws s (s.mrRounds c t).2 := by
  induction t generalizing s with
  | zero => rfl
  | succ t ih =>
    have h := s.drawRange_frame 2 (c - 2)
    unfold State.mrRounds
    generalize s.drawRange 2 (c - 2) = p at h
    obtain ⟨_ | a, s'⟩ := p
    · exact h
    · simp only
      split
      · exact h.trans (ih s')
      · exact h

/-- While RNGF = 1 a draw fails and the oracle is not asked (rule R234). -/
theorem State.draw_of_rngf {s : State} (h : s.status.rngf = true) : s.draw = (none, s) := by
  simp [State.draw, h]

/-- A draw that the environment has decided to fail. -/
theorem State.draw_of_fail {s : State} {rest : List RngAnswer} (h : s.status.rngf = false) (hr : s.rng = .fail :: rest) :
    s.draw = (none, { s with rng := rest, draws := s.draws + 1 }) := by
  simp [State.draw, State.askOracle, h, hr]

/-- A draw that the environment has answered. -/
theorem State.draw_of_value {s : State} {n : Nat} {rest : List RngAnswer} (h : s.status.rngf = false)
    (hr : s.rng = .value n :: rest) : s.draw = (some n, { s with rng := rest, draws := s.draws + 1 }) := by
  simp [State.draw, State.askOracle, h, hr]

/-- The bytes an answer stands for are as many as were asked for. -/
@[simp] theorem length_answerBytes (k n : Nat) : (answerBytes k n).length = k := by simp [answerBytes]

/-- Every string of k bytes is some answer to RngBytes(k) (rule R14). -/
theorem answerBytes_be (bytes : List Byte) : answerBytes bytes.length (be bytes) = bytes := by
  rw [answerBytes, Nat.mod_eq_of_lt (be_lt bytes), i2osp_be]

/-- An answer to RngRange(lo, hi) lies in the range (rule R14). -/
theorem answerRange_mem {lo hi : Nat} (h : lo ≤ hi) (n : Nat) : lo ≤ answerRange lo hi n ∧ answerRange lo hi n ≤ hi := by
  unfold answerRange
  split
  · next h' => exact h'
  · have := Nat.mod_lt n (show 0 < hi - lo + 1 by omega)
    omega

/-- Every natural of the range is some answer to RngRange(lo, hi) (rule R14). -/
theorem answerRange_of_mem {lo hi n : Nat} (h1 : lo ≤ n) (h2 : n ≤ hi) : answerRange lo hi n = n := by
  simp [answerRange, h1, h2]

/-- A byte draw while RNGF = 1 (rule R234). -/
theorem State.drawBytes_of_rngf {s : State} (k : Nat) (h : s.status.rngf = true) : s.drawBytes k = (none, s) := by
  simp only [State.drawBytes, State.draw_of_rngf h]

/-- A byte draw that the environment has decided to fail. -/
theorem State.drawBytes_of_fail {s : State} {rest : List RngAnswer} (k : Nat) (h : s.status.rngf = false)
    (hr : s.rng = .fail :: rest) : s.drawBytes k = (none, { s with rng := rest, draws := s.draws + 1 }) := by
  simp only [State.drawBytes, State.draw_of_fail h hr]

/-- A byte draw that the environment has answered. -/
theorem State.drawBytes_of_value {s : State} {n : Nat} {rest : List RngAnswer} (k : Nat) (h : s.status.rngf = false)
    (hr : s.rng = .value n :: rest) :
    s.drawBytes k = (some (answerBytes k n), { s with rng := rest, draws := s.draws + 1 }) := by
  simp only [State.drawBytes, State.draw_of_value h hr]

/-- A byte draw that succeeds gives as many bytes as were asked for (rule R14). -/
theorem State.length_of_drawBytes {s s' : State} {k : Nat} {d : List Byte} (h : s.drawBytes k = (some d, s')) :
    d.length = k := by
  unfold State.drawBytes at h
  split at h <;> cases h
  simp

/-- RANDBITS's value bit by bit (rule R144). -/
theorem randbitsValue_testBit (nb : Nat) (odd : Bool) (d : List Byte) (j : Nat) :
    (randbitsValue nb odd d).testBit j =
      ((decide (j < nb) && (be d).testBit j) || decide (j = nb - 1) || (odd && decide (j = 0))) := by
  have h1 : Nat.testBit 1 j = decide (j = 0) := by
    rw [Nat.testBit_eq_decide_div_mod_eq]
    rcases Nat.eq_zero_or_pos j with rfl | hj
    · simp
    · rw [Nat.div_eq_of_lt (Nat.one_lt_two_pow (by omega))]
      simp [show ¬ j = 0 by omega]
  cases odd <;> simp [randbitsValue, h1, Nat.testBit_or, Nat.testBit_mod_two_pow, Nat.testBit_two_pow, eq_comm]

/-- Miller-Rabin rounds on answered draws: every base passes, and the rounds end with the history consumed. -/
theorem State.mrRounds_of_values {c : Nat} (ns : List Nat) (rest : List RngAnswer) (s : State)
    (hr : s.rng = ns.map RngAnswer.value ++ rest) (hf : s.status.rngf = false)
    (hp : ∀ n ∈ ns, mrPasses c (answerRange 2 (c - 2) n) = true) (t : Nat) :
    s.mrRounds c (ns.length + t) =
      ({ s with rng := rest, draws := s.draws + ns.length } : State).mrRounds c t := by
  induction ns generalizing s with
  | nil =>
    obtain rfl : s.rng = rest := by simpa using hr
    simp
  | cons n ns ih =>
    have hd := State.draw_of_value (rest := ns.map RngAnswer.value ++ rest) hf (by simpa using hr)
    have hn : mrPasses c (answerRange 2 (c - 2) n) = true := hp n (by simp)
    rw [List.length_cons, show ns.length + 1 + t = ns.length + t + 1 by omega, State.mrRounds, State.drawRange, hd]
    simp only [hn, if_true]
    refine (ih { s with rng := ns.map RngAnswer.value ++ rest, draws := s.draws + 1 } rfl hf
      fun m hm => hp m (by simp [hm])).trans ?_
    simp only [show s.draws + 1 + ns.length = s.draws + (ns.length + 1) by omega]

/-- A value fits a register iff it is below 2^MAXBITS (rules R20 and R116). -/
theorem State.fits_iff (s : State) (v : Nat) : s.fits v = true ↔ v < 2 ^ s.params.maxbits := by
  simp [State.fits, bitlen_le_iff]

/-- What `completeReg` does (rule R116). -/
theorem State.completeReg_cases (rd : Reg) (v : Nat) (s : State) :
    (v < 2 ^ s.params.maxbits ∧ s.completeReg rd v = (s.setReg rd v).complete) ∨
      (2 ^ s.params.maxbits ≤ v ∧ s.completeReg rd v = s.raise .capacity) := by
  by_cases h : v < 2 ^ s.params.maxbits
  · exact .inl ⟨h, by simp [State.completeReg, (s.fits_iff v).2 h]⟩
  · refine .inr ⟨by omega, ?_⟩
    have : s.fits v = false := by
      rw [← Bool.not_eq_true, State.fits_iff]; exact h
    simp [State.completeReg, this]

@[simp] theorem State.inRange_iff (s : State) (a n : Nat) : s.inRange a n = true ↔ a + n ≤ s.params.bufsz := by
  simp [State.inRange]

/-- One Miller-Rabin round, spelled out for odd c >= 3 (rule R162). -/
theorem mrPasses_iff {c a : Nat} (hc : 2 < c) (hodd : c % 2 = 1) :
    ∃ s d : Nat, c - 1 = 2 ^ s * d ∧ d % 2 = 1 ∧ 1 ≤ s ∧
      (mrPasses c a = true ↔
        (a ^ d % c = 1 ∨ a ^ d % c = c - 1 ∨ ∃ j, 1 ≤ j ∧ j < s ∧ a ^ (d * 2 ^ j) % c = c - 1)) := by
  have hlt : c - 1 < 2 ^ bitlen c := lt_of_le_of_lt (Nat.sub_le _ _) (lt_two_pow_bitlen c)
  obtain ⟨h1, h2⟩ := splitTwos_spec (bitlen c) (c - 1) (by omega) hlt
  refine ⟨(splitTwos (bitlen c) (c - 1)).1, (splitTwos (bitlen c) (c - 1)).2, h1, h2, ?_, ?_⟩
  · by_contra hs
    have hs0 : (splitTwos (bitlen c) (c - 1)).1 = 0 := by omega
    rw [hs0] at h1
    omega
  · generalize hp : splitTwos (bitlen c) (c - 1) = p at *
    obtain ⟨s, d⟩ := p
    have hpow : ∀ j, (a ^ d % c) ^ 2 ^ j % c = a ^ (d * 2 ^ j) % c := fun j => by
      rw [← Nat.pow_mod, ← pow_mul]
    simp only [mrPasses, hp, mrRound, modPow_eq]
    by_cases h : a ^ d % c = 1 ∨ a ^ d % c = c - 1
    · rw [if_pos h]
      simp only [true_iff]
      rcases h with h | h
      · exact .inl h
      · exact .inr (.inl h)
    · rw [if_neg h, mrSquares_iff]
      simp only [hpow]
      constructor
      · rintro ⟨j, h1, h2, h3⟩
        exact .inr (.inr ⟨j, h1, by omega, h3⟩)
      · rintro (h' | h' | ⟨j, h1, h2, h3⟩)
        · exact absurd (.inl h') h
        · exact absurd (.inr h') h
        · exact ⟨j, h1, by omega, h3⟩

end Sys2Proof.Machine
end

