-- ==== Sys2Proof/Laws/Commands.lean ====
section
/-! SUPPORT. What the completion of a command can do, once for all commands: every claim about all of them follows from
`exec_ends`. -/

namespace Sys2Proof.Machine

/-- The commands that draw from the oracle (rule R148). -/
def isDrawing : Instr → Bool
  | .randbits _ => true
  | .randbitsOdd _ => true
  | .isprime _ => true
  | .oaepPad => true
  | _ => false

/-- The commands whose success writes RES (rules R34 and R213). -/
def isResWriting : Instr → Bool
  | .cmp _ _ => true
  | .bitlen _ => true
  | .tobytes _ => true
  | .isprime _ => true
  | .oaepUnpad => true
  | .zeroize => true
  | _ => false

/-- A failed completion: the error exit after the draws made, with a code the engine may write. -/
def FailsFrom (draws : Bool) (s t : State) : Prop :=
  ∃ s' e, OnlyDraws s s' ∧ (draws = false → s' = s) ∧ e ≠ ErrCode.ok ∧ e.hostOnly = false ∧ t = s'.raise e

/-- A successful completion: registers, BUF and RES written after the draws made. -/
def SucceedsFrom (draws writesRes : Bool) (s t : State) : Prop :=
  ∃ s' x buf res, OnlyDraws s s' ∧ (draws = false → s' = s) ∧ (writesRes = false → res = s.res) ∧
    t = { s' with x := x, buf := buf, res := res }.complete

theorem FailsFrom.of_raise (d : Bool) (s : State) (e : ErrCode) (h : e ≠ .ok) (h' : e.hostOnly = false) :
    FailsFrom d s (s.raise e) := ⟨s, e, OnlyDraws.refl s, fun _ => rfl, h, h', rfl⟩

theorem FailsFrom.of_drawn {s s' : State} (hd : OnlyDraws s s') : FailsFrom true s (s'.raise .rngUnavailable) :=
  ⟨s', .rngUnavailable, hd, by simp, by simp, rfl, rfl⟩

theorem SucceedsFrom.of_complete (d r : Bool) {s u : State} (h : u = { s with x := u.x, buf := u.buf, res := u.res })
    (hr : r = false → u.res = s.res) : SucceedsFrom d r s u.complete :=
  ⟨s, u.x, u.buf, u.res, OnlyDraws.refl s, fun _ => rfl, hr, by rw [← h]⟩

theorem SucceedsFrom.of_drawn (r : Bool) {s s' u : State} (hd : OnlyDraws s s')
    (h : u = { s' with x := u.x, buf := u.buf, res := u.res }) (hr : r = false → u.res = s.res) :
    SucceedsFrom true r s u.complete := ⟨s', u.x, u.buf, u.res, hd, by simp, hr, by rw [← h]⟩

theorem OnlyDraws.res {s t : State} (h : OnlyDraws s t) : t.res = s.res := by rw [h]

/-- RANDBITS ends in one of the two ways. -/
theorem State.randbits_ends (odd : Bool) (rd : Reg) (s : State) :
    ∃ t, s.randbits odd rd = .next t ∧ (FailsFrom true s t ∨ SucceedsFrom true false s t) := by
  simp only [State.randbits]
  split
  · exact ⟨_, rfl, .inl (.of_raise _ s _ (by simp) rfl)⟩
  · split
    · exact ⟨_, rfl, .inl (.of_raise _ s _ (by simp) rfl)⟩
    · have hd := s.drawBytes_frame ((s.arg5 + 7) / 8)
      generalize s.drawBytes ((s.arg5 + 7) / 8) = p at hd
      obtain ⟨_ | draw, s'⟩ := p
      · exact ⟨_, rfl, .inl (.of_drawn hd)⟩
      · exact ⟨_, rfl, .inr (.of_drawn _ hd rfl fun _ => hd.res)⟩

theorem State.completeReg_ends (rd : Reg) (v : Nat) (s : State) :
    FailsFrom false s (s.completeReg rd v) ∨ SucceedsFrom false false s (s.completeReg rd v) := by
  rcases s.completeReg_cases rd v with ⟨-, h⟩ | ⟨-, h⟩ <;> rw [h]
  · exact .inr (.of_complete _ _ rfl fun _ => rfl)
  · exact .inl (.of_raise _ s _ (by simp) rfl)

theorem execIsprime_ends (rs1 : Reg) (s : State) :
    ∃ t, execIsprime rs1 s = .next t ∧ (FailsFrom true s t ∨ SucceedsFrom true true s t) := by
  simp only [execIsprime]
  split
  · exact ⟨_, rfl, .inl (.of_raise _ s _ (by simp) rfl)⟩
  · split
    · exact ⟨_, rfl, .inr (.of_complete _ _ rfl (by simp))⟩
    · split
      · exact ⟨_, rfl, .inr (.of_complete _ _ rfl (by simp))⟩
      · have hd := s.mrRounds_frame (s.reg rs1) s.rounds
        generalize s.mrRounds (s.reg rs1) s.rounds = p at hd
        obtain ⟨_ | v, s'⟩ := p
        · exact ⟨_, rfl, .inl (.of_drawn hd)⟩
        · exact ⟨_, rfl, .inr (.of_drawn _ hd rfl (by simp))⟩

theorem execOaepPad_ends (s : State) :
    ∃ t, execOaepPad s = .next t ∧ (FailsFrom true s t ∨ SucceedsFrom true false s t) := by
  simp only [execOaepPad]
  split
  · next hs ms _ _ =>
    split
    · split
      · exact ⟨_, rfl, .inl (.of_raise _ s _ (by simp) rfl)⟩
      · have hd := s.drawBytes_frame (hashLen hs)
        generalize s.drawBytes (hashLen hs) = p at hd
        obtain ⟨_ | seed, s'⟩ := p
        · exact ⟨_, rfl, .inl (.of_drawn hd)⟩
        · exact ⟨_, rfl, .inr (.of_drawn _ hd rfl fun _ => hd.res)⟩
    · exact ⟨_, rfl, .inl (.of_raise _ s _ (by simp) rfl)⟩
  · exact ⟨_, rfl, .inl (.of_raise _ s _ (by simp) rfl)⟩

/-- Every command completes, in one of the two ways (rules R24, R230, R235). -/
theorem exec_ends (i : Instr) (s : State) :
    ∃ t, exec i s = .next t ∧ (FailsFrom (isDrawing i) s t ∨ SucceedsFrom (isDrawing i) (isResWriting i) s t) := by
  cases i with
  | nop => exact ⟨_, rfl, .inr (.of_complete _ _ rfl fun _ => rfl)⟩
  | mov rd rs1 => exact ⟨_, rfl, .inr (.of_complete _ _ rfl fun _ => rfl)⟩
  | ldi rd => exact ⟨_, rfl, .inr (.of_complete _ _ rfl fun _ => rfl)⟩
  | zeroize => exact ⟨_, rfl, .inr ⟨s, _, _, _, OnlyDraws.refl s, fun _ => rfl, by simp [isResWriting], rfl⟩⟩
  | add rd rs1 rs2 => exact ⟨_, rfl, s.completeReg_ends rd _⟩
  | mul rd rs1 rs2 => exact ⟨_, rfl, s.completeReg_ends rd _⟩
  | sub rd rs1 rs2 =>
    simp only [exec, execSub]
    split
    · exact ⟨_, rfl, .inl (.of_raise _ s _ (by simp) rfl)⟩
    · exact ⟨_, rfl, .inr (.of_complete _ _ rfl fun _ => rfl)⟩
  | modred rd rs1 rs2 =>
    simp only [exec, execModred]
    split
    · exact ⟨_, rfl, .inl (.of_raise _ s _ (by simp) rfl)⟩
    · exact ⟨_, rfl, .inr (.of_complete _ _ rfl fun _ => rfl)⟩
  | modpow rd rs1 rs2 rs3 =>
    simp only [exec, execModpow]
    split
    · exact ⟨_, rfl, .inl (.of_raise _ s _ (by simp) rfl)⟩
    · exact ⟨_, rfl, .inr (.of_complete _ _ rfl fun _ => rfl)⟩
  | modinv rd rs1 rs2 =>
    simp only [exec, execModinv]
    split
    · exact ⟨_, rfl, .inl (.of_raise _ s _ (by simp) rfl)⟩
    · split
      · exact ⟨_, rfl, .inl (.of_raise _ s _ (by simp) rfl)⟩
      · exact ⟨_, rfl, .inr (.of_complete _ _ rfl fun _ => rfl)⟩
  | cmp rs1 rs2 => exact ⟨_, rfl, .inr (.of_complete _ _ rfl (by simp [isResWriting]))⟩
  | bitlen rs1 => exact ⟨_, rfl, .inr (.of_complete _ _ rfl (by simp [isResWriting]))⟩
  | frombytes rd =>
    simp only [exec, execFrombytes]
    split
    · exact ⟨_, rfl, s.completeReg_ends rd _⟩
    · exact ⟨_, rfl, .inl (.of_raise _ s _ (by simp) rfl)⟩
  | tobytes rs1 =>
    simp only [exec, execTobytes]
    split
    · exact ⟨_, rfl, .inr (.of_complete _ _ rfl (by simp [isResWriting]))⟩
    · exact ⟨_, rfl, .inl (.of_raise _ s _ (by simp) rfl)⟩
  | randbits rd => exact s.randbits_ends false rd
  | randbitsOdd rd => exact s.randbits_ends true rd
  | isprime rs1 => exact execIsprime_ends rs1 s
  | mgf1 =>
    simp only [exec, execMgf1]
    split
    · exact ⟨_, rfl, .inl (.of_raise _ s _ (by simp) rfl)⟩
    · split
      · exact ⟨_, rfl, .inr (.of_complete _ _ rfl fun _ => rfl)⟩
      · exact ⟨_, rfl, .inl (.of_raise _ s _ (by simp) rfl)⟩
  | oaepPad => exact execOaepPad_ends s
  | oaepUnpad =>
    simp only [exec, execOaepUnpad]
    split
    · split
      · split
        · exact ⟨_, rfl, .inl (.of_raise _ s _ (by simp) rfl)⟩
        · split
          · exact ⟨_, rfl, .inl (.of_raise _ s _ (by simp) rfl)⟩
          · exact ⟨_, rfl, .inr (.of_complete _ _ rfl (by simp [isResWriting]))⟩
      · exact ⟨_, rfl, .inl (.of_raise _ s _ (by simp) rfl)⟩
    · exact ⟨_, rfl, .inl (.of_raise _ s _ (by simp) rfl)⟩

end Sys2Proof.Machine
end

