-- ==== Sys2Proof/Laws/Effects.lean ====
section
/-! SUPPORT. What the shared ways to end a command do, in the terms of the claims: one lemma for each of them. -/

namespace Sys2Proof.Machine

/-- The error exit with any code but RNG_UNAVAILABLE (rule R235). -/
theorem State.raise_eq_afterError (s : State) (e : ErrCode) (h : e ≠ .rngUnavailable) : s.raise e = s.afterError e := by
  simp [State.raise, State.afterError, h]

/-- The error exit with RNG_UNAVAILABLE after the draws made (rule R234). -/
theorem State.raise_eq_afterRngError {s s' : State} (h : OnlyDraws s s') :
    s'.raise .rngUnavailable = s.afterRngError s'.rng s'.draws := by
  rw [h]
  simp [State.raise, State.afterRngError]

theorem State.complete_endsOk {s t : State} (h : t.status = s.status) : EndsOk s t.complete := by
  constructor <;> simp [h]

/-- A register written and nothing else. -/
theorem State.setReg_writesReg (rd : Reg) (v : Nat) (s : State) : WritesReg rd v s (s.setReg rd v).complete := by
  constructor
  · simp
  · intro r hr
    simp [hr]
  · intro a
    rfl
  · rfl
  · exact State.complete_endsOk rfl
  · constructor <;> rfl

/-- RES written and nothing else. -/
theorem State.setRes_writesRes (w : Word) (s : State) : WritesRes w s (s.setRes w).complete := by
  constructor
  · rfl
  · intro r
    rfl
  · intro a
    rfl
  · exact State.complete_endsOk rfl
  · constructor <;> rfl

/-- A byte string stored in BUF, whatever becomes of RES. -/
theorem State.writeBuf_writesBuf {s t : State} (h : s.buf.wf = true) (a : Nat) (bytes : List Byte)
    (ht : t = { s with buf := s.buf.writeBytes a bytes, res := t.res }) : WritesBuf a bytes s t.complete := by
  rw [ht]
  constructor
  · intro i hi
    exact Memory.read_writeBytes_inside h a i bytes hi
  · intro b hb
    exact Memory.read_writeBytes_outside h a b bytes hb
  · intro r
    rfl
  · exact State.complete_endsOk rfl
  · constructor <;> rfl

/-- Reading back what was stored. -/
theorem WritesBuf.readBuf {a : Nat} {bytes : List Byte} {s t : State} (h : WritesBuf a bytes s t) :
    t.readBuf a bytes.length = bytes := by
  apply List.ext_getElem
  · simp [State.readBuf]
  · intro i h1 h2
    simpa [State.readBuf, Memory.readBytes] using h.stored i h2

/-- A result that fits in a register, or CAPACITY (rule R116). -/
theorem State.completeReg_effect (rd : Reg) (v : Nat) (s : State) :
    (v < 2 ^ s.params.maxbits → WritesReg rd v s (s.completeReg rd v) ∧ NoDraw s (s.completeReg rd v)) ∧
      (2 ^ s.params.maxbits ≤ v → s.completeReg rd v = s.afterError .capacity) := by
  rcases s.completeReg_cases rd v with ⟨h, h'⟩ | ⟨h, h'⟩
  · exact ⟨fun _ => by rw [h']; exact ⟨s.setReg_writesReg rd v, rfl, rfl⟩, fun h2 => by omega⟩
  · exact ⟨fun _ => by omega, fun _ => by rw [h', s.raise_eq_afterError _ (by simp)]⟩

/-- `BE(BUF[a..a+n))` is rule R10's sum. -/
theorem be_readBuf (s : State) (a n : Nat) : be (s.readBuf a n) = beSum s a n := by
  rw [be_eq_sum, beSum]
  simp only [State.readBuf, Memory.length_readBytes]
  apply Finset.sum_congr rfl
  intro i hi
  rw [Finset.mem_range] at hi
  congr 2
  simp [Memory.readBytes, List.getD, hi]

end Sys2Proof.Machine
end

