-- ==== Sys2Proof/Laws/Encoding.lean ====
section
/-! SUPPORT. The fields of a command word (rules R70 and R75). -/

namespace Sys2Proof

/-- Rule R70's sum does not wrap. -/
theorem toNat_cmdWord {op odd : Nat} (hop : op < 256) (hodd : odd < 2) (rd rs1 rs2 rs3 : Reg) :
    (cmdWord op rd rs1 rs2 rs3 odd).toNat =
      op + rd.val * 0x100 + rs1.val * 0x1000 + rs2.val * 0x10000 + rs3.val * 0x100000 + odd * 0x1000000 := by
  have h1 := rd.isLt
  have h2 := rs1.isLt
  have h3 := rs2.isLt
  have h4 := rs3.isLt
  rw [cmdWord, BitVec.toNat_ofNat, Nat.mod_eq_of_lt]
  norm_num
  omega

/-- A field of a word as a natural. -/
theorem toNat_field (w : Word) (lo len : Nat) : (w.extractLsb' lo len).toNat = w.toNat / 2 ^ lo % 2 ^ len := by
  rw [BitVec.extractLsb'_toNat, Nat.shiftRight_eq_div_pow]

/-- The fields of a command word (rule R70). -/
theorem fields_cmdWord {op odd : Nat} (hop : op < 256) (hodd : odd < 2) (rd rs1 rs2 rs3 : Reg) :
    let w := cmdWord op rd rs1 rs2 rs3 odd
    opOf w = BitVec.ofNat 8 op ∧ rdOf w = rd ∧ rs1Of w = rs1 ∧ rs2Of w = rs2 ∧ rs3Of w = rs3 ∧
      w.extractLsb' 24 1 = BitVec.ofNat 1 odd ∧ w.extractLsb' 25 7 = 0 := by
  have h1 := rd.isLt
  have h2 := rs1.isLt
  have h3 := rs2.isLt
  have h4 := rs3.isLt
  have hw := toNat_cmdWord hop hodd rd rs1 rs2 rs3
  dsimp only
  refine ⟨?_, ?_, ?_, ?_, ?_, ?_, ?_⟩
  · apply BitVec.eq_of_toNat_eq
    rw [opOf, toNat_field, hw, BitVec.toNat_ofNat]
    norm_num
    omega
  · apply Fin.ext
    show (BitVec.extractLsb' 8 4 _).toNat = _
    rw [toNat_field, hw]
    norm_num
    omega
  · apply Fin.ext
    show (BitVec.extractLsb' 12 4 _).toNat = _
    rw [toNat_field, hw]
    norm_num
    omega
  · apply Fin.ext
    show (BitVec.extractLsb' 16 4 _).toNat = _
    rw [toNat_field, hw]
    norm_num
    omega
  · apply Fin.ext
    show (BitVec.extractLsb' 20 4 _).toNat = _
    rw [toNat_field, hw]
    norm_num
    omega
  · apply BitVec.eq_of_toNat_eq
    rw [toNat_field, hw, BitVec.toNat_ofNat]
    norm_num
    omega
  · apply BitVec.eq_of_toNat_eq
    rw [toNat_field, hw]
    simp
    omega

/-- Rule R75's legality in the decoder's fields. -/
theorem legalWord_of_fields (w : Word) :
    legalWord w =
      match opMap.lookup (opOf w) with
      | none => false
      | some u =>
        decide (w.extractLsb' 25 7 = 0) && (u.rd || decide (rdOf w = 0)) && (u.rs1 || decide (rs1Of w = 0)) &&
          (u.rs2 || decide (rs2Of w = 0)) && (u.rs3 || decide (rs3Of w = 0)) &&
          (u.odd || decide (w.extractLsb' 24 1 = 0)) := by
  have h : ∀ lo, decide (w.extractLsb' lo 4 = 0) = decide (regField w lo = 0) := by
    intro lo
    congr 1
    rw [Fin.ext_iff, ← BitVec.toNat_inj]
    rfl
  unfold legalWord
  rw [h, h, h, h]
  rfl

/-- Bit 24 of a word is its one-bit field `odd`. -/
theorem oddOf_eq (w : Word) : oddOf w = decide (w.extractLsb' 24 1 = 1) := by
  rw [oddOf, BitVec.getLsbD, Nat.testBit_eq_decide_div_mod_eq]
  congr 1
  rw [← BitVec.toNat_inj, toNat_field]
  norm_num
  rfl

end Sys2Proof
end

