-- ==== Sys2Proof/Laws/HostWindow.lean ====
section
/-! SUPPORT. What a host access and a step can do, once for all: a host access either is the soft reset or a `HostStep`. -/

namespace Sys2Proof.Machine

/-- A string the host can store in one access: nothing, one byte anywhere in BUF, or four bytes at an aligned offset. -/
def HostStores (s : State) (k : Nat) (bytes : List Byte) : Prop :=
  bytes = [] ∨ (bytes.length = 1 ∧ k < s.params.bufsz) ∨ (bytes.length = 4 ∧ k % 4 = 0 ∧ k < s.params.bufsz)

/-- What a host access that is not the soft reset can do to s. -/
structure HostStep (s t : State) : Prop where
  params : t.params = s.params
  x : t.x = s.x
  errcode : t.errcode = s.errcode
  res : t.res = s.res
  agenda : t.agenda = s.agenda
  rng : t.rng = s.rng
  draws : t.draws = s.draws
  rngf : t.status.rngf = s.status.rngf
  stores : ∃ k bytes, HostStores s k bytes ∧ t.buf = s.buf.writeBytes k bytes
  flight : s.status.busy = true → t.status.busy = true ∧ t.cur = s.cur ∧ t.snap = s.snap ∧ t.csr = s.csr ∧ t.buf = s.buf
  flightDone : s.status.done = false → t.status.done = false
  issues : t.status.busy = true → s.status.busy = true ∨ (t.snap = t.csr ∧ t.status.done = false)

/-- t is s but for its sticky access bits, its bus answer and a cleared DONE: what most accesses do. -/
theorem HostStep.of_quiet {s t : State} (st : Status) (r : Reply) (h : t = { s with status := st, reply := r })
    (hf : st.rngf = s.status.rngf) (hb : st.busy = s.status.busy) (hd : s.status.done = false → st.done = false) :
    HostStep s t := by
  subst h
  exact ⟨rfl, rfl, rfl, rfl, rfl, rfl, rfl, hf, ⟨0, [], .inl rfl, rfl⟩, fun h => ⟨hb.trans h, rfl, rfl, rfl, rfl⟩, hd,
    fun h => .inl (hb.symm.trans h)⟩

theorem State.answer_hostStep (w : Word) (s : State) : HostStep s (s.answer w) :=
  .of_quiet s.status (.value w) rfl rfl rfl id

theorem State.taken_hostStep (s : State) : HostStep s s.taken := .of_quiet s.status .written rfl rfl rfl id

theorem State.refuse_hostStep (b : Bool) (s : State) : HostStep s (s.refuse b) := by
  cases b
  · exact .of_quiet { s.status with accerr := true } .written rfl rfl rfl id
  · exact .of_quiet { s.status with accerr := true } (.value 0) rfl rfl rfl id

/-- A refused write, spelled out. -/
theorem State.refuse_write (s : State) :
    s.refuse false = { s with status := { s.status with accerr := true }, reply := .written } := rfl

/-- A refused read, spelled out. -/
theorem State.refuse_read (s : State) :
    s.refuse true = { s with status := { s.status with accerr := true }, reply := .value 0 } := rfl

theorem State.writeOperand_hostStep (upd : Operands → Operands) (s : State) : HostStep s (s.writeOperand upd).taken := by
  unfold State.writeOperand
  split
  · exact .of_quiet { s.status with accerr := true } .written rfl rfl rfl id
  · next hb =>
    exact ⟨rfl, rfl, rfl, rfl, rfl, rfl, rfl, rfl, ⟨0, [], .inl rfl, rfl⟩, fun h => absurd h hb, id, fun h => absurd h hb⟩

theorem State.writeIer_hostStep (w : Word) (s : State) : HostStep s (s.writeIer w).taken := by
  unfold State.writeIer
  split
  · exact .of_quiet { s.status with accerr := true } .written rfl rfl rfl id
  · next hb =>
    exact ⟨rfl, rfl, rfl, rfl, rfl, rfl, rfl, rfl, ⟨0, [], .inl rfl, rfl⟩, fun h => absurd h hb, id, fun h => absurd h hb⟩

theorem State.writeCmd_hostStep (w : Word) (s : State) : HostStep s (s.writeCmd w).taken := by
  unfold State.writeCmd
  split
  · exact .of_quiet { s.status with overrun := true } .written rfl rfl rfl id
  · next hb =>
    exact ⟨rfl, rfl, rfl, rfl, rfl, rfl, rfl, rfl, ⟨0, [], .inl rfl, rfl⟩, fun h => absurd h hb, fun _ => rfl,
      fun _ => .inr ⟨rfl, rfl⟩⟩

/-- A CSR write is a `HostStep`, but for CTRL's soft reset. -/
theorem writeCsr_hostStep (c : Csr) (w : Word) (s : State) (h : ¬ (c = .ctrl ∧ w.getLsbD 0 = true)) :
    HostStep s (writeCsr c w s).taken := by
  cases c with
  | id => exact s.taken_hostStep
  | maxbitsR => exact s.taken_hostStep
  | bufszR => exact s.taken_hostStep
  | nregR => exact s.taken_hostStep
  | ctrl =>
    have hw : w.getLsbD 0 = false := by simpa using h
    simp only [writeCsr, hw]
    exact s.taken_hostStep
  | status =>
    refine .of_quiet (s.status.writeOneToClear w) .written rfl rfl rfl fun hd => ?_
    simp [Status.writeOneToClear, hd]
  | errcode => exact s.taken_hostStep
  | cmd => exact s.writeCmd_hostStep w
  | res => exact s.taken_hostStep
  | hashcfg => exact s.writeOperand_hostStep _
  | rounds => exact s.writeOperand_hostStep _
  | klen => exact s.writeOperand_hostStep _
  | arg0 => exact s.writeOperand_hostStep _
  | arg1 => exact s.writeOperand_hostStep _
  | arg2 => exact s.writeOperand_hostStep _
  | arg3 => exact s.writeOperand_hostStep _
  | arg4 => exact s.writeOperand_hostStep _
  | arg5 => exact s.writeOperand_hostStep _
  | ier => exact s.writeIer_hostStep w

/-- The offset of a CSR (rule R25). -/
def Csr.offset : Csr → Nat
  | .id => 0x000
  | .maxbitsR => 0x004
  | .bufszR => 0x008
  | .nregR => 0x00C
  | .ctrl => 0x010
  | .status => 0x014
  | .errcode => 0x018
  | .cmd => 0x01C
  | .res => 0x020
  | .hashcfg => 0x024
  | .rounds => 0x028
  | .klen => 0x02C
  | .arg0 => 0x030
  | .arg1 => 0x034
  | .arg2 => 0x038
  | .arg3 => 0x03C
  | .arg4 => 0x040
  | .arg5 => 0x044
  | .ier => 0x048

/-- Each CSR stands at one offset, and no other CSR stands there (rule R25). -/
theorem csrAt_eq_some_iff (o : Nat) (c : Csr) : csrAt o = some c ↔ o = c.offset := by
  constructor
  · intro h
    unfold csrAt at h
    split at h <;> first | (cases h; rfl) | simp at h
  · rintro rfl
    cases c <;> rfl

theorem csrAt_eq_ctrl {o : Nat} (h : csrAt o = some .ctrl) : o = 0x010 := (csrAt_eq_some_iff o .ctrl).1 h

/-- The offsets of the CSR map: the multiples of 4 up to 0x48 (rule R25). -/
theorem csrAt_isSome_iff (o : Nat) : (csrAt o).isSome = true ↔ o % 4 = 0 ∧ o ≤ 0x048 := by
  constructor
  · intro h
    unfold csrAt at h
    split at h <;> simp_all
  · rintro ⟨h1, h2⟩
    interval_cases o <;> simp_all [csrAt]

theorem State.bufRead_hostStep (width : Width) (k : Nat) (s : State) : HostStep s (s.bufRead width k) := by
  unfold State.bufRead
  split
  · exact s.refuse_hostStep true
  · cases width with
    | byte => exact s.answer_hostStep _
    | half => exact s.refuse_hostStep true
    | word =>
      simp only
      split
      · exact s.answer_hostStep _
      · exact s.refuse_hostStep true
    | other => exact s.refuse_hostStep true

theorem State.bufWrite_hostStep (width : Width) (k : Nat) (d : Word) (s : State) (hk : k < s.params.bufsz) :
    HostStep s (s.bufWrite width k d) := by
  unfold State.bufWrite
  split
  · exact s.refuse_hostStep false
  · next hb =>
    cases width with
    | byte =>
      exact ⟨rfl, rfl, rfl, rfl, rfl, rfl, rfl, rfl, ⟨k, [d.extractLsb' 0 8], .inr (.inl ⟨rfl, hk⟩), rfl⟩,
        fun h => absurd h hb, id, fun h => absurd h hb⟩
    | half => exact s.refuse_hostStep false
    | word =>
      simp only
      split
      · next h4 =>
        exact ⟨rfl, rfl, rfl, rfl, rfl, rfl, rfl, rfl, ⟨k, lanes d, .inr (.inr ⟨rfl, h4, hk⟩), rfl⟩,
          fun h => absurd h hb, id, fun h => absurd h hb⟩
      · exact s.refuse_hostStep false
    | other => exact s.refuse_hostStep false

theorem State.platform_hostStep (s : State) : HostStep s { s with reply := .platform } :=
  .of_quiet s.status .platform rfl rfl rfl id

/-- An access below BUF's first offset is one to the CSR region (rule R50). -/
theorem State.hostAccess_csr {o : Nat} (h : o < 0x1000) (width : Width) (s : State) :
    s.hostAccess (.read width o) = s.csrRead width o ∧ ∀ d, s.hostAccess (.write width o d) = s.csrWrite width o d := by
  have h' : o < bufStart := h
  exact ⟨by simp only [State.hostAccess, if_pos h'], fun d => by simp only [State.hostAccess, if_pos h']⟩

/-- An access at BUF offset k reaches BUF (rule R50). -/
theorem State.hostAccess_buf {k : Nat} {s : State} (h : k < s.params.bufsz) (width : Width) :
    s.hostAccess (.read width (0x1000 + k)) = s.bufRead width k ∧
      ∀ d, s.hostAccess (.write width (0x1000 + k) d) = s.bufWrite width k d := by
  have h1 : ¬ 0x1000 + k < bufStart := by simp [bufStart]
  have h2 : 0x1000 + k < s.windowEnd := by simp only [State.windowEnd, bufStart]; omega
  have h3 : 0x1000 + k - bufStart = k := by simp only [bufStart]; omega
  exact ⟨by simp only [State.hostAccess, if_neg h1, if_pos h2, h3],
    fun d => by simp only [State.hostAccess, if_neg h1, if_pos h2, h3]⟩

/-- An access at or past the window's end does not reach the MBE (rule R57). -/
theorem State.hostAccess_past {o : Nat} {s : State} (h : 0x1000 + s.params.bufsz ≤ o) (width : Width) :
    s.hostAccess (.read width o) = { s with reply := .platform } ∧
      ∀ d, s.hostAccess (.write width o d) = { s with reply := .platform } := by
  have h1 : ¬ o < bufStart := by simp only [bufStart]; omega
  have h2 : ¬ o < s.windowEnd := by simp only [State.windowEnd, bufStart]; omega
  exact ⟨by simp only [State.hostAccess, if_neg h1, if_neg h2], fun d => by simp only [State.hostAccess, if_neg h1, if_neg h2]⟩

/-- A 32-bit access at a CSR's offset reads or writes that CSR (rule R26). -/
theorem State.hostAccess_csrAt {o : Nat} {c : Csr} (h : csrAt o = some c) (s : State) :
    s.hostAccess (.read .word o) = s.answer (readCsr c s) ∧
      ∀ d, s.hostAccess (.write .word o d) = (writeCsr c d s).taken := by
  have ho : o < 0x1000 := by have := (csrAt_isSome_iff o).1 (by simp [h]); omega
  obtain ⟨h1, h2⟩ := s.hostAccess_csr ho .word
  exact ⟨by simp only [h1, State.csrRead, h], fun d => by simp only [h2, State.csrWrite, h]⟩

/-- An access in the CSR region that is not 32 bits wide at a CSR's offset is refused (rule R52). -/
theorem State.hostAccess_refused {o : Nat} {width : Width} (ho : o < 0x1000)
    (h : width ≠ .word ∨ csrAt o = none) (s : State) :
    s.hostAccess (.read width o) = s.refuse true ∧ ∀ d, s.hostAccess (.write width o d) = s.refuse false := by
  obtain ⟨h1, h2⟩ := s.hostAccess_csr ho width
  refine ⟨?_, fun d => ?_⟩
  · rw [h1]
    unfold State.csrRead
    split
    · simp_all
    · rfl
  · rw [h2]
    unfold State.csrWrite
    split
    · simp_all
    · rfl

/-- STATUS's six fields at bits 0 to 5, the bits above them 0 (rule R28), for any values of the fields. -/
theorem packed_status_bits (b d e o a r : Bool) :
    let w : Word := bitAt b 0 ||| bitAt d 1 ||| bitAt e 2 ||| bitAt o 3 ||| bitAt a 4 ||| bitAt r 5
    w.getLsbD 0 = b ∧ w.getLsbD 1 = d ∧ w.getLsbD 2 = e ∧ w.getLsbD 3 = o ∧ w.getLsbD 4 = a ∧ w.getLsbD 5 = r ∧
      w.toNat < 64 := by
  cases b <;> cases d <;> cases e <;> cases o <;> cases a <;> cases r <;> decide

/-- ERR is set iff the code is not OK (rule R28): no other code is numbered 0. -/
theorem State.err_eq (s : State) : s.err = decide (s.errcode ≠ .ok) := by
  unfold State.err
  cases s.errcode <;> rfl

/-- STATUS's fields as read (rule R28). -/
theorem State.statusWord_bits (s : State) :
    s.statusWord.getLsbD 0 = s.status.busy ∧ s.statusWord.getLsbD 1 = s.status.done ∧ s.statusWord.getLsbD 2 = s.err ∧
      s.statusWord.getLsbD 3 = s.status.overrun ∧ s.statusWord.getLsbD 4 = s.status.accerr ∧
      s.statusWord.getLsbD 5 = s.status.rngf ∧ ∀ i, 6 ≤ i → s.statusWord.getLsbD i = false := by
  obtain ⟨h0, h1, h2, h3, h4, h5, h6⟩ :=
    packed_status_bits s.status.busy s.status.done s.err s.status.overrun s.status.accerr s.status.rngf
  exact ⟨h0, h1, h2, h3, h4, h5, fun i hi =>
    Nat.testBit_lt_two_pow (lt_of_lt_of_le h6 (show 2 ^ 6 ≤ 2 ^ i from Nat.pow_le_pow_right (by omega) hi))⟩

/-- Four bytes put together, most significant first, as a natural. -/
theorem toNat_four_bytes (a b c d : Byte) :
    (a ++ b ++ c ++ d : Word).toNat = d.toNat + 256 * c.toNat + 65536 * b.toNat + 16777216 * a.toNat := by
  simp only [BitVec.toNat_append]
  have h1 := a.isLt
  have h2 := b.isLt
  have h3 := c.isLt
  have h4 := d.isLt
  rw [← Nat.shiftLeft_add_eq_or_of_lt (by omega), ← Nat.shiftLeft_add_eq_or_of_lt (by omega),
    ← Nat.shiftLeft_add_eq_or_of_lt (by omega)]
  simp only [Nat.shiftLeft_eq]
  omega

/-- The four lanes of a word put together are the word (rule R54). -/
theorem four_lanes (w : Word) :
    (w.extractLsb' 24 8 ++ w.extractLsb' 16 8 ++ w.extractLsb' 8 8 ++ w.extractLsb' 0 8 : Word) = w := by
  apply BitVec.eq_of_toNat_eq
  rw [toNat_four_bytes]
  simp only [BitVec.extractLsb'_toNat, Nat.shiftRight_eq_div_pow]
  have := w.isLt
  omega

/-- Everything a host access can do: the soft reset, or a `HostStep`. -/
theorem State.hostAccess_cases (a : Access) (s : State) :
    (∃ w : Word, w.getLsbD 0 = true ∧ a = .write .word 0x010 w ∧ s.hostAccess a = s.resetMbe.taken) ∨
      HostStep s (s.hostAccess a) := by
  cases a with
  | read width o =>
    refine .inr ?_
    simp only [State.hostAccess]
    split
    · unfold State.csrRead
      split
      · exact s.answer_hostStep _
      · exact s.refuse_hostStep true
    · split
      · exact s.bufRead_hostStep _ _
      · exact s.platform_hostStep
  | write width o d =>
    simp only [State.hostAccess]
    split
    · unfold State.csrWrite
      split
      · next c hc =>
        by_cases h : c = .ctrl ∧ d.getLsbD 0 = true
        · obtain ⟨rfl, hd⟩ := h
          refine .inl ⟨d, hd, by rw [csrAt_eq_ctrl hc], ?_⟩
          simp only [writeCsr, hd, if_true]
        · exact .inr (writeCsr_hostStep c d s h)
      · exact .inr (s.refuse_hostStep false)
    · split
      · next h1 h2 =>
        refine .inr (s.bufWrite_hostStep _ _ _ ?_)
        simp only [State.windowEnd] at h2
        omega
      · exact .inr s.platform_hostStep

/-- What a step that answers a next state did: the completion of the command in flight, an idle turn, a host access, or the
hardware reset, with the pending steps it leaves. -/
theorem step_cases {s t : State} (h : step s = .next t) :
    s.params.legal = true ∧
      ∃ s' : State, s' = { s with agenda := s'.agenda } ∧
        ((s.status.busy = true ∧ s'.completion = .next t) ∨ (s.status.busy = false ∧ t = s') ∨
          (∃ a, s.agenda.head? = some (.host a) ∧ t = s'.hostAccess a) ∨
          (s.agenda.head? = some .hardReset ∧ t = s'.resetMbe)) := by
  unfold step at h
  split at h
  · next hl =>
    refine ⟨hl, ?_⟩
    have turn : ∀ s' : State, s' = { s with agenda := s'.agenda } → s'.engineTurn = .next t →
        (s.status.busy = true ∧ s'.completion = .next t) ∨ (s.status.busy = false ∧ t = s') := by
      intro s' hs' ht
      have hb : s'.status.busy = s.status.busy := by rw [hs']
      unfold State.engineTurn at ht
      split at ht
      · next h1 => exact .inl ⟨hb.symm.trans h1, ht⟩
      · next h1 =>
        cases ht
        exact .inr ⟨by rw [← hb]; simpa using h1, rfl⟩
    unfold State.advance at h
    split at h
    · next ha =>
      refine ⟨s, rfl, ?_⟩
      rcases turn s rfl h with h | h
      · exact .inl h
      · exact .inr (.inl h)
    · next e rest ha =>
      refine ⟨{ s with agenda := rest }, rfl, ?_⟩
      cases e with
      | host a =>
        cases h
        exact .inr (.inr (.inl ⟨a, by simp [ha], rfl⟩))
      | engine =>
        rcases turn { s with agenda := rest } rfl h with h | h
        · exact .inl h
        · exact .inr (.inl h)
      | hardReset =>
        cases h
        exact .inr (.inr (.inr ⟨by simp [ha], rfl⟩))
  · cases h

/-- The window covers exactly the host addresses from ENGINE_BASE on, each at its offset, up to the window's end (rules R50, R57). -/
theorem State.windowOffset_eq_some_iff (s : State) (address offset : Nat) :
    s.windowOffset address = some offset ↔ address = Config.engineBase + offset ∧ offset < s.windowEnd := by
  unfold State.windowOffset
  split
  · next h => simp only [Option.some.injEq]; omega
  · next h => simp only [reduceCtorEq, false_iff]; omega

end Sys2Proof.Machine
end

