-- ==== Sys2Proof/Laws/Oaep.lean ====
section
/-! SUPPORT. What the OAEP encoding and decoding functions compute (rules R182 and R184), for callers that do not unfold them. -/

namespace Sys2Proof.Machine

/-- Byte j of MGF1 is byte j mod hLen of the hash with counter j div hLen (rule R13). -/
theorem getElem?_flatMap_range {h : Nat} (f : Nat → List Byte) (hf : ∀ i, (f i).length = h) (n j : Nat)
    (hj : j < n * h) : ((List.range n).flatMap f)[j]? = (f (j / h))[j % h]? := by
  induction n with
  | zero => omega
  | succ n ih =>
    rw [List.range_succ, List.flatMap_append]
    have hl : ((List.range n).flatMap f).length = n * h := by simp [List.length_flatMap, hf]
    by_cases hc : j < n * h
    · rw [List.getElem?_append_left (by omega), ih hc]
    · have hq : j / h = n := Nat.div_eq_of_lt_le (by omega) hj
      have hm := Nat.div_add_mod j h
      rw [List.getElem?_append_right (by omega), hl]
      simp only [List.flatMap_singleton, hq]
      congr 1
      rw [hq, Nat.mul_comm] at hm
      omega

/-- The message after the separator: zeros, 0x01 and the message, and nothing else parses (rule R184). -/
theorem afterSeparator_eq_some_iff (l m : List Byte) : afterSeparator l = some m ↔ ∃ i, l = zeros i ++ [0x01] ++ m := by
  induction l with
  | nil => simp [afterSeparator]
  | cons b t ih =>
    have h1 : ∀ i, b :: t = zeros (i + 1) ++ [0x01] ++ m ↔ b = 0 ∧ t = zeros i ++ [0x01] ++ m := by
      intro i
      simp [zeros, List.replicate_succ]
    have h0 : b :: t = zeros 0 ++ [0x01] ++ m ↔ b = 1 ∧ t = m := by simp [zeros]
    have hex : (∃ i, b :: t = zeros i ++ [0x01] ++ m) ↔ (b = 1 ∧ t = m) ∨ (b = 0 ∧ ∃ i, t = zeros i ++ [0x01] ++ m) := by
      constructor
      · rintro ⟨_ | i, hi⟩
        · exact .inl (h0.1 hi)
        · exact .inr ⟨((h1 i).1 hi).1, i, ((h1 i).1 hi).2⟩
      · rintro (h | ⟨h, i, hi⟩)
        · exact ⟨0, h0.2 h⟩
        · exact ⟨i + 1, (h1 i).2 ⟨h, hi⟩⟩
    have h01 : (0 : Byte) ≠ 1 := by decide
    rw [hex, afterSeparator]
    by_cases hb0 : b = 0
    · rw [if_pos hb0, ih]
      exact ⟨fun h => .inr ⟨hb0, h⟩, fun h => h.elim (fun h => absurd (hb0.symm.trans h.1) h01) fun h => h.2⟩
    · rw [if_neg hb0]
      by_cases hb1 : b = 1
      · rw [if_pos hb1]
        simp [hb1]
      · rw [if_neg hb1]
        exact ⟨fun h => (by cases h), fun h => h.elim (fun h => absurd h.1 hb1) fun h => absurd h.1 hb0⟩

/-- The encoded block has exactly k bytes (rule R182). -/
theorem length_oaepEncode (hs ms : HashFn) (k : Nat) (msg label seed : List Byte)
    (h : msg.length + 2 * hashLen hs + 2 ≤ k) (h' : seed.length = hashLen hs) :
    (oaepEncode hs ms k msg label seed).length = k := by
  simp [oaepEncode, length_hash, h', zeros]
  omega

/-- A decoded message is at most k - 2*hLen - 2 bytes long (rule R184). -/
theorem length_of_oaepDecode {hs ms : HashFn} {k : Nat} {em label m : List Byte} (hk : em.length = k)
    (h : oaepDecode hs ms k em label = some m) : m.length + 2 * hashLen hs + 2 ≤ k := by
  unfold oaepDecode at h
  dsimp only at h
  split at h
  · obtain ⟨i, hi⟩ := (afterSeparator_eq_some_iff _ _).1 h
    have hlen := congrArg List.length hi
    simp [hk, zeros] at hlen
    omega
  · cases h

end Sys2Proof.Machine
end

