-- ==== Sys2Proof/Laws/PerInstr.lean ====
section
/-! SUPPORT. Statements about every command as syntax, one lemma for each command. -/

namespace Sys2Proof.Laws

/-- The command's word is legal (rule R75) and carries the opcode and the `odd` bit of its row of the opcode table
(rule R73). -/
def EncodesToItsRow.Statement (i : Instr) : Prop :=
  legalWord (encode i) = true ∧
    ∃ row ∈ opcodeRows, row.mnemonic = i.mnemonic ∧ opOf (encode i) = opOf row.pattern ∧
      oddOf (encode i) = oddOf row.pattern

/-- The statement follows from the legality of the field values and the row. -/
theorem encodesToItsRow_of_cmdWord (i : Instr) (op odd : Nat) (rd rs1 rs2 rs3 : Reg) (row : OpcodeRow)
    (hi : encode i = cmdWord op rd rs1 rs2 rs3 odd) (hop : op < 256) (hodd : odd < 2) (hrow : row ∈ opcodeRows)
    (hm : row.mnemonic = i.mnemonic) (h1 : BitVec.ofNat 8 op = opOf row.pattern)
    (h2 : decide (BitVec.ofNat 1 odd = 1) = oddOf row.pattern)
    (hl : (match opMap.lookup (BitVec.ofNat 8 op) with
      | none => false
      | some u =>
        decide ((0 : BitVec 7) = 0) && (u.rd || decide (rd = 0)) && (u.rs1 || decide (rs1 = 0)) &&
          (u.rs2 || decide (rs2 = 0)) && (u.rs3 || decide (rs3 = 0)) &&
          (u.odd || decide (BitVec.ofNat 1 odd = 0))) = true) :
    EncodesToItsRow.Statement i := by
  obtain ⟨e0, e1, e2, e3, e4, e5, e6⟩ := fields_cmdWord hop hodd rd rs1 rs2 rs3
  refine ⟨?_, row, hrow, hm, ?_, ?_⟩
  · rw [hi, legalWord_of_fields, e0, e1, e2, e3, e4, e5, e6]
    exact hl
  · rw [hi, e0, h1]
  · rw [hi, oddOf_eq, e5, h2]

theorem EncodesToItsRow.nop : EncodesToItsRow.Statement .nop :=
  encodesToItsRow_of_cmdWord _ 0x00 0 0 0 0 0 ⟨"nop", 0x00000000, 0xFFFFFFFF⟩ rfl (by decide) (by decide) (by decide) rfl
    (by decide) (by decide) rfl

theorem EncodesToItsRow.mov (rd rs1 : Reg) : EncodesToItsRow.Statement (.mov rd rs1) :=
  encodesToItsRow_of_cmdWord _ 0x01 0 rd rs1 0 0 ⟨"mov", 0x00000001, 0xFFFF00FF⟩ rfl (by decide) (by decide) (by decide) rfl
    (by decide) (by decide) rfl

theorem EncodesToItsRow.ldi (rd : Reg) : EncodesToItsRow.Statement (.ldi rd) :=
  encodesToItsRow_of_cmdWord _ 0x02 0 rd 0 0 0 ⟨"ldi", 0x00000002, 0xFFFFF0FF⟩ rfl (by decide) (by decide) (by decide) rfl
    (by decide) (by decide) rfl

theorem EncodesToItsRow.zeroize : EncodesToItsRow.Statement .zeroize :=
  encodesToItsRow_of_cmdWord _ 0x03 0 0 0 0 0 ⟨"zeroize", 0x00000003, 0xFFFFFFFF⟩ rfl (by decide) (by decide) (by decide) rfl
    (by decide) (by decide) rfl

theorem EncodesToItsRow.add (rd rs1 rs2 : Reg) : EncodesToItsRow.Statement (.add rd rs1 rs2) :=
  encodesToItsRow_of_cmdWord _ 0x10 0 rd rs1 rs2 0 ⟨"add", 0x00000010, 0xFFF000FF⟩ rfl (by decide) (by decide) (by decide) rfl
    (by decide) (by decide) rfl

theorem EncodesToItsRow.sub (rd rs1 rs2 : Reg) : EncodesToItsRow.Statement (.sub rd rs1 rs2) :=
  encodesToItsRow_of_cmdWord _ 0x11 0 rd rs1 rs2 0 ⟨"sub", 0x00000011, 0xFFF000FF⟩ rfl (by decide) (by decide) (by decide) rfl
    (by decide) (by decide) rfl

theorem EncodesToItsRow.mul (rd rs1 rs2 : Reg) : EncodesToItsRow.Statement (.mul rd rs1 rs2) :=
  encodesToItsRow_of_cmdWord _ 0x12 0 rd rs1 rs2 0 ⟨"mul", 0x00000012, 0xFFF000FF⟩ rfl (by decide) (by decide) (by decide) rfl
    (by decide) (by decide) rfl

theorem EncodesToItsRow.modred (rd rs1 rs2 : Reg) : EncodesToItsRow.Statement (.modred rd rs1 rs2) :=
  encodesToItsRow_of_cmdWord _ 0x13 0 rd rs1 rs2 0 ⟨"modred", 0x00000013, 0xFFF000FF⟩ rfl (by decide) (by decide) (by decide) rfl
    (by decide) (by decide) rfl

theorem EncodesToItsRow.modpow (rd rs1 rs2 rs3 : Reg) : EncodesToItsRow.Statement (.modpow rd rs1 rs2 rs3) :=
  encodesToItsRow_of_cmdWord _ 0x14 0 rd rs1 rs2 rs3 ⟨"modpow", 0x00000014, 0xFF0000FF⟩ rfl (by decide) (by decide) (by decide) rfl
    (by decide) (by decide) rfl

theorem EncodesToItsRow.modinv (rd rs1 rs2 : Reg) : EncodesToItsRow.Statement (.modinv rd rs1 rs2) :=
  encodesToItsRow_of_cmdWord _ 0x15 0 rd rs1 rs2 0 ⟨"modinv", 0x00000015, 0xFFF000FF⟩ rfl (by decide) (by decide) (by decide) rfl
    (by decide) (by decide) rfl

theorem EncodesToItsRow.cmp (rs1 rs2 : Reg) : EncodesToItsRow.Statement (.cmp rs1 rs2) :=
  encodesToItsRow_of_cmdWord _ 0x16 0 0 rs1 rs2 0 ⟨"cmp", 0x00000016, 0xFFF00FFF⟩ rfl (by decide) (by decide) (by decide) rfl
    (by decide) (by decide) rfl

theorem EncodesToItsRow.bitlen (rs1 : Reg) : EncodesToItsRow.Statement (.bitlen rs1) :=
  encodesToItsRow_of_cmdWord _ 0x17 0 0 rs1 0 0 ⟨"bitlen", 0x00000017, 0xFFFF0FFF⟩ rfl (by decide) (by decide) (by decide) rfl
    (by decide) (by decide) rfl

theorem EncodesToItsRow.frombytes (rd : Reg) : EncodesToItsRow.Statement (.frombytes rd) :=
  encodesToItsRow_of_cmdWord _ 0x20 0 rd 0 0 0 ⟨"frombytes", 0x00000020, 0xFFFFF0FF⟩ rfl (by decide) (by decide) (by decide) rfl
    (by decide) (by decide) rfl

theorem EncodesToItsRow.tobytes (rs1 : Reg) : EncodesToItsRow.Statement (.tobytes rs1) :=
  encodesToItsRow_of_cmdWord _ 0x21 0 0 rs1 0 0 ⟨"tobytes", 0x00000021, 0xFFFF0FFF⟩ rfl (by decide) (by decide) (by decide) rfl
    (by decide) (by decide) rfl

theorem EncodesToItsRow.randbits (rd : Reg) : EncodesToItsRow.Statement (.randbits rd) :=
  encodesToItsRow_of_cmdWord _ 0x22 0 rd 0 0 0 ⟨"randbits", 0x00000022, 0xFFFFF0FF⟩ rfl (by decide) (by decide) (by decide) rfl
    (by decide) (by decide) rfl

theorem EncodesToItsRow.randbitsOdd (rd : Reg) : EncodesToItsRow.Statement (.randbitsOdd rd) :=
  encodesToItsRow_of_cmdWord _ 0x22 1 rd 0 0 0 ⟨"randbits.odd", 0x01000022, 0xFFFFF0FF⟩ rfl (by decide) (by decide) (by decide) rfl
    (by decide) (by decide) rfl

theorem EncodesToItsRow.isprime (rs1 : Reg) : EncodesToItsRow.Statement (.isprime rs1) :=
  encodesToItsRow_of_cmdWord _ 0x30 0 0 rs1 0 0 ⟨"isprime", 0x00000030, 0xFFFF0FFF⟩ rfl (by decide) (by decide) (by decide) rfl
    (by decide) (by decide) rfl

theorem EncodesToItsRow.mgf1 : EncodesToItsRow.Statement .mgf1 :=
  encodesToItsRow_of_cmdWord _ 0x40 0 0 0 0 0 ⟨"mgf1", 0x00000040, 0xFFFFFFFF⟩ rfl (by decide) (by decide) (by decide) rfl
    (by decide) (by decide) rfl

theorem EncodesToItsRow.oaepPad : EncodesToItsRow.Statement .oaepPad :=
  encodesToItsRow_of_cmdWord _ 0x41 0 0 0 0 0 ⟨"oaep.pad", 0x00000041, 0xFFFFFFFF⟩ rfl (by decide) (by decide) (by decide) rfl
    (by decide) (by decide) rfl

theorem EncodesToItsRow.oaepUnpad : EncodesToItsRow.Statement .oaepUnpad :=
  encodesToItsRow_of_cmdWord _ 0x42 0 0 0 0 0 ⟨"oaep.unpad", 0x00000042, 0xFFFFFFFF⟩ rfl (by decide) (by decide) (by decide) rfl
    (by decide) (by decide) rfl

end Sys2Proof.Laws
end

