-- ==== Sys2Proof/Laws/Primality.lean ====
section
/-! SUPPORT. What trial division and one Miller-Rabin round decide (rules R160 to R162), for callers that do not unfold them. -/

namespace Sys2Proof.Machine

/-- Trial division by the primes up to TD_BOUND (rules R160 and R161). -/
theorem State.trialDivision_tdPrimes (s : State) (c : Nat) :
    (c.Prime → c ≤ s.params.tdBound → trialDivision c s.tdPrimes = some true) ∧
      (¬ c.Prime → (∃ p, p.Prime ∧ p ≤ s.params.tdBound ∧ p ∣ c) → trialDivision c s.tdPrimes = some false) ∧
      ((∀ p, p.Prime → p ≤ s.params.tdBound → ¬ p ∣ c) → trialDivision c s.tdPrimes = none) := by
  obtain ⟨h1, h2, h3⟩ := trialDivision_spec c s.tdPrimes fun p hp => ((mem_primesUpTo _ _).1 hp).1
  refine ⟨fun a b => h1 a ((mem_primesUpTo _ _).2 ⟨a, b⟩), fun a ⟨p, hp, hb, hd⟩ => h2 a ⟨p, (mem_primesUpTo _ _).2 ⟨hp, hb⟩, hd⟩,
    fun a => h3 fun p hp => ?_⟩
  obtain ⟨hpp, hpb⟩ := (mem_primesUpTo _ _).1 hp
  exact a p hpp hpb

/-- A number is a power of two times an odd number in one way only. -/
theorem two_pow_mul_odd_unique {s d s' d' : Nat} (h1 : d % 2 = 1) (h2 : d' % 2 = 1) (h : 2 ^ s * d = 2 ^ s' * d') :
    s = s' ∧ d = d' := by
  have even : ∀ {k e f : Nat}, e % 2 = 1 → 2 ^ (k + 1) * f ≠ e := by
    intro k e f he hk
    have : 2 ^ (k + 1) * f % 2 = 0 := by rw [pow_succ, Nat.mul_right_comm]; simp
    omega
  induction s generalizing s' with
  | zero =>
    cases s' with
    | zero => simpa using h
    | succ k => exact absurd (by simpa using h.symm) (even (k := k) (f := d') h1)
  | succ n ih =>
    cases s' with
    | zero => exact absurd (by simpa using h) (even (k := n) (f := d) h2)
    | succ k =>
      rw [pow_succ, pow_succ, Nat.mul_right_comm, Nat.mul_right_comm (2 ^ k)] at h
      obtain ⟨a, b⟩ := ih (Nat.eq_of_mul_eq_mul_right (by omega) h)
      exact ⟨by omega, b⟩

/-- A Miller-Rabin round passes iff its base is no witness (rule R162). -/
theorem mrPasses_iff_noWitness {c a : Nat} (hc : 2 < c) (hodd : c % 2 = 1) : mrPasses c a = true ↔ NoWitness c a := by
  obtain ⟨s, d, h1, h2, -, h4⟩ := mrPasses_iff (a := a) hc hodd
  rw [h4]
  constructor
  · intro h
    exact ⟨s, d, h2, h1, h⟩
  · rintro ⟨s', d', g1, g2, h⟩
    obtain ⟨rfl, rfl⟩ := two_pow_mul_odd_unique h2 g1 (h1.symm.trans g2)
    exact h

end Sys2Proof.Machine
end

