-- ==== Sys2Proof/Laws/Steps.lean ====
section
/-! SUPPORT. Runs of the machine: how steps compose, and that no pending step stops. -/

namespace Sys2Proof.Machine

/-- A run of n + 1 steps is a step and a run of n steps. -/
theorem coreRun_succ (M : Host.Core) {s t : M.State} (h : M.step s = .next t) (n : Nat) : M.run (n + 1) s = M.run n t := by
  simp only [Host.Core.run, h]

/-- A completion always answers a next state (rules R24 and R230). -/
theorem State.completion_next (s : State) : ∃ t, s.completion = .next t := by
  unfold State.completion
  split
  · obtain ⟨t, h, -⟩ := exec_ends _ s
    exact ⟨t, h⟩
  · exact ⟨_, rfl⟩

/-- Taking the next pending step always answers a next state. -/
theorem State.advance_next (s : State) : ∃ t, s.advance = .next t := by
  have turn : ∀ s : State, ∃ t, s.engineTurn = .next t := by
    intro s
    unfold State.engineTurn
    split
    · exact s.completion_next
    · exact ⟨_, rfl⟩
  unfold State.advance
  split
  · exact turn _
  · next e _ _ =>
    cases e with
    | host a => exact ⟨_, rfl⟩
    | engine => exact turn _
    | hardReset => exact ⟨_, rfl⟩

end Sys2Proof.Machine
end

