-- ==== Sys2Proof/Tests/Slice0.lean ====
section
/-! SUPPORT. Tests on fixed values: the well-formedness checks, decoding of words written out from rule R70, one step on small
states with the results spec/95_test_vectors.md gives, and, for every statement with hypotheses, a witness that meets
them. -/

namespace Sys2Proof.Tests

-- One test after the other: each kernel evaluation would otherwise hold a thread of its own while it waits.
set_option Elab.async false

open Sys2Proof.Machine

/-! ### Helpers -/

/-- The smallest widths rule R8 allows, and the smallest trial-division bound. -/
def tiny : Params := { maxbits := 64, bufsz := 256, tdBound := 3 }

/-- The default parameters with MAXBITS = 64: the vectors' "M64". -/
def m64 : Params := { Params.default with maxbits := 64 }

/-- A machine with the parameters, registers, operand CSRs, BUF contents and oracle answers given, a command in flight. -/
def busy (p : Params) (regs : List (Reg × Nat)) (ops : Operands) (buf : Memory := []) (rng : List RngAnswer := []) : State :=
  { State.reset with
    params := p
    x := regs.foldl (fun x r => x.set r.1.val r.2 r.1.isLt) State.reset.x
    csr := ops
    snap := ops
    buf := buf
    rng := rng
    status := { Status.reset with busy := true } }

/-- What a command leaves, as far as `f` looks. -/
def after {α : Type} (i : Instr) (s : State) (f : State → α) : Option α :=
  match exec i s with
  | .next t => some (f t)
  | .fault _ => none
  | .refused _ => none

/-- The state a command leaves. -/
def left (i : Instr) (s : State) : State :=
  match exec i s with
  | .next t => t
  | .fault _ => s
  | .refused _ => s

/-- The reset operand CSRs with the arguments given. -/
def args (a0 a1 a2 a3 a4 a5 : Word) : Operands :=
  { Operands.reset with arg0 := a0, arg1 := a1, arg2 := a2, arg3 := a3, arg4 := a4, arg5 := a5 }

/-- BUF holding a byte string at offset a. -/
def bufAt (a : Nat) (bytes : List Byte) : Memory := Memory.writeBytes [] a bytes

/-- "abc". -/
def abc : List Byte := [0x61, 0x62, 0x63]

/-- 00 01 02 ... in n bytes, the seed draws of 95_test_vectors.md section 7. -/
def counting (n : Nat) : List Byte := (List.range n).map (BitVec.ofNat 8)

/-! ### Well-formedness (rules R8 and R75) -/

theorem test_default_is_legal : Params.default.legal = true ∧ tiny.legal = true ∧ m64.legal = true := by decide

theorem test_refuses_width_not_multiple_of_64 : ({ tiny with maxbits := 96 } : Params).legal = false := by decide

theorem test_refuses_width_below_64 : ({ tiny with maxbits := 0 } : Params).legal = false := by decide

theorem test_refuses_width_above_2_24 : ({ tiny with maxbits := 16777280 } : Params).legal = false := by decide

theorem test_refuses_buffer_not_multiple_of_4 : ({ tiny with bufsz := 258 } : Params).legal = false := by decide

theorem test_refuses_buffer_below_256 : ({ tiny with bufsz := 252 } : Params).legal = false := by decide

theorem test_refuses_buffer_above_2_24 : ({ tiny with bufsz := 16777220 } : Params).legal = false := by decide

theorem test_refuses_bound_below_3 : ({ tiny with tdBound := 2 } : Params).legal = false := by decide

/-- The words of 95_test_vectors.md section 2 that are illegal: each breaks one check of rule R75. -/
theorem test_refuses_illegal_words :
    ([0x00000023, 0x000000FF, 0x00000004, 0x00000116, 0x00000100, 0x02000010, 0x80000000, 0x01000010, 0x00100013,
      0x00001020, 0x00000140] : List Word).all (fun w => !legalWord w) = true := by decide

theorem test_accepts_legal_words : legalWord 0x00FFFF14 = true ∧ legalWord 0x00000110 = true := by decide

/-! ### Decoding: words written out from rule R70 (95_test_vectors.md section 2) -/

theorem test_decode_engine_control :
    decode 0x00000000 = .ok .nop ∧ decode 0x00002501 = .ok (.mov 5 2) ∧ decode 0x00000202 = .ok (.ldi 2) ∧
      decode 0x00000003 = .ok .zeroize := ⟨rfl, rfl, rfl, rfl⟩

theorem test_decode_arithmetic :
    decode 0x00021310 = .ok (.add 3 1 2) ∧ decode 0x00021311 = .ok (.sub 3 1 2) ∧ decode 0x00021312 = .ok (.mul 3 1 2) ∧
      decode 0x00021313 = .ok (.modred 3 1 2) ∧ decode 0x00124514 = .ok (.modpow 5 4 2 1) ∧
      decode 0x00012315 = .ok (.modinv 3 2 1) ∧ decode 0x00046016 = .ok (.cmp 6 4) ∧
      decode 0x00001017 = .ok (.bitlen 1) := ⟨rfl, rfl, rfl, rfl, rfl, rfl, rfl, rfl⟩

theorem test_decode_bytes :
    decode 0x00000120 = .ok (.frombytes 1) ∧ decode 0x00005021 = .ok (.tobytes 5) ∧
      decode 0x00000122 = .ok (.randbits 1) ∧ decode 0x01000122 = .ok (.randbitsOdd 1) := ⟨rfl, rfl, rfl, rfl⟩

theorem test_decode_primality_and_oaep :
    decode 0x00001030 = .ok (.isprime 1) ∧ decode 0x00000040 = .ok .mgf1 ∧ decode 0x00000041 = .ok .oaepPad ∧
      decode 0x00000042 = .ok .oaepUnpad := ⟨rfl, rfl, rfl, rfl⟩

theorem test_table_word : decodeTableWord 32 0x00135614 = some (.modpow 6 5 3 1) ∧ decodeTableWord 32 0x23 = none := by
  decide +kernel

/-- The ends of the SHA-2 constant lists (FIPS 180-4 sections 4.2 and 5.3). -/
theorem test_sha_constants :
    (shaConstants 32 64).getLast? = some 0xc67178f2 ∧ (shaConstants 64 80).getLast? = some 0x6c44198c4a475817 ∧
      (shaInitial 32 0).h = 0x5be0cd19 ∧ (shaInitial 64 8).a = 0xcbbb9d5dc1059ed8 := by decide +kernel

theorem test_placed_word_runs_first :
    (match step (State.reset.withFetchWord 32 0x00000202) with
      | .next t => some (t.errcode, t.reg 2, t.cur, t.status.done)
      | _ => none) = some (.ok, 0, 0x00000202, true) := by decide +kernel

/-! ### Arithmetic vectors (section 3) -/

theorem test_add_carries : after (.add 3 1 2) (busy .default [(1, 0xFFFFFFFF), (2, 1)] .reset) (fun t => (t.errcode, t.reg 3))
    = some (.ok, 0x100000000) := by decide +kernel

theorem test_add_capacity :
    after (.add 3 1 2) (busy m64 [(1, 0xFFFFFFFFFFFFFFFF), (2, 1), (3, 0xDEAD)] .reset) (fun t => (t.errcode, t.reg 3))
      = some (.capacity, 0xDEAD) := by decide +kernel

theorem test_sub_borrows : after (.sub 3 1 2) (busy .default [(1, 0x100000000), (2, 1)] .reset) (fun t => (t.errcode, t.reg 3))
    = some (.ok, 0xFFFFFFFF) := by decide +kernel

theorem test_sub_underflow :
    after (.sub 3 1 2) (busy .default [(1, 1), (2, 0x100000000), (3, 0xDEAD)] .reset) (fun t => (t.errcode, t.reg 3))
      = some (.underflow, 0xDEAD) := by decide +kernel

theorem test_mul_exact :
    after (.mul 3 1 2) (busy .default [(1, 0xFFFFFFFF), (2, 0xFFFFFFFF)] .reset) (fun t => (t.errcode, t.reg 3))
      = some (.ok, 0xFFFFFFFE00000001) := by decide +kernel

theorem test_mul_capacity :
    after (.mul 3 1 2) (busy m64 [(1, 0x100000000), (2, 0x100000000), (3, 0xDEAD)] .reset) (fun t => (t.errcode, t.reg 3))
      = some (.capacity, 0xDEAD) := by decide +kernel

theorem test_modred : after (.modred 3 1 2) (busy .default [(1, 16172), (2, 3233)] .reset) (fun t => (t.errcode, t.reg 3))
    = some (.ok, 7) := by decide +kernel

theorem test_modred_by_zero :
    after (.modred 3 1 2) (busy .default [(1, 5), (3, 0xDEAD)] .reset) (fun t => (t.errcode, t.reg 3))
      = some (.divByZero, 0xDEAD) := by decide +kernel

theorem test_modpow :
    after (.modpow 5 4 2 1) (busy .default [(4, 65), (2, 17), (1, 3233)] .reset) (fun t => (t.errcode, t.reg 5))
      = some (.ok, 2790) := by decide +kernel

theorem test_modpow_needs_no_capacity :
    after (.modpow 5 4 2 1) (busy m64 [(4, 2), (2, 64), (1, 0xFFFFFFFFFFFFFFC5)] .reset) (fun t => (t.errcode, t.reg 5))
      = some (.ok, 59) := by decide +kernel

theorem test_modinv : after (.modinv 3 2 1) (busy .default [(2, 3127), (1, 3120)] .reset) (fun t => (t.errcode, t.reg 3))
    = some (.ok, 1783) := by decide +kernel

theorem test_modinv_not_invertible :
    after (.modinv 3 2 1) (busy .default [(2, 6), (1, 9), (3, 0xDEAD)] .reset) (fun t => (t.errcode, t.reg 3))
      = some (.notInvertible, 0xDEAD) := by decide +kernel

theorem test_cmp_less : after (.cmp 6 4) (busy .default [(6, 2), (4, 3)] .reset) (fun t => (t.errcode, t.res))
    = some (.ok, 0xFFFFFFFF) := by decide +kernel

theorem test_cmp_greater : after (.cmp 6 4) (busy .default [(6, 2 ^ 64), (4, 2 ^ 64 - 1)] .reset) (fun t => (t.errcode, t.res))
    = some (.ok, 1) := by decide +kernel

theorem test_bitlen : after (.bitlen 1) (busy .default [(1, 3233)] .reset) State.res = some 12 := by decide +kernel

theorem test_bitlen_zero : after (.bitlen 1) (busy .default [] .reset) State.res = some 0 := by decide +kernel

/-! ### Byte conversion and random vectors (section 4) -/

theorem test_frombytes :
    after (.frombytes 1) (busy .default [] (args 0 3 0 0 0 0) (bufAt 0 [0x01, 0x00, 0x01])) (fun t => (t.errcode, t.reg 1))
      = some (.ok, 0x10001) := by decide +kernel

theorem test_frombytes_range_does_not_wrap :
    after (.frombytes 1) (busy .default [(1, 0xDEAD)] (args 0xFFFFFFFF 2 0 0 0 0)) (fun t => (t.errcode, t.reg 1))
      = some (.bufRange, 0xDEAD) := by decide +kernel

theorem test_tobytes_pads :
    after (.tobytes 5) (busy .default [(5, 2790)] (args 0 0 0 0 0x10 4) (bufAt 0x10 [9, 9, 9, 9, 9]))
      (fun t => (t.errcode, t.res, t.readBuf 0x10 5)) = some (.ok, 4, [0, 0, 0x0A, 0xE6, 9]) := by decide +kernel

theorem test_tobytes_never_truncates :
    after (.tobytes 5) (busy .default [(5, 0x010203)] (args 0 0 0 0 0 2)) (fun t => (t.errcode, t.res, t.readBuf 0 4))
      = some (.ok, 3, [1, 2, 3, 0]) := by decide +kernel

theorem test_randbits :
    after (.randbits 1) (busy .default [] (args 0 0 0 0 0 9) [] [.value 0xFFFF]) (fun t => (t.errcode, t.reg 1, t.draws))
      = some (.ok, 0x1FF, 1) := by decide +kernel

theorem test_randbits_fails_sticky :
    after (.randbits 1) (busy .default [(1, 0xDEAD)] (args 0 0 0 0 0 12) [] [.fail]) (fun t => (t.statusWord, t.reg 1))
      = some (0x26, 0xDEAD) := by decide +kernel

theorem test_randbits_odd :
    after (.randbitsOdd 1) (busy .default [] (args 0 0 0 0 0 12) [] [.value 0x5A3C]) (fun t => (t.errcode, t.reg 1))
      = some (.ok, 0xA3D) := by decide +kernel

theorem test_randbits_odd_of_two_bits :
    after (.randbitsOdd 1) (busy .default [] (args 0 0 0 0 0 2) [] [.value 0]) (fun t => (t.errcode, t.reg 1))
      = some (.ok, 3) := by decide +kernel

/-! ### Primality vectors (section 5) -/

theorem test_isprime_strong_liars :
    after (.isprime 1) (busy .default [(1, 118901521)] { Operands.reset with rounds := 2 } [] [.value 5, .value 5])
      (fun t => (t.errcode, t.res, t.draws)) = some (.ok, 1, 2) := by decide +kernel

theorem test_isprime_witness :
    after (.isprime 1) (busy .default [(1, 67591)] { Operands.reset with rounds := 2 } [] [.value 2])
      (fun t => (t.errcode, t.res, t.draws)) = some (.ok, 0, 1) := by decide +kernel

/-! ### MGF1 and OAEP vectors (sections 6 and 7) -/

theorem test_mgf1 :
    after .mgf1 (busy .default [] { args 0 3 0 0 0x100 25 with hashcfg := 0x00 } (bufAt 0 abc))
      (fun t => (t.errcode, be (t.readBuf 0x100 25))) = some (.ok, 0xa03eb8ac3e6ad809805ec489ce85f2cefe8d00c69595e19565) := by
  decide +kernel

theorem test_mgf1_ignores_hash_sel :
    after .mgf1 (busy .default [] { args 0 3 0 0 0x100 40 with hashcfg := 0x14 } (bufAt 0 abc))
      (fun t => (t.errcode, be (t.readBuf 0x100 40)))
      = some (.ok, 0xcf2db1ac9867debdf8ce91f99f141e5544bf26ca36b3fd4f8e4035eec42cab0d46c386ebccef82ba) := by
  decide +kernel

/-- V-OAEP-4: different hashes for the label and inside MGF1. -/
theorem test_oaep_pad :
    after .oaepPad (busy .default [] { args 0 3 0 0 0x300 0 with hashcfg := 0x01, klen := 72 } (bufAt 0 abc)
        [.value (be (counting 32))])
      (fun t => (t.errcode, t.res, t.draws, be (t.readBuf 0x300 72))) = some (.ok, 0, 1,
        0x007a28e9479163d8f4abbce9f19dd7821c310d139d2541f74744e76833ad34e1b59cec1878240f6388c86f6d3cf7d042e352fda9ffcd1468300a66244af7e5044e6cc89dbc8e3bae) := by
  decide +kernel

/-- V-OAEP-3's block. -/
def em3 : List Byte :=
  i2osp 0x00159a80f3f53a7289c217c507181236f61d67c811d8bcf0367fb055802993d44ae1a0fb809edd2e3899f37263a574171d607880917aefcf642294b08b982711c0fa68f6493e00a4 72

theorem test_oaep_unpad :
    after .oaepUnpad (busy .default [] { args 0x300 0 0 0 0x400 0 with hashcfg := 0x00, klen := 72 } (bufAt 0x300 em3))
      (fun t => (t.errcode, t.res, t.readBuf 0x400 4)) = some (.ok, 3, abc ++ [0]) := by decide +kernel

theorem test_oaep_unpad_first_byte :
    after .oaepUnpad
        (busy .default [] { args 0x300 0 0 0 0x400 0 with hashcfg := 0x00, klen := 72 } (bufAt 0x300 (0x01 :: em3.tail)))
      (fun t => (t.errcode, t.res, t.readBuf 0x400 4)) = some (.decryptionFailed, 0, [0, 0, 0, 0]) := by decide +kernel

/-! ### Engine control (section 8) -/

theorem test_nop : after .nop (busy .default [(1, 7)] .reset) (fun t => (t.statusWord, t.reg 1)) = some (0x02, 7) := by
  decide +kernel

theorem test_mov : after (.mov 5 2) (busy .default [(2, 3233)] .reset) (fun t => (t.reg 5, t.reg 2)) = some (3233, 3233) := by
  decide +kernel

theorem test_ldi_does_not_sign_extend :
    after (.ldi 2) (busy .default [] (args 0 0 0 0 0 0xFFFFFFFF)) (fun t => t.reg 2) = some 0xFFFFFFFF := by decide +kernel

theorem test_zeroize :
    after .zeroize { busy .default [(1, 7)] { Operands.reset with hashcfg := 0 } (bufAt 3 abc) with res := 5 }
      (fun t => (t.reg 1, t.buf, t.res, t.csr.hashcfg)) = some (0, [], 0, 0) := by decide +kernel

/-! ### The host window (sections 9 and 10) -/

theorem test_reset_memory_is_canonical : State.reset.buf.wf = true := rfl

theorem test_hash_config_write_keeps_eight_bits :
    (State.hostAccess (.write .word 0x024 0xFFFFFF23) State.reset).csr.hashcfg = 0x23 := rfl

theorem test_buffer_lanes_are_little_endian :
    (State.hostAccess (.write .word 0x1004 0x0A0B0C0D) State.reset).buf = [(4, 0x0D), (5, 0x0C), (6, 0x0B), (7, 0x0A)] := by
  decide +kernel

theorem test_command_write_while_busy_is_dropped :
    (State.hostAccess (.write .word 0x01C 0x3) (State.reset.issue 0x00002501)).status =
      { busy := true, done := false, overrun := true, accerr := false, rngf := false } := rfl

/-! ### Witnesses: for each statement with hypotheses, operands and a state that meet them -/

/-- A tiny machine with registers, operand CSRs, BUF and oracle answers. -/
def mini (regs : List (Reg × Nat)) (ops : Operands) (buf : Memory := []) (rng : List RngAnswer := []) : State :=
  busy tiny regs ops buf rng

/-- A tiny machine with nothing in flight. -/
def idle : State := { mini [] .reset with status := Status.reset }

/-- A tiny machine with CUR = w in flight. -/
def flying (w : Word) : State := { mini [] .reset with cur := w }

/-- A machine is within its invariant when its storage is. -/
theorem busy_inv (p : Params) (regs : List (Reg × Nat)) (ops : Operands) (buf : Memory) (rng : List RngAnswer)
    (hl : p.legal = true) (hr : ∀ r : Reg, (busy p regs ops buf rng).reg r < 2 ^ p.maxbits) (hw : buf.wf = true)
    (hb : buf.within p.bufsz = true) : (busy p regs ops buf rng).Inv :=
  ⟨hl, hr, hw, hb, fun _ => rfl, fun _ => rfl, rfl⟩

theorem witness_EncodeOfDecodeIsTheWord : decode 0x00FFFF14 = .ok (.modpow 15 15 15 15) := rfl

/-- Each range of reserved opcodes at both ends, the NOP word, and an illegal word in flight. -/
theorem witness_IllegalWordsRaiseIllegalCommand :
    (([0x04, 0x0F, 0x18, 0x1F, 0x23, 0x2F, 0x31, 0x3F, 0x43, 0xFF] : List Word).all fun w =>
      let op := (w.extractLsb' 0 8).toNat
      decide ((0x04 ≤ op ∧ op ≤ 0x0F) ∨ (0x18 ≤ op ∧ op ≤ 0x1F) ∨ (0x23 ≤ op ∧ op ≤ 0x2F) ∨ (0x31 ≤ op ∧ op ≤ 0x3F) ∨
        0x43 ≤ op)) = true ∧
      decode 0 = .ok .nop ∧
      (flying 0x23).status.busy = true ∧ legalWord (flying 0x23).cur = false := ⟨by decide, rfl, rfl, by decide⟩

theorem witness_WordSelectsExactlyItsTableRow : (⟨"cmp", 0x00000016, 0xFFF00FFF⟩ : OpcodeRow) ∈ opcodeRows := by decide

/-- The last two: a command in flight that no word of the opcode map stands for. -/
theorem witness_EngineTurnRunsTheIssuedCommand :
    (flying 0x02).params.legal = true ∧ (flying 0x02).status.busy = true ∧ decode (flying 0x02).cur = .ok (.ldi 0) ∧
      (flying 0x02).agenda = [] ∧ ({ flying 0x02 with agenda := [.engine] } : State).agenda = .engine :: [] ∧
      (flying 0x23).params.legal = true ∧ (flying 0x23).status.busy = true := ⟨by decide, rfl, rfl, rfl, rfl, by decide, rfl⟩

theorem witness_HostStepsAndIdleTurns :
    idle.params.legal = true ∧ idle.status.busy = false ∧ idle.agenda = [] ∧
      ({ idle with agenda := [.host (.read .word 0)] } : State).agenda = .host (.read .word 0) :: [] ∧
      ({ idle with agenda := [.engine] } : State).agenda = .engine :: [] := ⟨by decide, rfl, rfl, rfl, rfl⟩

theorem witness_HardwareResetLeavesTheStatedValues :
    ({ flying 0x02 with agenda := [.hardReset] } : State).params.legal = true ∧
      ({ flying 0x02 with agenda := [.hardReset] } : State).agenda = .hardReset :: [] := ⟨by decide, rfl⟩

theorem witness_SoftResetEqualsHardwareReset :
    (0x00000001 : Word).getLsbD 0 = true ∧ (0xFFFFFFFE : Word).getLsbD 0 = false ∧
      ({ flying 0x02 with agenda := [.hardReset] } : State).params.legal = true ∧
      ({ flying 0x02 with agenda := [.hardReset] } : State).agenda = .hardReset :: [] := ⟨by decide, by decide, by decide, rfl⟩

theorem witness_CmdIssuesWhenIdleAndDropsWhenBusy : idle.status.busy = false ∧ (flying 0x02).status.busy = true := ⟨rfl, rfl⟩

theorem witness_BusyEngineDropsOperandAndBufAccesses :
    (flying 0x02).status.busy = true ∧ (0x024 : Nat) ∈ [0x024, 0x048] ∧ 0 < (flying 0x02).params.bufsz ∧
      255 < (flying 0x02).params.bufsz := ⟨rfl, by decide, by decide, by decide⟩

theorem witness_IdleOperandWritesReadBack :
    idle.status.busy = false ∧ ((0x024, 0xFF) : Nat × Word) ∈ [((0x024, 0xFF) : Nat × Word), (0x048, 1)] ∧
      (0x048 : Nat) ≠ 0x024 ∧ (0xFFF : Nat) < 0x1000 := ⟨rfl, by decide, by decide, by decide⟩

/-- Refused: a byte access, a misaligned one, the first unmapped offset. Taken: the first and the last CSR. Writes: the last
offset that a busy engine takes, the first and the last that it drops, and one to an idle engine whose ACCERR is set. -/
theorem witness_IllegalCsrAccessesAreRefused :
    (0 < 0x1000 ∧ Width.byte ≠ Width.word) ∧ (0x048 + 1 < 0x1000 ∧ (0x048 + 1) % 4 ≠ 0) ∧ (0x04C < 0x1000 ∧ 0x048 < 0x04C) ∧
      (0 < 0x1000 ∧ 0 % 4 = 0 ∧ 0 ≤ 0x048) ∧ (0x048 < 0x1000 ∧ 0x048 % 4 = 0 ∧ 0x048 ≤ 0x048) ∧
      ((flying 0x02).status.busy = true ∧ ¬ 0x024 ≤ 0x020 ∧ 0x024 ≤ 0x024 ∧ 0x024 ≤ 0x048) ∧
      (let s := { idle with status := { idle.status with accerr := true } };
        s.status.busy = false ∧ (State.hostAccess (.write .word 0x024 0) s).status.accerr = true) := by decide

/-- The first and the last byte, the last aligned word, the last misaligned word. -/
theorem witness_BufAccessesUseLittleEndianLanes :
    idle.status.busy = false ∧ idle.buf.wf = true ∧ idle.params.bufsz % 4 = 0 ∧ 0 < idle.params.bufsz ∧
      255 < idle.params.bufsz ∧ 252 % 4 = 0 ∧ 253 % 4 ≠ 0 := by decide

theorem witness_AccessesPastTheWindowChangeNothing : 0x1000 + idle.params.bufsz ≤ 0x1100 := by decide

/-- A CMD write while busy raises OVERRUN, a 16-bit read raises ACCERR. -/
theorem witness_HostAccessEventsAreNotCommandErrors :
    ((flying 0x02).status.overrun = false ∧ (State.hostAccess (.write .word 0x01C 0) (flying 0x02)).status.overrun = true) ∧
      (idle.status.accerr = false ∧ (State.hostAccess (.read .half 0x014) idle).status.accerr = true) :=
  ⟨⟨rfl, rfl⟩, rfl, rfl⟩

theorem witness_InterruptLineFollowsDoneAndEnable :
    exec .nop idle = .next (left .nop idle) ∧ (0x2 : Word).getLsbD 1 = true ∧ idle.status.busy = false := ⟨rfl, by decide, rfl⟩

/-- Both sides of 2^MAXBITS, for the sum and for the product. -/
theorem witness_AddAndMulAreExactOrCapacity :
    (let s := mini [(1, 0xFFFFFFFFFFFFFFFE), (2, 1)] .reset; s.reg 1 + s.reg 2 < 2 ^ s.params.maxbits) ∧
      (let s := mini [(1, 0xFFFFFFFFFFFFFFFF), (2, 1)] .reset; 2 ^ s.params.maxbits ≤ s.reg 1 + s.reg 2) ∧
      (let s := mini [(1, 0xFFFFFFFFFFFFFFFF), (2, 1)] .reset; s.reg 1 * s.reg 2 < 2 ^ s.params.maxbits) ∧
      (let s := mini [(1, 0x100000000), (2, 0x100000000)] .reset; 2 ^ s.params.maxbits ≤ s.reg 1 * s.reg 2) := by
  decide +kernel

theorem witness_SubIsExactOrUnderflow :
    (let s := mini [(1, 5), (2, 5)] .reset; s.reg 2 + 0 = s.reg 1) ∧
      (let s := mini [(1, 4), (2, 5)] .reset; s.reg 1 < s.reg 2) := by decide +kernel

theorem witness_ModredGivesTheRemainder :
    (let s := mini [(1, 3233), (2, 3233)] .reset; s.reg 1 = 1 * s.reg 2 + 0 ∧ 0 < s.reg 2) ∧
      (mini [(1, 5)] .reset).reg 2 = 0 := by decide +kernel

theorem witness_ModpowGivesTheModularPower :
    (mini [(3, 1)] .reset).reg 3 ≠ 0 ∧ (mini [] .reset).reg 3 = 0 := by decide +kernel

theorem witness_ModinvGivesTheUniqueInverse :
    (let s := mini [(1, 5), (2, 1)] .reset; s.reg 2 ≠ 0 ∧ Nat.gcd (s.reg 1) (s.reg 2) = 1) ∧
      (let s := mini [(1, 6), (2, 9)] .reset; s.reg 2 ≠ 0 ∧ Nat.gcd (s.reg 1) (s.reg 2) ≠ 1) ∧
      (mini [(1, 3)] .reset).reg 2 = 0 := by decide +kernel

theorem witness_CmpOrdersTheRegisters :
    (let s := mini [(1, 2), (2, 3)] .reset; s.reg 1 < s.reg 2) ∧ (let s := mini [(1, 3), (2, 3)] .reset; s.reg 1 = s.reg 2) ∧
      (let s := mini [(1, 4), (2, 3)] .reset; s.reg 2 < s.reg 1) := by decide +kernel

theorem witness_BitlenIsTheLeastExponent : (mini [(1, 0xFFFFFFFFFFFFFFFF)] .reset).Inv :=
  busy_inv _ _ _ _ _ (by decide) (by decide +kernel) rfl rfl

/-- In range up to BUFSZ and one past it, below 2^MAXBITS and at 2^MAXBITS. -/
theorem witness_FrombytesReadsBigEndian :
    (let s := mini [] (args 248 8 0 0 0 0) (bufAt 248 [255, 255, 255, 255, 255, 255, 255, 255]);
      s.snap.arg0.toNat + s.snap.arg1.toNat ≤ s.params.bufsz ∧ beSum s 248 8 < 2 ^ s.params.maxbits) ∧
      (let s := mini [] (args 0 9 0 0 0 0) (bufAt 0 [1]);
        s.snap.arg0.toNat + s.snap.arg1.toNat ≤ s.params.bufsz ∧ 2 ^ s.params.maxbits ≤ beSum s 0 9) ∧
      (let s := mini [] (args 256 1 0 0 0 0); s.params.bufsz < s.snap.arg0.toNat + s.snap.arg1.toNat) := by
  refine ⟨?_, ?_, ?_⟩
  · simp only [← be_readBuf]
    decide +kernel
  · simp only [← be_readBuf]
    decide +kernel
  · decide +kernel

theorem length_is_least {v len : Nat} (h : bytelen v = len) : v < 256 ^ len ∧ ∀ j, v < 256 ^ j → len ≤ j :=
  ⟨(bytelen_le_iff v len).1 h.le, fun j hj => h ▸ (bytelen_le_iff v j).2 hj⟩

/-- The last offset at which three bytes fit, and the next one. -/
theorem witness_TobytesStoresBigEndian :
    (let s := mini [(5, 0x010203)] (args 0 0 0 0 253 0);
      s.buf.wf = true ∧ (s.reg 5 < 256 ^ 3 ∧ ∀ j, s.reg 5 < 256 ^ j → 3 ≤ j) ∧
        s.snap.arg4.toNat + max s.snap.arg5.toNat 3 ≤ s.params.bufsz) ∧
      (let s := mini [(5, 0x010203)] (args 0 0 0 0 254 0);
        (s.reg 5 < 256 ^ 3 ∧ ∀ j, s.reg 5 < 256 ^ j → 3 ≤ j) ∧
          s.params.bufsz < s.snap.arg4.toNat + max s.snap.arg5.toNat 3) :=
  ⟨⟨rfl, length_is_least (by decide +kernel), by decide +kernel⟩, length_is_least (by decide +kernel), by decide +kernel⟩

/-- x5 = 0x010203 stored at 253, BUF's last three bytes. -/
def storing : State := mini [(5, 0x010203)] (args 0 0 0 0 253 0)

/-- What `storing` leaves, ready to load the three bytes into x7. -/
def reloading : State := { left (.tobytes 5) storing with snap := args 253 3 0 0 0 0 }

/-- Three bytes at 253 loaded into x7. -/
def loading : State := mini [] (args 253 3 0 0 0 0) (bufAt 253 [1, 2, 3])

/-- What `loading` leaves, ready to store x7 at 0 with min_len 3. -/
def restoring : State := { left (.frombytes 7) loading with snap := args 0 0 0 0 0 3 }

theorem witness_TobytesFrombytesRoundTrip :
    (storing.Inv ∧ exec (.tobytes 5) storing = .next (left (.tobytes 5) storing) ∧
      (left (.tobytes 5) storing).errcode = .ok ∧ reloading.params = (left (.tobytes 5) storing).params ∧
      reloading.buf = (left (.tobytes 5) storing).buf ∧ reloading.snap.arg0 = storing.snap.arg4 ∧
      reloading.snap.arg1 = (left (.tobytes 5) storing).res) ∧
      loading.Inv ∧ exec (.frombytes 7) loading = .next (left (.frombytes 7) loading) ∧
      (left (.frombytes 7) loading).errcode = .ok ∧ restoring.params = (left (.frombytes 7) loading).params ∧
      restoring.reg 7 = (left (.frombytes 7) loading).reg 7 ∧ restoring.buf.wf = true ∧
      restoring.snap.arg5 = loading.snap.arg1 ∧
      restoring.snap.arg4.toNat + loading.snap.arg1.toNat ≤ restoring.params.bufsz :=
  ⟨⟨busy_inv _ _ _ _ _ (by decide) (by decide +kernel) rfl rfl, by rfl, by decide +kernel, rfl, rfl, rfl, by decide +kernel⟩,
    busy_inv _ _ _ _ _ (by decide) (by decide +kernel) (by decide +kernel) (by decide +kernel), by rfl, by decide +kernel, rfl,
    rfl, by decide +kernel, rfl, by decide +kernel⟩

/-- The least and the greatest count. -/
theorem witness_RandbitsKeepsLowBitsAndForcesTop :
    (let s := mini [] (args 0 0 0 0 0 1) [] [.value (be [0x80])];
      1 ≤ s.snap.arg5.toNat ∧ s.snap.arg5.toNat ≤ s.params.maxbits ∧ s.status.rngf = false ∧
        [0x80#8].length = (s.snap.arg5.toNat + 7) / 8 ∧ s.rng = .value (be [0x80]) :: []) ∧
      (let s := mini [] (args 0 0 0 0 0 64) [] [.value (be (counting 8))];
        1 ≤ s.snap.arg5.toNat ∧ s.snap.arg5.toNat ≤ s.params.maxbits ∧ s.status.rngf = false ∧
          (counting 8).length = (s.snap.arg5.toNat + 7) / 8 ∧ s.rng = .value (be (counting 8)) :: []) := by decide +kernel

theorem witness_RandbitsErrorsInOrder :
    (mini [] (args 0 0 0 0 0 0)).snap.arg5.toNat = 0 ∧
      (let s := mini [] (args 0 0 0 0 0 65); s.snap.arg5.toNat ≠ 0 ∧ s.params.maxbits < s.snap.arg5.toNat) ∧
      (let s := { mini [] (args 0 0 0 0 0 64) with status := { Status.reset with busy := true, rngf := true } };
        s.snap.arg5.toNat ≠ 0 ∧ s.snap.arg5.toNat ≤ s.params.maxbits ∧ s.status.rngf = true) ∧
      (let s := mini [] (args 0 0 0 0 0 1) [] [.fail];
        s.snap.arg5.toNat ≠ 0 ∧ s.snap.arg5.toNat ≤ s.params.maxbits ∧ s.status.rngf = false ∧ s.rng = .fail :: []) := by
  decide +kernel

/-- A successful draw of one bit, and the forced values of 1 and 64 bits at the ends of their ranges. -/
theorem witness_RandbitsReachesExactlyTheForcedBitValues :
    (let s := mini [] (args 0 0 0 0 0 1) [] [.value 0];
      exec (.randbits 1) s = .next (left (.randbits 1) s) ∧ (left (.randbits 1) s).errcode = .ok ∧
        1 ≤ s.snap.arg5.toNat ∧ s.snap.arg5.toNat ≤ s.params.maxbits ∧ s.status.rngf = false ∧
        2 ^ (s.snap.arg5.toNat - 1) ≤ 1 ∧ 1 < 2 ^ s.snap.arg5.toNat ∧ 1 % 2 = 1) ∧
      (let s := mini [] (args 0 0 0 0 0 64);
        2 ^ (s.snap.arg5.toNat - 1) ≤ 0xFFFFFFFFFFFFFFFF ∧ 0xFFFFFFFFFFFFFFFF < 2 ^ s.snap.arg5.toNat) :=
  ⟨⟨by rfl, by decide +kernel, by decide +kernel, by decide +kernel, rfl, by decide +kernel, by decide +kernel, rfl⟩,
    by decide +kernel, by decide +kernel⟩

/-- ISPRIME of c with two rounds on a tiny machine. -/
def testing (c : Nat) (rng : List RngAnswer) : State := mini [(1, c)] { Operands.reset with rounds := 2 } [] rng

/-- The greatest trial-division prime, and the least prime above it with its draws. -/
theorem witness_IsprimeAcceptsEveryPrime :
    (let s := testing 3 [];
      s.params.legal = true ∧ (s.reg 1).Prime ∧ s.snap.rounds ≠ 0 ∧ s.reg 1 ≤ s.params.tdBound ∧
        exec (.isprime 1) s = .next (left (.isprime 1) s) ∧ (left (.isprime 1) s).errcode = .ok) ∧
      (let s := testing 5 [.value 2, .value 3];
        s.params.legal = true ∧ (s.reg 1).Prime ∧ s.snap.rounds ≠ 0 ∧ s.params.tdBound < s.reg 1 ∧ s.status.rngf = false ∧
          [2, 3].length = s.snap.rounds.toNat ∧ s.willDraw [2, 3] []) :=
  ⟨⟨by decide, Nat.prime_three, by decide, by decide +kernel, by rfl, by decide +kernel⟩,
    by decide, Nat.prime_five, by decide, by decide +kernel, rfl, rfl, rfl⟩

theorem witness_IsprimeRejectsByTrialDivision :
    (let s := testing 1 []; s.snap.rounds ≠ 0 ∧ ¬ (s.reg 1).Prime ∧ s.reg 1 < 2) ∧
      (let s := testing 9 [];
        s.snap.rounds ≠ 0 ∧ ¬ (s.reg 1).Prime ∧ Nat.Prime 3 ∧ 3 ≤ s.params.tdBound ∧ 3 ∣ s.reg 1) :=
  ⟨⟨by decide, Nat.not_prime_one, by decide +kernel⟩, by decide, (by norm_num : ¬ Nat.Prime 9), Nat.prime_three, le_refl _,
    ⟨3, rfl⟩⟩

/-- TD_BOUND = 3, so q = 5: 23 is the greatest prime below 25, 24 the greatest composite. -/
theorem witness_IsprimeIsExactBelowTheSquare :
    (∀ p, p.Prime → 3 < p → 5 ≤ p) ∧ Nat.Prime 5 ∧ tiny.legal = true ∧ tiny.tdBound < 5 ∧
      (let s := testing 23 [.value 2, .value 3];
        (s.reg 1).Prime ∧ s.reg 1 < 5 ^ 2 ∧ exec (.isprime 1) s = .next (left (.isprime 1) s) ∧
          (left (.isprime 1) s).errcode = .ok) ∧
      (let s := testing 24 [];
        ¬ (s.reg 1).Prime ∧ s.reg 1 < 5 ^ 2 ∧ exec (.isprime 1) s = .next (left (.isprime 1) s) ∧
          (left (.isprime 1) s).errcode = .ok) := by
  refine ⟨fun p hp h => ?_, Nat.prime_five, by decide, by decide, ⟨?_, by decide +kernel, by rfl, by decide +kernel⟩,
    ?_, by decide +kernel, by rfl, by decide +kernel⟩
  · by_contra hlt
    have h4 : p = 4 := by omega
    subst h4
    exact absurd hp (by norm_num)
  · show Nat.Prime 23
    norm_num
  · show ¬ Nat.Prime 24
    norm_num

theorem no_small_factor_of_25 : ∀ p, p.Prime → p ≤ tiny.tdBound → ¬ p ∣ 25 := by
  intro p hp hb hd
  have h3 : p ≤ 3 := hb
  have h2 := hp.two_le
  interval_cases p <;> omega

theorem seven_is_no_witness_for_25 : NoWitness 25 7 := (mrPasses_iff_noWitness (by decide) (by decide)).1 (by decide +kernel)

theorem two_is_a_witness_for_25 : ¬ NoWitness 25 2 := fun h =>
  absurd ((mrPasses_iff_noWitness (by decide) (by decide)).2 h) (by decide +kernel)

/-- 25 = 5 * 5 with TD_BOUND = 3: 7 is a strong liar, 2 a witness. -/
theorem witness_IsprimeFollowsTheDrawnBases :
    (let s := testing 25 [.value 7, .value 18];
      s.params.legal = true ∧ s.snap.rounds ≠ 0 ∧ s.status.rngf = false ∧ 2 ≤ s.reg 1 ∧
        (∀ p, p.Prime → p ≤ s.params.tdBound → ¬ p ∣ s.reg 1) ∧
        (∀ a ∈ [7, 18], 2 ≤ a ∧ a ≤ s.reg 1 - 2 ∧ NoWitness (s.reg 1) a) ∧ [7, 18].length = s.snap.rounds.toNat ∧
        s.willDraw [7, 18] []) ∧
      (let s := testing 25 [.value 7, .value 2];
        (∀ a ∈ [7], 2 ≤ a ∧ a ≤ s.reg 1 - 2 ∧ NoWitness (s.reg 1) a) ∧ [7].length < s.snap.rounds.toNat ∧ 2 ≤ 2 ∧
          2 ≤ s.reg 1 - 2 ∧ ¬ NoWitness (s.reg 1) 2 ∧ s.willDraw ([7] ++ [2]) []) := by
  have h18 : NoWitness 25 18 := (mrPasses_iff_noWitness (by decide) (by decide)).1 (by decide +kernel)
  refine ⟨⟨by decide, by decide, rfl, by decide +kernel, no_small_factor_of_25, ?_, rfl, rfl⟩, ?_, by decide, by decide,
    by decide +kernel, two_is_a_witness_for_25, rfl⟩
  · intro a ha
    simp only [List.mem_cons, List.not_mem_nil, or_false] at ha
    rcases ha with rfl | rfl
    · exact ⟨by decide, by decide +kernel, seven_is_no_witness_for_25⟩
    · exact ⟨by decide, by decide +kernel, h18⟩
  · intro a ha
    simp only [List.mem_singleton] at ha
    subst ha
    exact ⟨by decide, by decide +kernel, seven_is_no_witness_for_25⟩

theorem witness_IsprimeErrorsInOrder :
    (mini [(1, 9)] { Operands.reset with rounds := 0 }).snap.rounds = 0 ∧
      (let s := { testing 25 [] with status := { Status.reset with busy := true, rngf := true } };
        s.snap.rounds ≠ 0 ∧ 2 ≤ s.reg 1 ∧ (∀ p, p.Prime → p ≤ s.params.tdBound → ¬ p ∣ s.reg 1) ∧ s.status.rngf = true) ∧
      (let s := testing 25 [.value 7, .fail];
        s.params.legal = true ∧ s.snap.rounds ≠ 0 ∧ 2 ≤ s.reg 1 ∧ s.status.rngf = false ∧
          (∀ p, p.Prime → p ≤ s.params.tdBound → ¬ p ∣ s.reg 1) ∧ [7].length < s.snap.rounds.toNat ∧
          (∀ a ∈ [7], 2 ≤ a ∧ a ≤ s.reg 1 - 2 ∧ NoWitness (s.reg 1) a) ∧ s.willDraw [7] (.fail :: [])) := by
  refine ⟨rfl, ⟨by decide, by decide +kernel, no_small_factor_of_25, rfl⟩, by decide, by decide, by decide +kernel, rfl,
    no_small_factor_of_25, by decide, ?_, rfl⟩
  intro a ha
  simp only [List.mem_singleton] at ha
  subst ha
  exact ⟨by decide, by decide +kernel, seven_is_no_witness_for_25⟩

theorem witness_HashSelectorsNameTheHashes : 4 ≤ (4 : BitVec 4).toNat ∧ 4 ≤ (15 : BitVec 4).toNat := by decide

/-- Ranges that end at BUFSZ, a reserved selector, and each range one past BUFSZ. -/
theorem witness_Mgf1WritesTheMask :
    (let s := mini [] (args 253 3 0 0 216 40) (bufAt 253 abc);
      hashOfSel s.snap.mgfSel = some .sha256 ∧ s.buf.wf = true ∧
        s.snap.arg0.toNat + s.snap.arg1.toNat ≤ s.params.bufsz ∧ s.snap.arg4.toNat + s.snap.arg5.toNat ≤ s.params.bufsz) ∧
      hashOfSel (mini [] { Operands.reset with hashcfg := 0x41 }).snap.mgfSel = none ∧
      (let s := mini [] (args 254 3 0 0 216 40);
        hashOfSel s.snap.mgfSel ≠ none ∧ s.params.bufsz < s.snap.arg0.toNat + s.snap.arg1.toNat) ∧
      (let s := mini [] (args 253 3 0 0 217 40);
        hashOfSel s.snap.mgfSel ≠ none ∧ s.params.bufsz < s.snap.arg4.toNat + s.snap.arg5.toNat) := by decide +kernel

/-- SHA-1 for both, the shortest block (KLEN = 42) and the empty message, stored in BUF's last bytes. -/
def padding (rng : List RngAnswer) : State := mini [] { args 0 0 0 0 214 0 with hashcfg := 0x00, klen := 42 } [] rng

theorem witness_OaepPadWritesTheEncodedBlock :
    let s := padding [.value (be (counting 20))]
    hashOfSel s.snap.hashSel = some .sha1 ∧ hashOfSel s.snap.mgfSel = some .sha1 ∧ s.buf.wf = true ∧
      s.snap.arg0.toNat + s.snap.arg1.toNat ≤ s.params.bufsz ∧ s.snap.arg2.toNat + s.snap.arg3.toNat ≤ s.params.bufsz ∧
      s.snap.arg4.toNat + s.snap.klen.toNat ≤ s.params.bufsz ∧
      s.snap.arg1.toNat + 2 * hashLen .sha1 + 2 ≤ s.snap.klen.toNat ∧ s.status.rngf = false ∧
      (counting 20).length = hashLen .sha1 ∧ s.rng = .value (be (counting 20)) :: [] := by decide +kernel

/-- Each error's premises: a reserved selector, a range past BUFSZ, a block one byte too short, RNGF, a failed draw, and a
draw that is answered. -/
theorem witness_OaepPadErrorsInOrder :
    hashOfSel (mini [] { Operands.reset with hashcfg := 0x14 }).snap.hashSel = none ∧
      (let s := padding []; hashOfSel s.snap.hashSel = some .sha1 ∧ hashOfSel s.snap.mgfSel = some .sha1) ∧
      (let s := mini [] { args 0 0 0 0 215 0 with hashcfg := 0x00, klen := 42 };
        s.params.bufsz < s.snap.arg4.toNat + s.snap.klen.toNat) ∧
      (let s := mini [] { args 0 0 0 0 215 0 with hashcfg := 0x00, klen := 41 };
        s.snap.arg4.toNat + s.snap.klen.toNat ≤ s.params.bufsz ∧
          s.snap.klen.toNat < s.snap.arg1.toNat + 2 * hashLen .sha1 + 2) ∧
      (let s := padding [];
        s.snap.arg0.toNat + s.snap.arg1.toNat ≤ s.params.bufsz ∧ s.snap.arg2.toNat + s.snap.arg3.toNat ≤ s.params.bufsz ∧
          s.snap.arg4.toNat + s.snap.klen.toNat ≤ s.params.bufsz ∧
          s.snap.arg1.toNat + 2 * hashLen .sha1 + 2 ≤ s.snap.klen.toNat) ∧
      ({ padding [] with status := { Status.reset with rngf := true } } : State).status.rngf = true ∧
      ((padding [.fail]).status.rngf = false ∧ (padding [.fail]).rng = .fail :: []) ∧
      ((padding [.value 0]).status.rngf = false ∧ (padding [.value 0]).rng = .value 0 :: []) := by decide +kernel

/-- The block that `padding` writes, at the start of BUF, to be decoded into BUF's last byte. -/
def unpadding (block : List Byte) : State :=
  mini [] { args 0 0 0 0 256 0 with hashcfg := 0x00, klen := 42 } (bufAt 0 block)

/-- SHA-1's block of the empty message with the empty label. -/
def emptyBlock : List Byte := oaepEncode .sha1 .sha1 42 [] [] (counting 20)

theorem witness_OaepUnpadAcceptsExactlyTheWellFormedBlocks :
    (let s := unpadding emptyBlock;
      hashOfSel s.snap.hashSel = some .sha1 ∧ hashOfSel s.snap.mgfSel = some .sha1 ∧ s.buf.wf = true ∧
        s.snap.arg0.toNat + s.snap.klen.toNat ≤ s.params.bufsz ∧ s.snap.arg2.toNat + s.snap.arg3.toNat ≤ s.params.bufsz ∧
        2 * hashLen .sha1 + 2 ≤ s.snap.klen.toNat ∧
        s.snap.arg4.toNat + (s.snap.klen.toNat - 2 * hashLen .sha1 - 2) ≤ s.params.bufsz) ∧
      (let em := (unpadding emptyBlock).readBuf 0 42;
        let seed := xorBytes ((em.drop 1).take 20) (mgf1 .sha1 (em.drop 21) 20)
        em[0]? = some 0x00 ∧
          xorBytes (em.drop 21) (mgf1 .sha1 seed 21) = hash .sha1 [] ++ zeros 0 ++ [0x01] ++ []) ∧
      ((unpadding (0x01 :: emptyBlock.tail)).readBuf 0 42)[0]? ≠ some 0x00 := by decide +kernel

theorem witness_OaepUnpadErrorsInOrder :
    hashOfSel (mini [] { Operands.reset with hashcfg := 0x14 }).snap.hashSel = none ∧
      (let s := mini [] { args 215 0 0 0 0 0 with hashcfg := 0x00, klen := 42 };
        hashOfSel s.snap.hashSel = some .sha1 ∧ hashOfSel s.snap.mgfSel = some .sha1 ∧
          s.params.bufsz < s.snap.arg0.toNat + s.snap.klen.toNat) ∧
      (let s := mini [] { args 0 0 256 1 0 0 with hashcfg := 0x00, klen := 42 };
        s.params.bufsz < s.snap.arg2.toNat + s.snap.arg3.toNat) ∧
      (let s := mini [] { args 0 0 0 0 257 0 with hashcfg := 0x00, klen := 42 };
        2 * hashLen .sha1 + 2 ≤ s.snap.klen.toNat ∧
          s.params.bufsz < s.snap.arg4.toNat + (s.snap.klen.toNat - 2 * hashLen .sha1 - 2)) ∧
      (let s := mini [] { args 215 0 0 0 0 0 with hashcfg := 0x00, klen := 41 };
        s.snap.arg0.toNat + s.snap.klen.toNat ≤ s.params.bufsz ∧ s.snap.arg2.toNat + s.snap.arg3.toNat ≤ s.params.bufsz ∧
          s.snap.klen.toNat < 2 * hashLen .sha1 + 2) := by decide +kernel

/-- The block that `padding` writes is decoded where it was written. -/
def decoding : State :=
  { left .oaepPad (padding [.value (be (counting 20))]) with
    snap := { args 214 0 0 0 256 0 with hashcfg := 0x00, klen := 42 } }

theorem witness_OaepRoundTrip :
    let s := padding [.value (be (counting 20))]
    let t := left .oaepPad s
    let u := decoding
    s.buf.wf = true ∧ exec .oaepPad s = .next t ∧ t.errcode = .ok ∧ hashOfSel s.snap.hashSel = some .sha1 ∧ u.buf.wf = true ∧
      u.snap.hashcfg = s.snap.hashcfg ∧ u.snap.klen = s.snap.klen ∧
      u.readBuf u.snap.arg2.toNat u.snap.arg3.toNat = s.readBuf s.snap.arg2.toNat s.snap.arg3.toNat ∧
      u.readBuf u.snap.arg0.toNat u.snap.klen.toNat = t.readBuf s.snap.arg4.toNat s.snap.klen.toNat ∧
      u.snap.arg0.toNat + u.snap.klen.toNat ≤ u.params.bufsz ∧
      u.snap.arg2.toNat + u.snap.arg3.toNat ≤ u.params.bufsz ∧
      u.snap.arg4.toNat + (u.snap.klen.toNat - 2 * hashLen .sha1 - 2) ≤ u.params.bufsz :=
  ⟨rfl, by rfl, by decide +kernel, by decide, by decide +kernel, rfl, rfl, by decide +kernel, by decide +kernel,
    by decide +kernel, by decide +kernel, by decide +kernel⟩

theorem witness_FailedCommandsArePrecise :
    let s := mini [(2, 1)] .reset
    exec (.sub 3 1 2) s = .next (left (.sub 3 1 2) s) ∧ (left (.sub 3 1 2) s).errcode ≠ .ok := ⟨by rfl, by decide +kernel⟩

theorem witness_OnlyResultCommandsChangeRes :
    let s := mini [(2, 1)] .reset
    exec (.cmp 1 2) s = .next (left (.cmp 1 2) s) ∧ (left (.cmp 1 2) s).res ≠ s.res := ⟨by rfl, by decide +kernel⟩

theorem witness_OnlyThreeCommandsDraw :
    let s := mini [] (args 0 0 0 0 0 1) [] [.value 0]
    exec (.randbits 1) s = .next (left (.randbits 1) s) ∧ ¬ NoDraw s (left (.randbits 1) s) :=
  ⟨by rfl, fun h => absurd h.2 (by decide +kernel)⟩

/-- A failed draw, and then a soft reset pending while RNGF = 1. -/
theorem witness_RngFailureIsStickyUntilReset :
    (let s := mini [] (args 0 0 0 0 0 1) [] [.fail];
      exec (.randbits 1) s = .next (left (.randbits 1) s) ∧ (left (.randbits 1) s).errcode = .rngUnavailable) ∧
      (let s := { idle with status := { Status.reset with rngf := true }, agenda := [.host (.write .word 0x010 1)] };
        s.status.rngf = true ∧ ∃ t, step s = .next t) :=
  ⟨⟨by rfl, by decide +kernel⟩, rfl, _, rfl⟩

theorem witness_EveryStepKeepsTheInvariant :
    (mini [(1, 0xFFFFFFFFFFFFFFFF)] .reset).Inv ∧ ∃ t, step (mini [(1, 0xFFFFFFFFFFFFFFFF)] .reset) = .next t :=
  ⟨busy_inv _ _ _ _ _ (by decide) (by decide +kernel) rfl rfl, _, rfl⟩

/-- A CMD write while busy. -/
theorem witness_BusyHostAccessesCannotChangeTheResult :
    (flying 0x02).status.busy = true ∧ (State.hostAccess (.write .word 0x01C 0x03) (flying 0x02)).status.busy = true := ⟨rfl, rfl⟩

theorem witness_FixedWindowExponentiationAgrees : 1 ≤ 1 ∧ 2 ^ 64 - 1 < 2 ^ 64 ∧ 0 < 2 ^ 0 := by decide

theorem witness_IssuedCommandsComplete : (flying 0x02).params.legal = true := by decide

end Sys2Proof.Tests
end

section
/-! PROOFS. The scope of the model (spec/00_scope.md): which configurations `step` refuses. -/

namespace Sys2Proof

/-- Rule R8's seven constraints, as the Boolean check reads them. -/
theorem Params.legal_iff (p : Params) :
    p.legal = true ↔
      64 ∣ p.maxbits ∧ 64 ≤ p.maxbits ∧ p.maxbits ≤ 2 ^ 24 ∧
      4 ∣ p.bufsz ∧ 256 ≤ p.bufsz ∧ p.bufsz ≤ 2 ^ 24 ∧ 3 ≤ p.tdBound := by
  simp only [Params.legal, Bool.and_eq_true, decide_eq_true_eq, Nat.dvd_iff_mod_eq_zero, and_assoc]

namespace Machine

theorem step_of_legal {s : State} (h : s.params.legal = true) : step s = s.advance := if_pos h

theorem step_of_not_legal {s : State} (h : ¬ s.params.legal = true) : step s = .refused .notAnMbe := if_neg h

/-- A legal configuration always moves (`State.advance_next`), so the parameters alone decide a refusal. -/
theorem step_eq_refused_iff (s : State) : step s = .refused .notAnMbe ↔ ¬ s.params.legal = true := by
  refine ⟨fun hrefused hlegal => ?_, step_of_not_legal⟩
  obtain ⟨t, hnext⟩ := s.advance_next
  rw [step_of_legal hlegal, hnext] at hrefused
  cases hrefused

/-- Settles O8: a refusal is an illegal configuration, and legality is rule R8's seven constraints. -/
theorem exactlyTheIllegalConfigurationsAreRefused : Obligations.ExactlyTheIllegalConfigurationsAreRefused :=
  fun s => (step_eq_refused_iff s).trans (not_congr s.params.legal_iff)

end Machine

end Sys2Proof
end

section
/-! PROOFS. The state as software sees it (spec/10_state.md): the two resets and the CTRL and CMD registers. -/

namespace Sys2Proof.Machine

/-- ERRCODE is OK after a reset, so STATUS.ERR is 0 (rules R28 and R42). -/
@[simp] theorem State.resetMbe_err (s : State) : s.resetMbe.err = false := by
  simp [State.err, ErrCode.code]

/-- STATUS reads 0 after a reset: no stored bit is set, and neither is ERR (rules R28 and R42). -/
@[simp] theorem State.resetMbe_statusWord (s : State) : s.resetMbe.statusWord = 0 := by
  simp [State.statusWord, Status.reset, bitAt]

/-- Whatever the state was, busy or not, both resets leave the values of rule R42. -/
theorem State.resetMbe_resetValues (s : State) : ResetValues s.resetMbe where
  regs := s.resetMbe_reg
  buf := Memory.read_nil
  status := s.resetMbe_statusWord
  idle := rfl
  errcode := rfl
  cmd := rfl
  res := rfl
  hashcfg := rfl
  rounds := rfl
  klen := rfl
  args := ⟨rfl, rfl, rfl, rfl, rfl, rfl⟩
  ier := rfl
  ident := rfl
  maxbitsR := rfl
  bufszR := rfl
  nregR := rfl
  irq := rfl

/-- The bus answer is no part of what rule R42 gives a value. -/
theorem ResetValues.taken {t : State} (h : ResetValues t) : ResetValues t.taken := { h with }

/-- The power-on state is itself what a reset leaves, so rule R42 holds of it too. -/
theorem State.reset_eq_resetMbe : State.reset = State.reset.resetMbe := rfl

/-- A pending hardware reset is one step, whatever the engine is doing (rule R260). -/
theorem step_of_hardReset {s : State} {rest : List Event} (hlegal : s.params.legal = true)
    (hagenda : s.agenda = .hardReset :: rest) : step s = .next { s with agenda := rest }.resetMbe := by
  rw [step_of_legal hlegal]
  simp only [State.advance, hagenda, State.perform]

/-- Settles O9: the step is `State.resetMbe`, and State.reset is a fixed point of it. -/
theorem hardwareResetLeavesTheStatedValues : Obligations.HardwareResetLeavesTheStatedValues := by
  refine ⟨State.reset_eq_resetMbe ▸ State.reset.resetMbe_resetValues, fun s rest hlegal hagenda => ?_⟩
  exact ⟨_, step_of_hardReset hlegal hagenda, State.resetMbe_resetValues _, rfl, rfl, rfl, rfl⟩

theorem writeCsr_ctrl_of_srst {w : Word} (h : w.getLsbD 0 = true) (s : State) : writeCsr .ctrl w s = s.resetMbe := if_pos h

theorem writeCsr_ctrl_of_not_srst {w : Word} (h : w.getLsbD 0 = false) (s : State) : writeCsr .ctrl w s = s :=
  if_neg (Bool.eq_false_iff.1 h)

/-- Settles O10: the write and the hardware reset are the same `State.resetMbe`, and the bus takes the write on top. -/
theorem softResetEqualsHardwareReset : Obligations.SoftResetEqualsHardwareReset := by
  intro s w
  obtain ⟨hread, hwrite⟩ := State.hostAccess_csrAt (show csrAt 0x010 = some .ctrl from rfl) s
  refine ⟨fun hset => ⟨s.resetMbe.taken, ?_, s.resetMbe_resetValues.taken, rfl, rfl, rfl, rfl,
    fun _ => step_of_hardReset⟩, fun hclear => ?_, hread⟩
  · rw [hwrite, writeCsr_ctrl_of_srst hset]
  · rw [hwrite, writeCsr_ctrl_of_not_srst hclear, State.taken]

theorem State.writeCmd_of_idle {s : State} (h : s.status.busy = false) (w : Word) : s.writeCmd w = s.issue w :=
  if_neg (Bool.eq_false_iff.1 h)

theorem State.writeCmd_of_busy {s : State} (h : s.status.busy = true) (w : Word) :
    s.writeCmd w = { s with status := { s.status with overrun := true } } := if_pos h

/-- Settles O11: a write to 0x01C is `State.writeCmd`, which BUSY alone decides. -/
theorem cmdIssuesWhenIdleAndDropsWhenBusy : Obligations.CmdIssuesWhenIdleAndDropsWhenBusy := by
  intro s w
  obtain ⟨hread, hwrite⟩ := State.hostAccess_csrAt (show csrAt 0x01C = some .cmd from rfl) s
  refine ⟨fun hidle => ?_, fun hbusy => ?_, hread, rfl⟩
  · rw [hwrite, writeCsr, State.writeCmd_of_idle hidle, State.issue, State.taken]
  · rw [hwrite, writeCsr, State.writeCmd_of_busy hbusy, State.taken]

end Sys2Proof.Machine
end

section
/-! PROOFS. The host's view of memory (spec/20_memory.md): refused CSR accesses and the accesses a busy engine drops. -/

namespace Sys2Proof.Machine

/-- The unmapped offsets (rule R25): those that are misaligned, and those past the last CSR. -/
theorem csrAt_eq_none_iff (o : Nat) : csrAt o = none ↔ o % 4 ≠ 0 ∨ 0x048 < o := by
  rw [← Option.not_isSome_iff_eq_none, csrAt_isSome_iff]
  omega

theorem csrAt_offset (c : Csr) : csrAt c.offset = some c := (csrAt_eq_some_iff c.offset c).2 rfl

/-- The CSR map has no gap: every aligned offset up to the last CSR is some CSR's (rule R25). -/
theorem exists_eq_offset {o : Nat} (haligned : o % 4 = 0) (hlast : o ≤ 0x048) : ∃ c : Csr, o = c.offset := by
  obtain ⟨c, hc⟩ := Option.isSome_iff_exists.1 ((csrAt_isSome_iff o).2 ⟨haligned, hlast⟩)
  exact ⟨c, (csrAt_eq_some_iff o c).1 hc⟩

theorem State.writeOperand_of_busy {s : State} (h : s.status.busy = true) (upd : Operands → Operands) :
    s.writeOperand upd = s.accessError := if_pos h

theorem State.writeOperand_of_idle {s : State} (h : s.status.busy = false) (upd : Operands → Operands) :
    s.writeOperand upd = { s with csr := upd s.csr } := if_neg (Bool.eq_false_iff.1 h)

theorem State.writeIer_of_busy {s : State} (h : s.status.busy = true) (w : Word) : s.writeIer w = s.accessError := if_pos h

theorem State.writeIer_of_idle {s : State} (h : s.status.busy = false) (w : Word) :
    s.writeIer w = { s with doneIe := w.getLsbD 0 } := if_neg (Bool.eq_false_iff.1 h)

/-- Issue and overrun both leave ACCERR alone (rules R24 and R30). -/
@[simp] theorem State.writeCmd_accerr (w : Word) (s : State) : (s.writeCmd w).status.accerr = s.status.accerr := by
  unfold State.writeCmd
  split <;> rfl

/-- The CSRs from HASHCFG on are the operand CSRs and IER: exactly those a busy engine does not let the host write (rule R27). -/
theorem writeCsr_of_busy {c : Csr} {s : State} (hbusy : s.status.busy = true) (hc : 0x024 ≤ c.offset) (w : Word) :
    writeCsr c w s = s.accessError := by
  cases c with
  | id | maxbitsR | bufszR | nregR | ctrl | status | errcode | cmd | res => exact absurd hc (by decide)
  | hashcfg | rounds | klen | arg0 | arg1 | arg2 | arg3 | arg4 | arg5 =>
    rw [writeCsr, State.writeOperand_of_busy hbusy]
  | ier => exact State.writeIer_of_busy hbusy w

/-- No other CSR write sets ACCERR: CTRL's reset and STATUS's W1C can only clear it (rules R28 and R261). -/
theorem accerr_of_writeCsr {c : Csr} {s : State} {w : Word} (htaken : ¬ (s.status.busy = true ∧ 0x024 ≤ c.offset))
    (h : (writeCsr c w s).status.accerr = true) : s.status.accerr = true := by
  have idle (hc : 0x024 ≤ c.offset) : s.status.busy = false := Bool.eq_false_iff.2 fun hbusy => htaken ⟨hbusy, hc⟩
  cases c with
  | id | maxbitsR | bufszR | nregR | errcode | res => exact h
  | ctrl =>
    cases hw : w.getLsbD 0 with
    | true => simp [writeCsr_ctrl_of_srst hw, Status.reset] at h
    | false => rwa [writeCsr_ctrl_of_not_srst hw] at h
  | status => exact (Bool.and_eq_true_iff.1 h).1
  | cmd => rwa [writeCsr, State.writeCmd_accerr] at h
  | hashcfg | rounds | klen | arg0 | arg1 | arg2 | arg3 | arg4 | arg5 =>
    rwa [writeCsr, State.writeOperand_of_idle (idle (by decide))] at h
  | ier => rwa [writeCsr, State.writeIer_of_idle (idle (by decide))] at h

/-- While busy, the host's write to an operand CSR or IER ends like a refused one (rules R27 and R52). -/
theorem State.hostAccess_write_of_busy {c : Csr} {s : State} (hbusy : s.status.busy = true) (hc : 0x024 ≤ c.offset)
    (w : Word) : s.hostAccess (.write .word c.offset w) = s.refuse false := by
  obtain ⟨-, hwrite⟩ := State.hostAccess_csrAt (csrAt_offset c) s
  rw [hwrite, writeCsr_of_busy hbusy hc]
  rfl

/-- Settles O16: an offset is refused where `csrAt` maps no CSR; at a CSR's own offset only the busy drop sets ACCERR. -/
theorem illegalCsrAccessesAreRefused : Obligations.IllegalCsrAccessesAreRefused := by
  intro s width offset hregion
  constructor
  · intro hillegal
    rw [← csrAt_eq_none_iff] at hillegal
    exact State.hostAccess_refused hregion hillegal s
  · rintro ⟨rfl, haligned, hlast⟩
    obtain ⟨c, rfl⟩ := exists_eq_offset haligned hlast
    obtain ⟨hread, hwrite⟩ := State.hostAccess_csrAt (csrAt_offset c) s
    refine ⟨⟨readCsr c s, hread⟩, fun w => ⟨?_, fun ⟨hbusy, hoperand⟩ => ?_, fun htaken haccerr => ?_⟩⟩
    · rw [hwrite, State.taken_reply]
    · exact State.hostAccess_write_of_busy hbusy hoperand w
    · rw [hwrite, State.taken_status] at haccerr
      exact accerr_of_writeCsr htaken haccerr

theorem State.bufRead_of_busy {s : State} (h : s.status.busy = true) (width : Width) (k : Nat) :
    s.bufRead width k = s.refuse true := if_pos h

theorem State.bufWrite_of_busy {s : State} (h : s.status.busy = true) (width : Width) (k : Nat) (w : Word) :
    s.bufWrite width k w = s.refuse false := if_pos h

/-- Settles O12: BUSY refuses a BUF access before its width is looked at, and STATUS's write does not look at BUSY. -/
theorem busyEngineDropsOperandAndBufAccesses : Obligations.BusyEngineDropsOperandAndBufAccesses := by
  intro s hbusy
  refine ⟨fun w offset hmem => ?_, fun width k hk => ?_, fun w => ?_⟩
  · have hoperand : 0x024 ≤ offset ∧ offset % 4 = 0 ∧ offset ≤ 0x048 := by
      revert offset
      decide
    obtain ⟨hfirst, haligned, hlast⟩ := hoperand
    obtain ⟨c, rfl⟩ := exists_eq_offset haligned hlast
    exact State.hostAccess_write_of_busy hbusy hfirst w
  · obtain ⟨hread, hwrite⟩ := State.hostAccess_buf hk width
    refine ⟨?_, fun w => ?_⟩
    · rw [hread, State.bufRead_of_busy hbusy, State.refuse_read]
    · rw [hwrite, State.bufWrite_of_busy hbusy, State.refuse_write]
  · obtain ⟨-, hwrite⟩ := State.hostAccess_csrAt (show csrAt 0x014 = some .status from rfl) s
    rw [hwrite, writeCsr, Status.writeOneToClear, State.taken]

end Sys2Proof.Machine
end

section
/-! PROOFS. Command encoding (spec/30_encoding.md): which words are legal, and which row of the opcode table a word selects.

Rules R73 and R75 both speak of masks, and every mask here is a union of the fields of rule R70. So the proofs ask only
on which fields two words agree: with 0 for the unused fields of a legal word, with its pattern for a row. -/

namespace Sys2Proof

/-! ### Masks of the fields of rule R70 -/

/-- The word whose bits are those of the `len`-bit field that starts at bit `lo`. -/
def fieldMask (lo len : Nat) : Word := (BitVec.allOnes len).setWidth 32 <<< lo

/-- What a field's mask keeps of a word is the field. -/
theorem and_fieldMask (w : Word) (lo len : Nat) :
    w &&& fieldMask lo len = (w.extractLsb' lo len).setWidth 32 <<< lo := by
  ext i hi
  by_cases hlo : i < lo
  · simp [fieldMask, hlo]
  · have hbit : lo + (i - lo) = i := by omega
    simp [fieldMask, hlo, hbit, hi, ← BitVec.getLsbD_eq_getElem, show i - lo < 32 by omega, Bool.and_comm]

theorem extractLsb'_and_fieldMask (w : Word) (lo len : Nat) :
    (w &&& fieldMask lo len).extractLsb' lo len = w.extractLsb' lo len := by
  ext i hi
  suffices w.getLsbD (lo + i) = true → lo + i < 32 ∧ i < 32 by simpa [fieldMask, hi]
  intro hbit
  have := BitVec.lt_of_getLsbD hbit
  omega

/-- Two words agree under a field's mask iff they hold the same field. -/
theorem and_fieldMask_eq_iff (w v : Word) (lo len : Nat) :
    w &&& fieldMask lo len = v &&& fieldMask lo len ↔ w.extractLsb' lo len = v.extractLsb' lo len := by
  constructor
  · intro h
    rw [← extractLsb'_and_fieldMask w, h, extractLsb'_and_fieldMask]
  · intro h
    rw [and_fieldMask, and_fieldMask, h]

/-- Agreement under a union of masks is agreement under each. -/
theorem and_or_eq_iff (w v a b : Word) : w &&& (a ||| b) = v &&& (a ||| b) ↔ w &&& a = v &&& a ∧ w &&& b = v &&& b := by
  constructor
  · intro h
    have ha : (a ||| b) &&& a = a := by ext; grind
    have hb : (a ||| b) &&& b = b := by ext; grind
    constructor
    · rw [← ha, ← BitVec.and_assoc, h, BitVec.and_assoc]
    · rw [← hb, ← BitVec.and_assoc, h, BitVec.and_assoc]
  · rintro ⟨ha, hb⟩
    rw [BitVec.and_or_distrib_left, BitVec.and_or_distrib_left, ha, hb]

/-- A word is 0 under a union of masks iff it is 0 under each. -/
theorem and_or_eq_zero_iff (w a b : Word) : w &&& (a ||| b) = 0 ↔ w &&& a = 0 ∧ w &&& b = 0 := by
  simpa using and_or_eq_iff w 0 a b

theorem and_fieldMask_eq_zero_iff (w : Word) (lo len : Nat) : w &&& fieldMask lo len = 0 ↔ w.extractLsb' lo len = 0 := by
  simpa using and_fieldMask_eq_iff w 0 lo len

/-! ### Legal words (rule R75) -/

/-- The mask of a field that has to be 0 unless the opcode uses it. -/
def unusedField (used : Bool) (lo len : Nat) : Word := if used then 0 else fieldMask lo len

theorem and_unusedField_eq_zero_iff (w : Word) (used : Bool) (lo len : Nat) :
    w &&& unusedField used lo len = 0 ↔ (used || decide (w.extractLsb' lo len = 0)) = true := by
  cases used with
  | false => simpa [unusedField] using and_fieldMask_eq_zero_iff w lo len
  | true => simp [unusedField]

/-- The bits that rule R75 wants 0 of an opcode that uses the fields `u`: bits 31:25 and every unused field. -/
def FieldUse.mustBeZero (u : FieldUse) : Word :=
  fieldMask 25 7 ||| unusedField u.rd 8 4 ||| unusedField u.rs1 12 4 ||| unusedField u.rs2 16 4 |||
    unusedField u.rs3 20 4 ||| unusedField u.odd 24 1

theorem legalWord_iff (w : Word) :
    legalWord w = true ↔ ∃ u, opMap.lookup (opOf w) = some u ∧ w &&& u.mustBeZero = 0 := by
  rw [legalWord, opOf]
  cases opMap.lookup (w.extractLsb' 0 8) with
  | none => simp
  | some u =>
    simp only [Option.some.injEq, exists_eq_left', FieldUse.mustBeZero, and_or_eq_zero_iff, and_unusedField_eq_zero_iff,
      and_fieldMask_eq_zero_iff, Bool.and_eq_true, decide_eq_true_eq]

/-- The decoder's `usedmask` and the opcode map's fields say the same of every opcode. -/
theorem opEntry_mask_eq_opMap (op : BitVec 8) :
    (opEntry op).map (fun e => ~~~e.1) = (opMap.lookup op).map FieldUse.mustBeZero := by
  revert op
  decide +kernel

/-- Rule R75's legality in the decoder's terms: an opcode of the map, and 0 outside its `usedmask`. -/
theorem legalWord_iff_opEntry (w : Word) : legalWord w = true ↔ ∃ e, opEntry (opOf w) = some e ∧ w &&& ~~~e.1 = 0 := by
  have hmask := opEntry_mask_eq_opMap (opOf w)
  rw [legalWord_iff]
  constructor
  · rintro ⟨u, hu, hzero⟩
    rw [hu, Option.map_some, Option.map_eq_some_iff] at hmask
    obtain ⟨e, he, hem⟩ := hmask
    exact ⟨e, he, hem ▸ hzero⟩
  · rintro ⟨e, he, hzero⟩
    rw [he, Option.map_some, eq_comm, Option.map_eq_some_iff] at hmask
    obtain ⟨u, hu, hum⟩ := hmask
    exact ⟨u, hu, hum ▸ hzero⟩

theorem reserved_eq_zero_of_legalWord {w : Word} (h : legalWord w = true) : w.extractLsb' 25 7 = 0 := by
  obtain ⟨u, -, hzero⟩ := (legalWord_iff w).1 h
  simp only [FieldUse.mustBeZero, and_or_eq_zero_iff, and_fieldMask_eq_zero_iff] at hzero
  tauto

/-- The check of bits 31:25 only picks the name of the error: no `usedmask` reaches into them. -/
theorem decode_eq_ok_iff (w : Word) (i : Instr) :
    decode w = .ok i ↔ ∃ e, opEntry (opOf w) = some e ∧ w &&& ~~~e.1 = 0 ∧ e.2 w = i := by
  have hreserved (h : ∃ e, opEntry (opOf w) = some e ∧ w &&& ~~~e.1 = 0) : w.extractLsb' 25 7 = 0 :=
    reserved_eq_zero_of_legalWord ((legalWord_iff_opEntry w).2 h)
  unfold decode
  cases he : opEntry (opOf w) with
  | none => simp
  | some e =>
    by_cases hzero : w &&& ~~~e.1 = 0
    · simp [hzero, hreserved ⟨e, he, hzero⟩]
    · simp only [ne_eq, hzero, not_false_eq_true, if_true, Option.some.injEq, exists_eq_left', false_and, iff_false]
      split <;> simp

theorem decode_isOk_iff_legalWord (w : Word) : (∃ i, decode w = .ok i) ↔ legalWord w = true := by
  rw [legalWord_iff_opEntry]
  constructor
  · rintro ⟨i, hi⟩
    obtain ⟨e, he, hzero, -⟩ := (decode_eq_ok_iff w i).1 hi
    exact ⟨e, he, hzero⟩
  · rintro ⟨e, he, hzero⟩
    exact ⟨e.2 w, (decode_eq_ok_iff w _).2 ⟨e, he, hzero, rfl⟩⟩

/-! ### Rows of the opcode table (rule R73) -/

/-- The opcode and the bit `odd` decide which command a legal word stands for; the other fields are its operands. -/
theorem mnemonic_congr {op : BitVec 8} {e : Word × (Word → Instr)} (he : opEntry op = some e) {w v : Word}
    (hodd : oddOf w = oddOf v) : (e.2 w).mnemonic = (e.2 v).mnemonic := by
  unfold opEntry at he
  split at he <;> cases he
  -- RANDBITS, the one opcode that stands for two commands
  case h_15.refl =>
    simp only [hodd]
    split <;> rfl
  all_goals rfl

theorem oddOf_eq_iff (w v : Word) : oddOf w = oddOf v ↔ w.extractLsb' 24 1 = v.extractLsb' 24 1 := by
  simp [oddOf, BitVec.eq_of_getLsbD_eq_iff]

/-- The mask of a row covers its opcode, the bit `odd` and what its opcode wants 0; its pattern is a word of its command. -/
theorem opEntry_of_row : ∀ row ∈ opcodeRows, ∃ e ∈ opEntry (opOf row.pattern),
    row.mask = fieldMask 0 8 ||| fieldMask 24 1 ||| ~~~e.1 ∧ row.pattern &&& row.mask = row.pattern ∧
      row.pattern &&& ~~~e.1 = 0 ∧ (e.2 row.pattern).mnemonic = row.mnemonic := by
  decide

theorem mnemonics_nodup : (opcodeRows.map OpcodeRow.mnemonic).Nodup := by decide

/-- Every command has a row: one for each opcode, and a second for the opcode that uses `odd`. -/
theorem exists_row (op : BitVec 8) (odd : Bool) : ∀ e ∈ opEntry op, (odd = true → e.1.getLsbD 24 = true) →
    ∃ row ∈ opcodeRows, opOf row.pattern = op ∧ oddOf row.pattern = odd := by
  revert op odd
  decide +kernel

/-- What a row selects: the legal words with its opcode and its bit `odd`. -/
theorem selects_iff {row : OpcodeRow} (hrow : row ∈ opcodeRows) (w : Word) :
    w &&& row.mask = row.pattern ↔
      opOf w = opOf row.pattern ∧ oddOf w = oddOf row.pattern ∧ legalWord w = true := by
  obtain ⟨e, he, hmask, hpattern, hunused, -⟩ := opEntry_of_row row hrow
  have hlegal (hop : opOf w = opOf row.pattern) : legalWord w = true ↔ w &&& ~~~e.1 = row.pattern &&& ~~~e.1 := by
    rw [legalWord_iff_opEntry, hop, he, hunused]
    simp
  calc w &&& row.mask = row.pattern
    _ ↔ w &&& row.mask = row.pattern &&& row.mask := by rw [hpattern]
    _ ↔ (opOf w = opOf row.pattern ∧ oddOf w = oddOf row.pattern) ∧ w &&& ~~~e.1 = row.pattern &&& ~~~e.1 := by
      rw [hmask, and_or_eq_iff, and_or_eq_iff, and_fieldMask_eq_iff, and_fieldMask_eq_iff, oddOf_eq_iff, opOf, opOf]
    _ ↔ opOf w = opOf row.pattern ∧ oddOf w = oddOf row.pattern ∧ legalWord w = true := by
      rw [and_assoc]
      exact and_congr_right fun hop => and_congr_right fun _ => (hlegal hop).symm

/-- A word that a row selects decodes to that row's command. -/
theorem mnemonic_of_selects {row : OpcodeRow} (hrow : row ∈ opcodeRows) {w : Word} (hw : w &&& row.mask = row.pattern)
    {i : Instr} (hi : decode w = .ok i) : i.mnemonic = row.mnemonic := by
  obtain ⟨hop, hodd, -⟩ := (selects_iff hrow w).1 hw
  obtain ⟨e, he, -, -, -, hname⟩ := opEntry_of_row row hrow
  obtain ⟨e', he', -, rfl⟩ := (decode_eq_ok_iff w i).1 hi
  rw [hop] at he'
  cases he.symm.trans he'
  rw [mnemonic_congr he hodd, hname]

/-- No word of a command is outside the table. -/
theorem exists_selects_of_legalWord {w : Word} (h : legalWord w = true) :
    ∃ row ∈ opcodeRows, w &&& row.mask = row.pattern := by
  obtain ⟨e, he, hzero⟩ := (legalWord_iff_opEntry w).1 h
  have hused (hodd : oddOf w = true) : e.1.getLsbD 24 = true := by
    have hbit := congrArg (fun x : Word => x.getLsbD 24) hzero
    simpa [show w.getLsbD 24 = true from hodd] using hbit
  obtain ⟨row, hrow, hop, hodd⟩ := exists_row (opOf w) (oddOf w) e he hused
  exact ⟨row, hrow, (selects_iff hrow w).2 ⟨hop.symm, hodd.symm, h⟩⟩

/-- Settles O4: a word's rows are those of its opcode and its bit `odd`, and no two rows share a mnemonic. -/
theorem wordSelectsExactlyItsTableRow : Obligations.WordSelectsExactlyItsTableRow := by
  intro row hrow w
  constructor
  · rintro ⟨i, hi, hname⟩
    obtain ⟨row', hrow', hw⟩ := exists_selects_of_legalWord ((decode_isOk_iff_legalWord w).1 ⟨i, hi⟩)
    have hsame : row' = row :=
      List.inj_on_of_nodup_map mnemonics_nodup hrow' hrow ((mnemonic_of_selects hrow' hw hi).symm.trans hname)
    exact hsame ▸ hw
  · intro hw
    obtain ⟨-, -, hlegal⟩ := (selects_iff hrow w).1 hw
    obtain ⟨i, hi⟩ := (decode_isOk_iff_legalWord w).2 hlegal
    exact ⟨i, hi, mnemonic_of_selects hrow hw hi⟩

/-! ### Illegal words (rule R76) -/

/-- The opcodes that rule R76 reserves are not in the opcode map. -/
theorem lookup_reserved (op : BitVec 8)
    (h : (0x04 ≤ op.toNat ∧ op.toNat ≤ 0x0F) ∨ (0x18 ≤ op.toNat ∧ op.toNat ≤ 0x1F) ∨
      (0x23 ≤ op.toNat ∧ op.toNat ≤ 0x2F) ∨ (0x31 ≤ op.toNat ∧ op.toNat ≤ 0x3F) ∨ 0x43 ≤ op.toNat) : opMap.lookup op = none := by
  revert op
  decide +kernel

theorem legalWord_eq_false_of_lookup {w : Word} (h : opMap.lookup (opOf w) = none) : legalWord w = false := by
  rw [Bool.eq_false_iff, ne_eq, legalWord_iff, h]
  simp

/-- The only word that NOP's row selects is 0. -/
theorem eq_zero_of_decode_nop {w : Word} (h : decode w = .ok .nop) : w = 0 := by
  have hrow : (⟨"nop", 0x00000000, 0xFFFFFFFF⟩ : OpcodeRow) ∈ opcodeRows := by decide
  have hselects : w &&& 0xFFFFFFFF = 0 := (wordSelectsExactlyItsTableRow _ hrow w).1 ⟨.nop, h, rfl⟩
  rwa [show (0xFFFFFFFF : Word) = BitVec.allOnes 32 from rfl, BitVec.and_allOnes] at hselects

namespace Machine

theorem State.completion_of_illegal {s : State} (h : legalWord s.cur = false) :
    s.completion = .next (s.afterError .illegalCommand) := by
  have hdecode : ¬ ∃ i, decode s.cur = .ok i := fun hok => absurd ((decode_isOk_iff_legalWord _).1 hok) (by simp [h])
  rw [State.completion]
  cases hd : decode s.cur with
  | ok i => exact absurd ⟨i, hd⟩ hdecode
  | error _ => exact congrArg _ (s.raise_eq_afterError _ (by decide))

end Machine

/-- Settles O3: legality is the decoder's own test, and the error exit of its failures writes nothing else. -/
theorem illegalWordsRaiseIllegalCommand : Obligations.IllegalWordsRaiseIllegalCommand :=
  ⟨decode_isOk_iff_legalWord, fun _ hop => legalWord_eq_false_of_lookup (lookup_reserved _ hop),
    fun _ => eq_zero_of_decode_nop, fun _ => Machine.State.completion_of_illegal⟩

end Sys2Proof
end

section
/-! PROOFS. Arithmetic (spec/41_bigint_arith.md): one equation of `exec` per command, and from it the command's result. -/

namespace Sys2Proof

/-- The opcode of a command's word does not depend on its register fields (rule R70). -/
theorem opOf_cmdWord {op odd : Nat} (hop : op < 256) (hodd : odd < 2) (rd rs1 rs2 rs3 : Reg) :
    opOf (cmdWord op rd rs1 rs2 rs3 odd) = BitVec.ofNat 8 op :=
  (fields_cmdWord hop hodd rd rs1 rs2 rs3).1

namespace Machine

/-! ### Ways a command ends -/

theorem exists_writesReg {i : Instr} {rd : Reg} {v : Nat} {s : State} (h : exec i s = .next (s.setReg rd v).complete) :
    ∃ t, exec i s = .next t ∧ WritesReg rd v s t ∧ NoDraw s t :=
  ⟨_, h, s.setReg_writesReg rd v, rfl, rfl⟩

/-- A command whose result is checked against MAXBITS (rule R116): ADD and MUL. -/
theorem exists_writesReg_or_capacity {i : Instr} {rd : Reg} {v : Nat} {s : State} (h : exec i s = .next (s.completeReg rd v)) :
    (v < 2 ^ s.params.maxbits → ∃ t, exec i s = .next t ∧ WritesReg rd v s t ∧ NoDraw s t) ∧
      (2 ^ s.params.maxbits ≤ v → exec i s = .next (s.afterError .capacity)) := by
  obtain ⟨hfits, hcapacity⟩ := s.completeReg_effect rd v
  exact ⟨fun hv => ⟨_, h, hfits hv⟩, fun hv => hcapacity hv ▸ h⟩

/-! ### What each command does -/

theorem exec_add (rd rs1 rs2 : Reg) (s : State) :
    exec (.add rd rs1 rs2) s = .next (s.completeReg rd (s.reg rs1 + s.reg rs2)) := rfl

theorem exec_mul (rd rs1 rs2 : Reg) (s : State) :
    exec (.mul rd rs1 rs2) s = .next (s.completeReg rd (s.reg rs1 * s.reg rs2)) := rfl

theorem exec_sub (rd rs1 rs2 : Reg) (s : State) :
    exec (.sub rd rs1 rs2) s =
      if s.reg rs1 < s.reg rs2 then .next (s.afterError .underflow)
      else .next (s.setReg rd (s.reg rs1 - s.reg rs2)).complete := by
  rw [← s.raise_eq_afterError _ (by decide)]
  rfl

theorem exec_modred (rd rs1 rs2 : Reg) (s : State) :
    exec (.modred rd rs1 rs2) s =
      if s.reg rs2 = 0 then .next (s.afterError .divByZero)
      else .next (s.setReg rd (s.reg rs1 % s.reg rs2)).complete := by
  rw [← s.raise_eq_afterError _ (by decide)]
  rfl

/-- The square-and-multiply algorithm replaced by the power it computes (rules R108 and R109). -/
theorem exec_modpow (rd rs1 rs2 rs3 : Reg) (s : State) :
    exec (.modpow rd rs1 rs2 rs3) s =
      if s.reg rs3 = 0 then .next (s.afterError .divByZero)
      else .next (s.setReg rd (s.reg rs1 ^ s.reg rs2 % s.reg rs3)).complete := by
  rw [← s.raise_eq_afterError _ (by decide), ← modPow_eq]
  rfl

theorem exec_modinv_of_eq_zero {rs2 : Reg} {s : State} (hn : s.reg rs2 = 0) (rd rs1 : Reg) :
    exec (.modinv rd rs1 rs2) s = .next (s.afterError .divByZero) := by
  rw [exec, execModinv, if_pos hn, ← s.raise_eq_afterError _ (by decide)]

theorem exec_modinv_of_none {rs1 rs2 : Reg} {s : State} (hn : s.reg rs2 ≠ 0)
    (h : modInverse (s.reg rs1) (s.reg rs2) = none) (rd : Reg) :
    exec (.modinv rd rs1 rs2) s = .next (s.afterError .notInvertible) := by
  rw [exec, execModinv, if_neg hn, h, ← s.raise_eq_afterError _ (by decide)]

theorem exec_modinv_of_some {rs1 rs2 : Reg} {s : State} (hn : s.reg rs2 ≠ 0) {y : Nat}
    (h : modInverse (s.reg rs1) (s.reg rs2) = some y) (rd : Reg) :
    exec (.modinv rd rs1 rs2) s = .next (s.setReg rd y).complete := by
  rw [exec, execModinv, if_neg hn, h]

theorem exec_cmp (rs1 rs2 : Reg) (s : State) :
    exec (.cmp rs1 rs2) s = .next (s.setRes (cmpWord (s.reg rs1) (s.reg rs2))).complete := rfl

theorem exec_bitlen (rs1 : Reg) (s : State) :
    exec (.bitlen rs1) s = .next (s.setRes (BitVec.ofNat 32 (bitlen (s.reg rs1)))).complete := rfl

/-! ### Facts about the results -/

/-- Two inverses of `a` in [0, n) are equal, for `a` can be cancelled modulo n (rule R110). -/
theorem inverse_unique {a n y z : Nat} (hgcd : Nat.gcd a n = 1) (hy : y < n) (hz : z < n)
    (hay : a * y % n = 1 % n) (haz : a * z % n = 1 % n) : z = y := by
  have hcancel : z ≡ y [MOD n] :=
    Nat.ModEq.cancel_left_of_coprime (Nat.gcd_comm a n ▸ hgcd) (haz.trans hay.symm)
  exact hcancel.eq_of_lt_of_lt hz hy

theorem cmpWord_of_lt {a b : Nat} (h : a < b) : cmpWord a b = 0xFFFFFFFF := if_pos h

theorem cmpWord_self (a : Nat) : cmpWord a a = 0 := by simp [cmpWord]

theorem cmpWord_of_gt {a b : Nat} (h : b < a) : cmpWord a b = 1 := by
  rw [cmpWord, if_neg h.not_gt, if_neg h.ne']

/-- A register's bit length is at most MAXBITS, and R8 keeps that below 2^32. -/
theorem State.Inv.bitlen_lt {s : State} (hinv : s.Inv) (r : Reg) : bitlen (s.reg r) < 2 ^ 32 := by
  obtain ⟨-, -, hmax, -⟩ := (Params.legal_iff _).1 hinv.legal
  calc bitlen (s.reg r) ≤ s.params.maxbits := (bitlen_le_iff _ _).2 (hinv.regs r)
    _ ≤ 2 ^ 24 := hmax
    _ < 2 ^ 32 := by norm_num

/-! ### The obligations -/

/-- Settles O24: both commands end in the one check against MAXBITS. -/
theorem addAndMulAreExactOrCapacity : Obligations.AddAndMulAreExactOrCapacity := by
  intro rd rs1 rs2 s
  obtain ⟨hsum, hsumCapacity⟩ := exists_writesReg_or_capacity (exec_add rd rs1 rs2 s)
  obtain ⟨hprod, hprodCapacity⟩ := exists_writesReg_or_capacity (exec_mul rd rs1 rs2 s)
  exact ⟨opOf_cmdWord (by decide) (by decide) .., opOf_cmdWord (by decide) (by decide) ..,
    hsum, hsumCapacity, hprod, hprodCapacity⟩

/-- Settles O27: the algorithm's value is the power (`modPow_eq`), and the modulus alone decides the error. -/
theorem modpowGivesTheModularPower : Obligations.ModpowGivesTheModularPower := by
  intro rd rs1 rs2 rs3 s
  refine ⟨opOf_cmdWord (by decide) (by decide) .., fun hn => exists_writesReg ?_, fun hn => ?_⟩
  · rw [exec_modpow, if_neg hn]
  · rw [exec_modpow, if_pos hn]

/-- Settles O28: the extended Euclidean algorithm finds an inverse iff one exists (`modInverse_spec`), and it is the only one. -/
theorem modinvGivesTheUniqueInverse : Obligations.ModinvGivesTheUniqueInverse := by
  intro rd rs1 rs2 s
  refine ⟨opOf_cmdWord (by decide) (by decide) .., fun hn hgcd => ?_, fun hn hgcd => ?_,
    fun hn => exec_modinv_of_eq_zero hn rd rs1⟩
  · obtain ⟨hinvertible, -⟩ := modInverse_spec (s.reg rs1) (Nat.pos_of_ne_zero hn)
    obtain ⟨y, hy, hlt, hmul⟩ := hinvertible hgcd
    obtain ⟨t, ht, hwrites, hdraw⟩ := exists_writesReg (exec_modinv_of_some hn hy rd)
    exact ⟨t, y, ht, hwrites, hdraw, hlt, hmul, fun z hz hmulz => inverse_unique hgcd hlt hz hmul hmulz⟩
  · obtain ⟨-, hnone⟩ := modInverse_spec (s.reg rs1) (Nat.pos_of_ne_zero hn)
    exact exec_modinv_of_none hn (hnone hgcd) rd

/-- Settles O30: k is the model's `bitlen`, which `bitlen_le_iff` makes the least exponent. -/
theorem bitlenIsTheLeastExponent : Obligations.BitlenIsTheLeastExponent := by
  intro rs1 s
  refine ⟨opOf_cmdWord (by decide) (by decide) .., _, bitlen (s.reg rs1), exec_bitlen rs1 s, s.setRes_writesRes _,
    ⟨rfl, rfl⟩, lt_two_pow_bitlen _, fun j => (bitlen_le_iff _ j).2, fun hinv => ?_⟩
  rw [State.complete_res, State.setRes_res, BitVec.toNat_ofNat, Nat.mod_eq_of_lt (hinv.bitlen_lt rs1)]

/-- Settles O25: where the difference is a natural, the truncated subtraction of the model is exact. -/
theorem subIsExactOrUnderflow : Obligations.SubIsExactOrUnderflow := by
  intro rd rs1 rs2 s
  refine ⟨opOf_cmdWord (by decide) (by decide) .., fun d hd => exists_writesReg ?_, fun hlt => ?_⟩
  · rw [exec_sub, if_neg (by omega), ← hd, Nat.add_sub_cancel_left]
  · rw [exec_sub, if_pos hlt]

/-- Settles O26: the remainder below a modulus is the one of Euclidean division. -/
theorem modredGivesTheRemainder : Obligations.ModredGivesTheRemainder := by
  intro rd rs1 rs2 s
  refine ⟨opOf_cmdWord (by decide) (by decide) .., fun q r hdiv hlt => exists_writesReg ?_, fun hn => ?_⟩
  · rw [exec_modred, if_neg (Nat.ne_zero_of_lt hlt), hdiv, Nat.mul_add_mod', Nat.mod_eq_of_lt hlt]
  · rw [exec_modred, if_pos hn]

/-- Settles O29: the pattern `cmpWord` picks in each of the three orders has that value as a signed word. -/
theorem cmpOrdersTheRegisters : Obligations.CmpOrdersTheRegisters := by
  intro rs1 rs2 s
  refine ⟨opOf_cmdWord (by decide) (by decide) .., _, cmpWord (s.reg rs1) (s.reg rs2), exec_cmp rs1 rs2 s,
    s.setRes_writesRes _, ⟨rfl, rfl⟩, fun hlt => ?_, fun heq => ?_, fun hgt => ?_⟩
  · rw [cmpWord_of_lt hlt]
    decide
  · rw [heq, cmpWord_self]
    decide
  · rw [cmpWord_of_gt hgt]
    decide

end Machine

end Sys2Proof
end

section
/-! PROOFS. Byte conversion (spec/42_bigint_bytes.md): one equation of `exec` per command, and which commands draw. -/

namespace Sys2Proof.Machine

/-! ### What each command does -/

/-- The range check as a sum of naturals (rule R53), and the value as rule R10's sum. -/
theorem exec_frombytes (rd : Reg) (s : State) :
    exec (.frombytes rd) s =
      if s.arg0 + s.arg1 ≤ s.params.bufsz then .next (s.completeReg rd (beSum s s.arg0 s.arg1))
      else .next (s.afterError .bufRange) := by
  rw [← s.raise_eq_afterError _ (by decide), ← be_readBuf]
  simp only [exec, execFrombytes, State.inRange_iff]

/-- The range check as a sum of naturals (rule R53). -/
theorem exec_tobytes (rs1 : Reg) (s : State) :
    exec (.tobytes rs1) s =
      if s.arg4 + tobytesLen s.arg5 (s.reg rs1) ≤ s.params.bufsz then
        .next ((s.writeBuf s.arg4 (i2osp (s.reg rs1) (tobytesLen s.arg5 (s.reg rs1)))).setRes
          (BitVec.ofNat 32 (tobytesLen s.arg5 (s.reg rs1)))).complete
      else .next (s.afterError .bufRange) := by
  rw [← s.raise_eq_afterError _ (by decide)]
  simp only [exec, execTobytes, State.inRange_iff]

/-! ### Facts about the results -/

/-- Rule R9's byte length is the least k with v < 256^k, and there is only one least. -/
theorem bytelen_eq_of_least {v len : Nat} (hfits : v < 256 ^ len) (hleast : ∀ j, v < 256 ^ j → len ≤ j) :
    bytelen v = len :=
  le_antisymm ((bytelen_le_iff v len).2 hfits) (hleast _ ((bytelen_le_iff v _).1 le_rfl))

/-- A command that is not one of rule R148's leaves the oracle's history alone, whichever way it ends. -/
theorem noDraw_of_not_isDrawing {i : Instr} {s t : State} (hi : isDrawing i = false) (ht : exec i s = .next t) :
    NoDraw s t := by
  obtain ⟨u, hu, hends⟩ := exec_ends i s
  obtain rfl : u = t := Host.Outcome.next.inj (hu.symm.trans ht)
  rcases hends with ⟨s', e, -, hsame, -, -, rfl⟩ | ⟨s', x, buf, res, -, hsame, -, rfl⟩
  · rw [hsame hi]
    exact ⟨rfl, rfl⟩
  · rw [hsame hi]
    exact ⟨rfl, rfl⟩

theorem mnemonic_mem_of_isDrawing {i : Instr} (hi : isDrawing i = true) :
    i.mnemonic ∈ ["randbits", "randbits.odd", "isprime", "oaep.pad"] := by
  cases i with
  | randbits | randbitsOdd | isprime | oaepPad => simp [Instr.mnemonic]
  | _ => cases hi

/-! ### The obligations -/

/-- Settles O31: past the range check, FROMBYTES ends in the check against MAXBITS that ADD and MUL end in. -/
theorem frombytesReadsBigEndian : Obligations.FrombytesReadsBigEndian := by
  intro rd s
  have hloads (hrange : s.arg0 + s.arg1 ≤ s.params.bufsz) :=
    exists_writesReg_or_capacity ((exec_frombytes rd s).trans (if_pos hrange))
  refine ⟨opOf_cmdWord (by decide) (by decide) .., fun hrange => ?_, fun hrange => ?_, fun hpast => ?_⟩
  · exact (hloads hrange).1
  · exact (hloads hrange).2
  · exact (exec_frombytes rd s).trans (if_neg hpast.not_ge)

/-- Settles O32: `len` is the model's `bytelen`, and the stored string is I2OSP, byte by byte `toNat_getElem_i2osp`. -/
theorem tobytesStoresBigEndian : Obligations.TobytesStoresBigEndian := by
  intro rs1 s len
  refine ⟨opOf_cmdWord (by decide) (by decide) .., fun hwf hfits hleast => ?_⟩
  obtain rfl := bytelen_eq_of_least hfits hleast
  refine ⟨fun hrange => ?_, fun hpast => (exec_tobytes rs1 s).trans (if_neg hpast.not_ge)⟩
  exact ⟨_, i2osp (s.reg rs1) (tobytesLen s.arg5 (s.reg rs1)), (exec_tobytes rs1 s).trans (if_pos hrange),
    length_i2osp _ _, toNat_getElem_i2osp _ _, State.writeBuf_writesBuf hwf _ _ rfl, rfl, rfl, rfl⟩

/-- Settles O52: every command that is not drawing makes no draw, and the drawing ones are those of the list. -/
theorem onlyThreeCommandsDraw : Obligations.OnlyThreeCommandsDraw := by
  intro i s t ht hdraw
  refine mnemonic_mem_of_isDrawing (Bool.of_not_eq_false fun hi => ?_)
  exact hdraw (noDraw_of_not_isDrawing hi ht)

end Sys2Proof.Machine
end

section
/-! PROOFS. MGF1 (spec/44_oaep.md): the bytes of the mask, and what `exec` answers for a reserved and for a named hash. -/

namespace Sys2Proof.Machine

/-! ### The mask -/

/-- Every block of the mask is hLen bytes long, so byte j of the mask lies in block j div hLen (rule R13). -/
theorem getElem?_mgf1 (f : HashFn) (z : List Byte) {l j : Nat} (h : j < l) :
    (mgf1 f z l)[j]? = (hash f (z ++ c4 (j / hashLen f)))[j % hashLen f]? := by
  have hblocks : j < (l + hashLen f - 1) / hashLen f * hashLen f := h.trans_le (le_ceilDiv_mul l (hashLen_pos f))
  rw [mgf1, List.getElem?_take_of_lt h]
  exact getElem?_flatMap_range _ (fun _ => length_hash f _) _ j hblocks

/-! ### What the command does -/

/-- A reserved selector is found before the ranges are looked at (rule R180). -/
theorem exec_mgf1_of_none {s : State} (h : s.mgfHash = none) : exec .mgf1 s = .next (s.afterError .illegalOperand) := by
  rw [exec, execMgf1, h, ← s.raise_eq_afterError _ (by decide)]

/-- The two range checks as sums of naturals (rule R53). -/
theorem exec_mgf1_of_some {s : State} {ms : HashFn} (h : s.mgfHash = some ms) :
    exec .mgf1 s =
      if s.arg0 + s.arg1 ≤ s.params.bufsz ∧ s.arg4 + s.arg5 ≤ s.params.bufsz then
        .next (s.writeBuf s.arg4 (mgf1 ms (s.readBuf s.arg0 s.arg1) s.arg5)).complete
      else .next (s.afterError .bufRange) := by
  rw [exec, execMgf1, h, ← s.raise_eq_afterError _ (by decide)]
  simp only [Bool.and_eq_true, State.inRange_iff]

/-! ### The obligation -/

/-- Settles O43: the stored string is the model's `mgf1`, byte by byte `getElem?_mgf1`, and only the selector inside MGF1
and the two ranges are looked at. -/
theorem mgf1WritesTheMask : Obligations.Mgf1WritesTheMask := by
  intro s
  refine ⟨opOf_cmdWord (by decide) (by decide) .., fun ms hms hwf hin hout => ?_, exec_mgf1_of_none, fun hsel hpast => ?_⟩
  · have hlen := length_mgf1 ms (s.readBuf s.arg0 s.arg1) s.arg5
    exact ⟨_, _, (exec_mgf1_of_some hms).trans (if_pos ⟨hin, hout⟩), hlen, fun j hj => getElem?_mgf1 ms _ (hlen ▸ hj),
      State.writeBuf_writesBuf hwf _ _ rfl, rfl, rfl, rfl⟩
  · obtain ⟨ms, hms⟩ := Option.ne_none_iff_exists'.1 hsel
    refine (exec_mgf1_of_some hms).trans (if_neg fun ⟨hin, hout⟩ => ?_)
    rcases hpast with hpast | hpast
    · exact hpast.not_ge hin
    · exact hpast.not_ge hout

end Sys2Proof.Machine
end

section
/-! PROOFS. Engine control (spec/45_engine_control.md): one equation of `exec` per command, and what a success keeps. -/

namespace Sys2Proof.Machine

/-! ### What each command does -/

theorem exec_nop (s : State) : exec .nop s = .next s.complete := rfl

theorem exec_mov (rd rs1 : Reg) (s : State) : exec (.mov rd rs1) s = .next (s.setReg rd (s.reg rs1)).complete := rfl

theorem exec_ldi (rd : Reg) (s : State) : exec (.ldi rd) s = .next (s.setReg rd s.snap.arg5.toNat).complete := rfl

/-- What ZEROIZE leaves but for the status (rule R213). -/
def State.zeroized (s : State) : State := { s with x := Vector.replicate 16 0, buf := [], res := 0 }

theorem exec_zeroize (s : State) : exec .zeroize s = .next s.zeroized.complete := rfl

/-! ### Facts about the results -/

@[simp] theorem State.zeroized_reg (s : State) (r : Reg) : s.zeroized.reg r = 0 := by
  simp [State.zeroized, State.reg]

@[simp] theorem State.zeroized_read (s : State) (a : Nat) : s.zeroized.buf.read a = 0 := Memory.read_nil a

@[simp] theorem State.zeroized_res (s : State) : s.zeroized.res = 0 := rfl

/-- A success that wrote nothing but registers, BUF and RES: the status is rule R24's, and the rest is kept. -/
theorem State.complete_keepsRest {s u : State} (h : u = { s with x := u.x, buf := u.buf, res := u.res }) :
    EndsOk s u.complete ∧ KeepsHostState s u.complete ∧ NoDraw s u.complete := by
  rw [h]
  refine ⟨State.complete_endsOk rfl, ?_, rfl, rfl⟩
  constructor <;> rfl

/-! ### The obligations -/

/-- Settles O21: NOP's completion is the status alone, and MOV's is one register written from another, as it stood. -/
theorem nopAndMovComplete : Obligations.NopAndMovComplete := by
  intro rd rs1 s
  refine ⟨opOf_cmdWord (by decide) (by decide) .., opOf_cmdWord (by decide) (by decide) .., ?_,
    exists_writesReg (exec_mov rd rs1 s)⟩
  exact ⟨_, exec_nop s, s.complete_reg, fun _ => rfl, s.complete_res, State.complete_keepsRest rfl⟩

/-- Settles O22: the value is the snapshot's ARG5 read as a natural, so no sign is extended. -/
theorem ldiLoadsArg5ZeroExtended : Obligations.LdiLoadsArg5ZeroExtended := fun rd s =>
  ⟨opOf_cmdWord (by decide) (by decide) .., exists_writesReg (exec_ldi rd s)⟩

/-- Settles O23: BUF with no listed offset reads 0 everywhere (`State.zeroized_read`), as the zeroed registers do. -/
theorem zeroizeClearsSecretState : Obligations.ZeroizeClearsSecretState := by
  intro s
  exact ⟨opOf_cmdWord (by decide) (by decide) .., _, exec_zeroize s, s.zeroized_reg, s.zeroized_read,
    s.zeroized_res, State.complete_keepsRest rfl⟩

end Sys2Proof.Machine
end

section
/-! PROOFS. Errors and events (spec/60_exceptions.md): how every command ends, and what a host access that raises OVERRUN or
ACCERR leaves unchanged. -/

namespace Sys2Proof.Machine

/-! ### How a command ends -/

/-- The error exit is the whole effect of a failed command but for the draws made (rule R235). -/
theorem FailsFrom.eq {d : Bool} {s t : State} (h : FailsFrom d s t) :
    t = { s with
      errcode := t.errcode
      status := { s.status with
        done := true
        busy := false
        rngf := s.status.rngf || decide (t.errcode = .rngUnavailable) }
      rng := t.rng
      draws := t.draws } := by
  obtain ⟨s', e, hdraws, -, -, -, rfl⟩ := h
  rw [hdraws]
  rfl

theorem SucceedsFrom.errcode {d r : Bool} {s t : State} (h : SucceedsFrom d r s t) : t.errcode = .ok := by
  obtain ⟨s', x, buf, res, -, -, -, rfl⟩ := h
  rfl

/-- What both ways to end have in common (rules R24, R230 and R231). -/
structure Completes (s t : State) : Prop where
  done : t.status.done = true
  busy : t.status.busy = false
  overrun : t.status.overrun = s.status.overrun
  accerr : t.status.accerr = s.status.accerr
  host : KeepsHostState s t
  engineCode : t.errcode.hostOnly = false

theorem FailsFrom.completes {d : Bool} {s t : State} (h : FailsFrom d s t) : Completes s t := by
  have hcode : t.errcode.hostOnly = false := by
    obtain ⟨s', e, -, -, -, hengine, rfl⟩ := h
    exact hengine
  rw [h.eq]
  exact ⟨rfl, rfl, rfl, rfl, ⟨rfl, rfl, rfl, rfl, rfl, rfl, rfl⟩, hcode⟩

theorem SucceedsFrom.completes {d r : Bool} {s t : State} (h : SucceedsFrom d r s t) : Completes s t := by
  obtain ⟨s', x, buf, res, hdraws, -, -, rfl⟩ := h
  rw [hdraws]
  exact ⟨rfl, rfl, rfl, rfl, ⟨rfl, rfl, rfl, rfl, rfl, rfl, rfl⟩, rfl⟩

/-! ### Accesses that raise OVERRUN or ACCERR -/

/-- A BUF read either is refused or leaves STATUS alone (rules R54 and R55). -/
theorem State.bufRead_refused_or_keepsStatus (width : Width) (k : Nat) (s : State) :
    s.bufRead width k = s.refuse true ∨ (s.bufRead width k).status = s.status := by
  unfold State.bufRead
  split
  · exact .inl rfl
  · cases width with
    | byte => exact .inr rfl
    | word =>
      by_cases haligned : k % 4 = 0
      · exact .inr (by simp [haligned])
      · exact .inl (by simp [haligned])
    | half | other => exact .inl rfl

/-- A BUF write either is refused or leaves STATUS alone (rules R54 and R55). -/
theorem State.bufWrite_refused_or_keepsStatus (width : Width) (k : Nat) (w : Word) (s : State) :
    s.bufWrite width k w = s.refuse false ∨ (s.bufWrite width k w).status = s.status := by
  unfold State.bufWrite
  split
  · exact .inl rfl
  · cases width with
    | byte => exact .inr rfl
    | word =>
      by_cases haligned : k % 4 = 0
      · exact .inr (by simp [haligned])
      · exact .inl (by simp [haligned])
    | half | other => exact .inl rfl

/-- Only a refusal or a CSR write can touch STATUS. -/
theorem State.hostAccess_status_cases (a : Access) (s : State) :
    (∃ isRead, s.hostAccess a = s.refuse isRead) ∨ (∃ c w, s.hostAccess a = (writeCsr c w s).taken) ∨
      (s.hostAccess a).status = s.status := by
  cases a with
  | read width o =>
    simp only [State.hostAccess]
    split
    · unfold State.csrRead
      split
      · exact .inr (.inr rfl)
      · exact .inl ⟨true, rfl⟩
    · split
      · rcases s.bufRead_refused_or_keepsStatus width (o - bufStart) with hrefused | hkept
        · exact .inl ⟨true, hrefused⟩
        · exact .inr (.inr hkept)
      · exact .inr (.inr rfl)
  | write width o w =>
    simp only [State.hostAccess]
    split
    · unfold State.csrWrite
      split
      · exact .inr (.inl ⟨_, w, rfl⟩)
      · exact .inl ⟨false, rfl⟩
    · split
      · rcases s.bufWrite_refused_or_keepsStatus width (o - bufStart) w with hrefused | hkept
        · exact .inl ⟨false, hrefused⟩
        · exact .inr (.inr hkept)
      · exact .inr (.inr rfl)

/-- An operand write sets no OVERRUN: while busy it sets ACCERR (rule R27). -/
@[simp] theorem State.writeOperand_overrun (upd : Operands → Operands) (s : State) :
    (s.writeOperand upd).status.overrun = s.status.overrun := by
  unfold State.writeOperand
  split <;> rfl

/-- An IER write sets no OVERRUN: while busy it sets ACCERR (rule R27). -/
@[simp] theorem State.writeIer_overrun (w : Word) (s : State) : (s.writeIer w).status.overrun = s.status.overrun := by
  unfold State.writeIer
  split <;> rfl

/-- No CSR write but CMD's to a busy engine sets OVERRUN: CTRL's reset and STATUS's W1C can only clear it (rules R28, R30). -/
theorem overrun_of_writeCsr {c : Csr} {s : State} {w : Word} (htaken : ¬ (s.status.busy = true ∧ c = .cmd))
    (h : (writeCsr c w s).status.overrun = true) : s.status.overrun = true := by
  cases c with
  | id | maxbitsR | bufszR | nregR | errcode | res => exact h
  | ctrl =>
    cases hw : w.getLsbD 0 with
    | true => simp [writeCsr_ctrl_of_srst hw, Status.reset] at h
    | false => rwa [writeCsr_ctrl_of_not_srst hw] at h
  | status => exact (Bool.and_eq_true_iff.1 h).1
  | cmd =>
    have hidle : s.status.busy = false := Bool.eq_false_iff.2 fun hbusy => htaken ⟨hbusy, rfl⟩
    rwa [writeCsr, State.writeCmd_of_idle hidle] at h
  | hashcfg | rounds | klen | arg0 | arg1 | arg2 | arg3 | arg4 | arg5 => rwa [writeCsr, State.writeOperand_overrun] at h
  | ier => rwa [writeCsr, State.writeIer_overrun] at h

/-- A host access from s to t raises an event: one of the two sticky bits goes from 0 to 1 (rule R237). -/
def RaisesEvent (s t : State) : Prop :=
  (s.status.overrun = false ∧ t.status.overrun = true) ∨ (s.status.accerr = false ∧ t.status.accerr = true)

/-- t is s but for the two sticky access bits and the bus answer. -/
def OnlyRecordsEvent (s t : State) : Prop :=
  t = { s with
    status := { s.status with overrun := t.status.overrun, accerr := t.status.accerr }
    reply := t.reply }

theorem not_raisesEvent_of_status_eq {s t : State} (h : t.status = s.status) : ¬ RaisesEvent s t := by
  simp [RaisesEvent, h]

/-- A CSR write raises an event only by being dropped, and then it records nothing else. -/
theorem writeCsr_onlyRecordsEvent {c : Csr} {w : Word} {s : State} (h : RaisesEvent s (writeCsr c w s)) :
    OnlyRecordsEvent s (writeCsr c w s) := by
  rcases h with ⟨hclear, hset⟩ | ⟨hclear, hset⟩
  · by_cases hdropped : s.status.busy = true ∧ c = .cmd
    · obtain ⟨hbusy, rfl⟩ := hdropped
      rw [writeCsr, State.writeCmd_of_busy hbusy]
      rfl
    · exact absurd (overrun_of_writeCsr hdropped hset) (Bool.eq_false_iff.1 hclear)
  · by_cases hdropped : s.status.busy = true ∧ 0x024 ≤ c.offset
    · obtain ⟨hbusy, hoperand⟩ := hdropped
      rw [writeCsr_of_busy hbusy hoperand]
      rfl
    · exact absurd (accerr_of_writeCsr hdropped hset) (Bool.eq_false_iff.1 hclear)

theorem OnlyRecordsEvent.taken {s t : State} (h : OnlyRecordsEvent s t) : OnlyRecordsEvent s t.taken := by
  rw [h]
  rfl

/-- A host access that raises an event changes nothing but the sticky bits (rules R27, R52, R54 and R55). -/
theorem State.hostAccess_onlyRecordsEvent {a : Access} {s : State} (h : RaisesEvent s (s.hostAccess a)) :
    OnlyRecordsEvent s (s.hostAccess a) := by
  rcases s.hostAccess_status_cases a with ⟨isRead, hrefused⟩ | ⟨c, w, hwrite⟩ | hkept
  · rw [hrefused]
    cases isRead <;> rfl
  · rw [hwrite] at h ⊢
    exact (writeCsr_onlyRecordsEvent h).taken
  · exact absurd h (not_raisesEvent_of_status_eq hkept)

/-! ### The obligations -/

/-- Settles O19: such an access changes nothing but the sticky bits and the bus answer, so DONE, IER and ERRCODE stay. -/
theorem hostAccessEventsAreNotCommandErrors : Obligations.HostAccessEventsAreNotCommandErrors := by
  intro s a t hraises
  have honly : OnlyRecordsEvent s t := State.hostAccess_onlyRecordsEvent hraises
  rw [honly]
  exact ⟨rfl, rfl, rfl⟩

/-- Settles O49: both ways that `exec_ends` allows are completions, and ERR is computed from ERRCODE. -/
theorem everyCommandCompletes : Obligations.EveryCommandCompletes := by
  intro i s
  obtain ⟨t, ht, hends⟩ := exec_ends i s
  obtain ⟨hdone, hbusy, hoverrun, haccerr, hhost, hcode⟩ : Completes s t :=
    hends.elim FailsFrom.completes SucceedsFrom.completes
  exact ⟨t, ht, hdone, hbusy, hoverrun, haccerr, hhost, hcode, by rw [State.err_eq, decide_eq_true_iff]⟩

/-- Settles O50: a command that ends with a code other than OK took the error exit (`FailsFrom.eq`). -/
theorem failedCommandsArePrecise : Obligations.FailedCommandsArePrecise := by
  intro i s t ht hcode
  obtain ⟨u, hu, hends⟩ := exec_ends i s
  obtain rfl : u = t := Host.Outcome.next.inj (hu.symm.trans ht)
  rcases hends with hfails | hsucceeds
  · exact hfails.eq
  · exact absurd hsucceeds.errcode hcode

end Sys2Proof.Machine
end

section
/-! PROOFS. Command encoding (spec/30_encoding.md): encoding and decoding undo each other.

One direction reads the fields of rule R70's sum back; the other puts a legal word together again from its fields, of which
those its opcode does not use are 0. -/

namespace Sys2Proof

/-! ### Decoding an encoded command -/

/-- On a legal word the decoder makes the command of the opcode's entry. -/
theorem decode_of_legalWord {w : Word} {e : Word × (Word → Instr)} (hlegal : legalWord w = true)
    (he : opEntry (opOf w) = some e) : decode w = .ok (e.2 w) := by
  obtain ⟨e', he', hzero⟩ := (legalWord_iff_opEntry w).1 hlegal
  cases he.symm.trans he'
  exact (decode_eq_ok_iff w _).2 ⟨e, he, hzero, rfl⟩

/-- A command's word decodes to it if the opcode's entry makes it from any word with the same fields. -/
theorem decode_encode_of_cmdWord {i : Instr} {op odd : Nat} {rd rs1 rs2 rs3 : Reg} {e : Word × (Word → Instr)}
    (hrow : Laws.EncodesToItsRow.Statement i) (hword : encode i = cmdWord op rd rs1 rs2 rs3 odd)
    (he : opEntry (BitVec.ofNat 8 op) = some e)
    (hbuild : ∀ w, rdOf w = rd → rs1Of w = rs1 → rs2Of w = rs2 → rs3Of w = rs3 → oddOf w = decide (odd = 1) → e.2 w = i)
    (hop : op < 256 := by decide) (hodd : odd < 2 := by decide) : decode (encode i) = .ok i := by
  obtain ⟨hlegal, -⟩ := hrow
  rw [hword] at hlegal ⊢
  obtain ⟨hopOf, hrd, hrs1, hrs2, hrs3, hbit, -⟩ := fields_cmdWord hop hodd rd rs1 rs2 rs3
  have hoddOf : oddOf (cmdWord op rd rs1 rs2 rs3 odd) = decide (odd = 1) := by
    rw [oddOf_eq, hbit]
    interval_cases odd <;> rfl
  rw [decode_of_legalWord hlegal (hopOf ▸ he), hbuild _ hrd hrs1 hrs2 hrs3 hoddOf]

open Laws in
/-- Settles O1: the entry of each command's opcode reads back the operands that its word was made of. -/
theorem decodeOfEncodeIsTheCommand : Obligations.DecodeOfEncodeIsTheCommand := by
  intro i
  cases i with
  | nop => exact decode_encode_of_cmdWord EncodesToItsRow.nop rfl rfl (by simp)
  | mov rd rs1 => exact decode_encode_of_cmdWord (EncodesToItsRow.mov rd rs1) rfl rfl (by simp +contextual)
  | ldi rd => exact decode_encode_of_cmdWord (EncodesToItsRow.ldi rd) rfl rfl (by simp +contextual)
  | zeroize => exact decode_encode_of_cmdWord EncodesToItsRow.zeroize rfl rfl (by simp)
  | add rd rs1 rs2 => exact decode_encode_of_cmdWord (EncodesToItsRow.add rd rs1 rs2) rfl rfl (by simp +contextual)
  | sub rd rs1 rs2 => exact decode_encode_of_cmdWord (EncodesToItsRow.sub rd rs1 rs2) rfl rfl (by simp +contextual)
  | mul rd rs1 rs2 => exact decode_encode_of_cmdWord (EncodesToItsRow.mul rd rs1 rs2) rfl rfl (by simp +contextual)
  | modred rd rs1 rs2 => exact decode_encode_of_cmdWord (EncodesToItsRow.modred rd rs1 rs2) rfl rfl (by simp +contextual)
  | modpow rd rs1 rs2 rs3 =>
    exact decode_encode_of_cmdWord (EncodesToItsRow.modpow rd rs1 rs2 rs3) rfl rfl (by simp +contextual)
  | modinv rd rs1 rs2 => exact decode_encode_of_cmdWord (EncodesToItsRow.modinv rd rs1 rs2) rfl rfl (by simp +contextual)
  | cmp rs1 rs2 => exact decode_encode_of_cmdWord (EncodesToItsRow.cmp rs1 rs2) rfl rfl (by simp +contextual)
  | bitlen rs1 => exact decode_encode_of_cmdWord (EncodesToItsRow.bitlen rs1) rfl rfl (by simp +contextual)
  | frombytes rd => exact decode_encode_of_cmdWord (EncodesToItsRow.frombytes rd) rfl rfl (by simp +contextual)
  | tobytes rs1 => exact decode_encode_of_cmdWord (EncodesToItsRow.tobytes rs1) rfl rfl (by simp +contextual)
  | randbits rd => exact decode_encode_of_cmdWord (EncodesToItsRow.randbits rd) rfl rfl (by simp +contextual)
  | randbitsOdd rd => exact decode_encode_of_cmdWord (EncodesToItsRow.randbitsOdd rd) rfl rfl (by simp +contextual)
  | isprime rs1 => exact decode_encode_of_cmdWord (EncodesToItsRow.isprime rs1) rfl rfl (by simp +contextual)
  | mgf1 => exact decode_encode_of_cmdWord EncodesToItsRow.mgf1 rfl rfl (by simp)
  | oaepPad => exact decode_encode_of_cmdWord EncodesToItsRow.oaepPad rfl rfl (by simp)
  | oaepUnpad => exact decode_encode_of_cmdWord EncodesToItsRow.oaepUnpad rfl rfl (by simp)

/-! ### Encoding a decoded command -/

/-- A word with bits 31:25 clear is rule R70's sum of its fields. -/
theorem cmdWord_fields {w : Word} (h : w.extractLsb' 25 7 = 0) :
    cmdWord (opOf w).toNat (rdOf w) (rs1Of w) (rs2Of w) (rs3Of w) (w.extractLsb' 24 1).toNat = w := by
  apply BitVec.eq_of_toNat_eq
  have hreserved : w.toNat / 2 ^ 25 % 2 ^ 7 = 0 := by rw [← toNat_field, h]; rfl
  have hw := w.isLt
  rw [toNat_cmdWord (opOf w).isLt (BitVec.isLt _)]
  simp only [opOf, rdOf, rs1Of, rs2Of, rs3Of, regField, toNat_field]
  omega

/-- Rule R75 field by field: a field that the opcode of a legal word does not use is 0. -/
theorem fields_of_legalWord {w : Word} {op : BitVec 8} {u : FieldUse} (hlegal : legalWord w = true) (hop : opOf w = op)
    (hu : opMap.lookup op = some u) :
    (u.rd = false → rdOf w = 0) ∧ (u.rs1 = false → rs1Of w = 0) ∧ (u.rs2 = false → rs2Of w = 0) ∧
      (u.rs3 = false → rs3Of w = 0) ∧ (u.odd = false → w.extractLsb' 24 1 = 0) := by
  rw [legalWord_of_fields, hop, hu] at hlegal
  simp only [Bool.and_eq_true, Bool.or_eq_true, decide_eq_true_eq] at hlegal
  obtain ⟨⟨⟨⟨⟨-, hrd⟩, hrs1⟩, hrs2⟩, hrs3⟩, hodd⟩ := hlegal
  exact ⟨fun h => hrd.resolve_left (by simp [h]), fun h => hrs1.resolve_left (by simp [h]),
    fun h => hrs2.resolve_left (by simp [h]), fun h => hrs3.resolve_left (by simp [h]),
    fun h => hodd.resolve_left (by simp [h])⟩

/-- The command of a legal word has that word's fields: where it has no operand, the field is 0 (rule R75). -/
theorem encode_build {w : Word} {e : Word × (Word → Instr)} (hlegal : legalWord w = true)
    (he : opEntry (opOf w) = some e) :
    encode (e.2 w) = cmdWord (opOf w).toNat (rdOf w) (rs1Of w) (rs2Of w) (rs3Of w) (w.extractLsb' 24 1).toNat := by
  unfold opEntry at he
  split at he <;> cases he
  all_goals
    rename_i hop
    obtain ⟨hrd, hrs1, hrs2, hrs3, hodd⟩ := fields_of_legalWord hlegal hop rfl
  -- RANDBITS, the one opcode that stands for two commands
  case h_15.refl =>
    rcases BitVec.eq_zero_or_eq_one (w.extractLsb' 24 1) with hbit | hbit
    · simp [encode, oddOf_eq, hop, hbit, hrs1 rfl, hrs2 rfl, hrs3 rfl]
    · simp [encode, oddOf_eq, hop, hbit, hrs1 rfl, hrs2 rfl, hrs3 rfl]
  all_goals simp_all [encode, FieldUse.none]

/-- Settles O2: a legal word is the sum of its fields, and so is the word of the command made from them. -/
theorem encodeOfDecodeIsTheWord : Obligations.EncodeOfDecodeIsTheWord := by
  intro w i hi
  have hlegal : legalWord w = true := (decode_isOk_iff_legalWord w).1 ⟨i, hi⟩
  obtain ⟨e, he, -, rfl⟩ := (decode_eq_ok_iff w i).1 hi
  rw [encode_build hlegal he, cmdWord_fields (reserved_eq_zero_of_legalWord hlegal)]

/-- Settles O5, each word by evaluating `decode` on it. -/
theorem encodingVectorsDecode : Obligations.EncodingVectorsDecode :=
  ⟨rfl, rfl, rfl, rfl, rfl, rfl, rfl, rfl, rfl⟩

end Sys2Proof
end

section
/-! PROOFS. The commands that draw, and OAEP_UNPAD (spec/42_bigint_bytes.md, 43_primality.md, 44_oaep.md): one equation of
`exec` for each way such a command can go. -/

namespace Sys2Proof.Machine

/-! ### Draws -/

theorem OnlyDraws.params {s t : State} (h : OnlyDraws s t) : t.params = s.params := by rw [h]

theorem State.drawBytes_onlyDraws {s s' : State} {k : Nat} {d : Option (List Byte)} (h : s.drawBytes k = (d, s')) :
    OnlyDraws s s' := by
  have hframe := s.drawBytes_frame k
  rwa [h] at hframe

theorem State.mrRounds_onlyDraws {s s' : State} {c t : Nat} {v : Option Bool} (h : s.mrRounds c t = (v, s')) :
    OnlyDraws s s' := by
  have hframe := s.mrRounds_frame c t
  rwa [h] at hframe

/-! The oracle's history is no part of what `EndsOk`, `KeepsHostState` and the three effects of a success speak of. -/

section
variable {s s' t : State} (hdraws : OnlyDraws s s')
include hdraws

theorem EndsOk.of_onlyDraws (h : EndsOk s' t) : EndsOk s t := by
  rw [hdraws] at h
  exact ⟨h.errcode, h.done, h.busy, h.overrun, h.accerr, h.rngf⟩

theorem KeepsHostState.of_onlyDraws (h : KeepsHostState s' t) : KeepsHostState s t := by
  rw [hdraws] at h
  exact ⟨h.params, h.cur, h.csr, h.snap, h.doneIe, h.agenda, h.reply⟩

theorem WritesReg.of_onlyDraws {rd : Reg} {v : Nat} (h : WritesReg rd v s' t) : WritesReg rd v s t := by
  have hends := h.ends.of_onlyDraws hdraws
  have hhost := h.host.of_onlyDraws hdraws
  rw [hdraws] at h
  exact ⟨h.dest, h.others, h.buf, h.res, hends, hhost⟩

theorem WritesRes.of_onlyDraws {w : Word} (h : WritesRes w s' t) : WritesRes w s t := by
  have hends := h.ends.of_onlyDraws hdraws
  have hhost := h.host.of_onlyDraws hdraws
  rw [hdraws] at h
  exact ⟨h.dest, h.regs, h.buf, hends, hhost⟩

theorem WritesBuf.of_onlyDraws {a : Nat} {bytes : List Byte} (h : WritesBuf a bytes s' t) : WritesBuf a bytes s t := by
  have hends := h.ends.of_onlyDraws hdraws
  have hhost := h.host.of_onlyDraws hdraws
  rw [hdraws] at h
  exact ⟨h.stored, h.others, h.regs, hends, hhost⟩

end

/-! ### RANDBITS (rule R144) -/

/-- The two RANDBITS rows are one operation, told apart by the bit `odd` of their words. -/
theorem exec_randbits_eq (odd : Bool) (rd : Reg) (s : State) :
    exec (if odd then .randbitsOdd rd else .randbits rd) s = s.randbits odd rd := by
  cases odd <;> rfl

theorem State.randbits_of_zero {s : State} (h : s.arg5 = 0) (odd : Bool) (rd : Reg) :
    s.randbits odd rd = .next (s.afterError .illegalOperand) := by
  rw [State.randbits, if_pos h, s.raise_eq_afterError _ (by decide)]

theorem State.randbits_of_large {s : State} (h : s.arg5 ≠ 0) (hlarge : s.params.maxbits < s.arg5) (odd : Bool) (rd : Reg) :
    s.randbits odd rd = .next (s.afterError .capacity) := by
  rw [State.randbits, if_neg h, if_pos hlarge, s.raise_eq_afterError _ (by decide)]

section
variable {s s' : State} (h : s.arg5 ≠ 0) (hfits : s.arg5 ≤ s.params.maxbits)
include h hfits

theorem State.randbits_of_fail (hdraw : s.drawBytes ((s.arg5 + 7) / 8) = (none, s')) (odd : Bool) (rd : Reg) :
    s.randbits odd rd = .next (s.afterRngError s'.rng s'.draws) := by
  rw [State.randbits, if_neg h, if_neg hfits.not_gt, hdraw, ← State.raise_eq_afterRngError (s.drawBytes_onlyDraws hdraw)]

theorem State.randbits_of_draw {d : List Byte} (hdraw : s.drawBytes ((s.arg5 + 7) / 8) = (some d, s')) (odd : Bool)
    (rd : Reg) : s.randbits odd rd = .next (s'.setReg rd (randbitsValue s.arg5 odd d)).complete := by
  rw [State.randbits, if_neg h, if_neg hfits.not_gt, hdraw]

end

/-- Everything RANDBITS can do: fail before its draw, or draw for a count that a register can hold. -/
theorem State.randbits_cases (odd : Bool) (rd : Reg) (s : State) :
    (∃ e, e ≠ .ok ∧ s.randbits odd rd = .next (s.afterError e)) ∨
      1 ≤ s.arg5 ∧ s.arg5 ≤ s.params.maxbits ∧ ∃ d s', s.drawBytes ((s.arg5 + 7) / 8) = (d, s') ∧
        s.randbits odd rd = .next
          (d.elim (s.afterRngError s'.rng s'.draws) fun d => (s'.setReg rd (randbitsValue s.arg5 odd d)).complete) := by
  by_cases hzero : s.arg5 = 0
  · exact .inl ⟨_, by decide, State.randbits_of_zero hzero odd rd⟩
  by_cases hlarge : s.params.maxbits < s.arg5
  · exact .inl ⟨_, by decide, State.randbits_of_large hzero hlarge odd rd⟩
  have hfits : s.arg5 ≤ s.params.maxbits := Nat.le_of_not_lt hlarge
  refine .inr ⟨Nat.pos_iff_ne_zero.2 hzero, hfits, ?_⟩
  rcases hdraw : s.drawBytes ((s.arg5 + 7) / 8) with ⟨_ | d, s'⟩
  · exact ⟨_, s', rfl, State.randbits_of_fail hzero hfits hdraw odd rd⟩
  · exact ⟨_, s', rfl, State.randbits_of_draw hzero hfits hdraw odd rd⟩

/-! ### ISPRIME (rule R160) -/

theorem exec_isprime_of_no_rounds {s : State} (h : s.snap.rounds = 0) (rs1 : Reg) :
    exec (.isprime rs1) s = .next (s.afterError .illegalOperand) := by
  have hrounds : s.rounds = 0 := by rw [State.rounds, h]; rfl
  rw [exec, execIsprime, if_pos hrounds, s.raise_eq_afterError _ (by decide)]

section
variable {s s' : State} {rs1 : Reg} (hrounds : s.snap.rounds ≠ 0)
include hrounds

theorem State.rounds_ne_zero : s.rounds ≠ 0 := by
  simpa [State.rounds, ← BitVec.toNat_inj] using hrounds

theorem exec_isprime_of_lt_two (h : s.reg rs1 < 2) : exec (.isprime rs1) s = .next (s.setRes 0).complete := by
  rw [exec, execIsprime, if_neg (State.rounds_ne_zero hrounds), if_pos h]
  rfl

theorem exec_isprime_of_trialDivision {v : Bool} (h : 2 ≤ s.reg rs1)
    (htrial : trialDivision (s.reg rs1) s.tdPrimes = some v) :
    exec (.isprime rs1) s = .next (s.setRes (verdictWord v)).complete := by
  rw [exec, execIsprime, if_neg (State.rounds_ne_zero hrounds), if_neg h.not_gt, htrial]

theorem exec_isprime_of_fail (h : 2 ≤ s.reg rs1) (htrial : trialDivision (s.reg rs1) s.tdPrimes = none)
    (hdraw : s.mrRounds (s.reg rs1) s.rounds = (none, s')) :
    exec (.isprime rs1) s = .next (s.afterRngError s'.rng s'.draws) := by
  rw [exec, execIsprime, if_neg (State.rounds_ne_zero hrounds), if_neg h.not_gt, htrial]
  simp only [hdraw, ← State.raise_eq_afterRngError (s.mrRounds_onlyDraws hdraw)]

theorem exec_isprime_of_rounds {v : Bool} (h : 2 ≤ s.reg rs1) (htrial : trialDivision (s.reg rs1) s.tdPrimes = none)
    (hdraw : s.mrRounds (s.reg rs1) s.rounds = (some v, s')) :
    exec (.isprime rs1) s = .next (s'.setRes (verdictWord v)).complete := by
  rw [exec, execIsprime, if_neg (State.rounds_ne_zero hrounds), if_neg h.not_gt, htrial]
  simp only [hdraw]

end

/-- Everything ISPRIME can do: refuse the count, answer without a draw, or run its rounds. -/
theorem exec_isprime_cases (rs1 : Reg) (s : State) :
    exec (.isprime rs1) s = .next (s.afterError .illegalOperand) ∨
      (∃ v, exec (.isprime rs1) s = .next (s.setRes (verdictWord v)).complete) ∨
        ∃ v s', s.mrRounds (s.reg rs1) s.rounds = (v, s') ∧ exec (.isprime rs1) s = .next
          (v.elim (s.afterRngError s'.rng s'.draws) fun v => (s'.setRes (verdictWord v)).complete) := by
  by_cases hrounds : s.snap.rounds = 0
  · exact .inl (exec_isprime_of_no_rounds hrounds rs1)
  by_cases htwo : s.reg rs1 < 2
  · exact .inr (.inl ⟨false, exec_isprime_of_lt_two hrounds htwo⟩)
  have htwo : 2 ≤ s.reg rs1 := Nat.le_of_not_lt htwo
  rcases htrial : trialDivision (s.reg rs1) s.tdPrimes with _ | v
  · refine .inr (.inr ?_)
    rcases hdraw : s.mrRounds (s.reg rs1) s.rounds with ⟨_ | v, s'⟩
    · exact ⟨_, s', rfl, exec_isprime_of_fail hrounds htwo htrial hdraw⟩
    · exact ⟨_, s', rfl, exec_isprime_of_rounds hrounds htwo htrial hdraw⟩
  · exact .inr (.inl ⟨v, exec_isprime_of_trialDivision hrounds htwo htrial⟩)

/-! ### OAEP_PAD (rule R182) -/

/-- Two selectors that are not reserved name two hashes (rule R35). -/
theorem State.exists_hashes {s : State} (h : ¬ (s.labelHash = none ∨ s.mgfHash = none)) :
    ∃ hs ms, s.labelHash = some hs ∧ s.mgfHash = some ms := by
  obtain ⟨hlabel, hmgf⟩ := not_or.1 h
  obtain ⟨hs, hlabel⟩ := Option.ne_none_iff_exists'.1 hlabel
  obtain ⟨ms, hmgf⟩ := Option.ne_none_iff_exists'.1 hmgf
  exact ⟨hs, ms, hlabel, hmgf⟩

/-- The ranges of OAEP_PAD's message, label and block lie in BUF (rule R53). -/
def State.PadInBuf (s : State) : Prop :=
  s.arg0 + s.arg1 ≤ s.params.bufsz ∧ s.arg2 + s.arg3 ≤ s.params.bufsz ∧ s.arg4 + s.klen ≤ s.params.bufsz

theorem State.padInBuf_iff (s : State) :
    (s.inRange s.arg0 s.arg1 && s.inRange s.arg2 s.arg3 && s.inRange s.arg4 s.klen) = true ↔ s.PadInBuf := by
  simp [State.PadInBuf, and_assoc]

theorem exec_oaepPad_of_reserved {s : State} (h : s.labelHash = none ∨ s.mgfHash = none) :
    exec .oaepPad s = .next (s.afterError .illegalOperand) := by
  rw [exec, execOaepPad, ← s.raise_eq_afterError _ (by decide)]
  split
  · next hlabel hmgf => simp [hlabel, hmgf] at h
  · rfl

section
variable {s s' : State} {hs ms : HashFn} (hlabel : s.labelHash = some hs) (hmgf : s.mgfHash = some ms)
include hlabel hmgf

theorem exec_oaepPad_of_not_inBuf (h : ¬ s.PadInBuf) : exec .oaepPad s = .next (s.afterError .bufRange) := by
  rw [exec, execOaepPad, hlabel, hmgf, ← s.raise_eq_afterError _ (by decide)]
  exact if_neg (mt s.padInBuf_iff.1 h)

/-- Past the selectors and the ranges only the length and the draw are looked at. -/
theorem exec_oaepPad_of_tooLong (h : s.PadInBuf) (hlen : s.klen < s.arg1 + 2 * hashLen hs + 2) :
    exec .oaepPad s = .next (s.afterError .messageTooLong) := by
  rw [exec, execOaepPad, hlabel, hmgf, ← s.raise_eq_afterError _ (by decide)]
  exact (if_pos (s.padInBuf_iff.2 h)).trans (if_pos hlen)

theorem exec_oaepPad_of_fail (h : s.PadInBuf) (hlen : s.arg1 + 2 * hashLen hs + 2 ≤ s.klen)
    (hdraw : s.drawBytes (hashLen hs) = (none, s')) : exec .oaepPad s = .next (s.afterRngError s'.rng s'.draws) := by
  rw [exec, execOaepPad, hlabel, hmgf]
  simp only [if_pos (s.padInBuf_iff.2 h), if_neg hlen.not_gt, hdraw,
    ← State.raise_eq_afterRngError (s.drawBytes_onlyDraws hdraw)]

theorem exec_oaepPad_of_draw {seed : List Byte} (h : s.PadInBuf) (hlen : s.arg1 + 2 * hashLen hs + 2 ≤ s.klen)
    (hdraw : s.drawBytes (hashLen hs) = (some seed, s')) :
    exec .oaepPad s = .next (s'.writeBuf s.arg4
      (oaepEncode hs ms s.klen (s.readBuf s.arg0 s.arg1) (s.readBuf s.arg2 s.arg3) seed)).complete := by
  rw [exec, execOaepPad, hlabel, hmgf]
  simp only [if_pos (s.padInBuf_iff.2 h), if_neg hlen.not_gt, hdraw]

end

/-- Everything OAEP_PAD can do: fail before its draw, or draw the seed of a block that BUF has room for. -/
theorem exec_oaepPad_cases (s : State) :
    (∃ e, e ≠ .ok ∧ exec .oaepPad s = .next (s.afterError e)) ∨
      ∃ hs ms, s.labelHash = some hs ∧ s.mgfHash = some ms ∧ s.PadInBuf ∧ s.arg1 + 2 * hashLen hs + 2 ≤ s.klen ∧
        ∃ d s', s.drawBytes (hashLen hs) = (d, s') ∧ exec .oaepPad s = .next
          (d.elim (s.afterRngError s'.rng s'.draws) fun seed => (s'.writeBuf s.arg4
            (oaepEncode hs ms s.klen (s.readBuf s.arg0 s.arg1) (s.readBuf s.arg2 s.arg3) seed)).complete) := by
  by_cases hreserved : s.labelHash = none ∨ s.mgfHash = none
  · exact .inl ⟨_, by decide, exec_oaepPad_of_reserved hreserved⟩
  obtain ⟨hs, ms, hlabel, hmgf⟩ := State.exists_hashes hreserved
  by_cases hin : s.PadInBuf
  · by_cases hlen : s.klen < s.arg1 + 2 * hashLen hs + 2
    · exact .inl ⟨_, by decide, exec_oaepPad_of_tooLong hlabel hmgf hin hlen⟩
    have hlen : s.arg1 + 2 * hashLen hs + 2 ≤ s.klen := Nat.le_of_not_lt hlen
    refine .inr ⟨hs, ms, hlabel, hmgf, hin, hlen, ?_⟩
    rcases hdraw : s.drawBytes (hashLen hs) with ⟨_ | seed, s'⟩
    · exact ⟨_, s', rfl, exec_oaepPad_of_fail hlabel hmgf hin hlen hdraw⟩
    · exact ⟨_, s', rfl, exec_oaepPad_of_draw hlabel hmgf hin hlen hdraw⟩
  · exact .inl ⟨_, by decide, exec_oaepPad_of_not_inBuf hlabel hmgf hin⟩

/-! ### OAEP_UNPAD (rule R184) -/

/-- The ranges of OAEP_UNPAD's block, label and longest possible message lie in BUF (rule R184), for an hLen of h. -/
def State.UnpadInBuf (s : State) (h : Nat) : Prop :=
  s.arg0 + s.klen ≤ s.params.bufsz ∧ s.arg2 + s.arg3 ≤ s.params.bufsz ∧
    (2 * h + 2 ≤ s.klen → s.arg4 + (s.klen - 2 * h - 2) ≤ s.params.bufsz)

theorem State.unpadInBuf_iff (s : State) (h : Nat) :
    (s.inRange s.arg0 s.klen && s.inRange s.arg2 s.arg3 &&
      (decide (s.klen < 2 * h + 2) || s.inRange s.arg4 (s.klen - 2 * h - 2))) = true ↔ s.UnpadInBuf h := by
  simp only [State.UnpadInBuf, Bool.and_eq_true, Bool.or_eq_true, State.inRange_iff, decide_eq_true_eq, and_assoc,
    ← Nat.not_le, ← imp_iff_not_or]

theorem exec_oaepUnpad_of_reserved {s : State} (h : s.labelHash = none ∨ s.mgfHash = none) :
    exec .oaepUnpad s = .next (s.afterError .illegalOperand) := by
  rw [exec, execOaepUnpad, ← s.raise_eq_afterError _ (by decide)]
  split
  · next hlabel hmgf => simp [hlabel, hmgf] at h
  · rfl

section
variable {s : State} {hs ms : HashFn} (hlabel : s.labelHash = some hs) (hmgf : s.mgfHash = some ms)
include hlabel hmgf

theorem exec_oaepUnpad_of_not_inBuf (h : ¬ s.UnpadInBuf (hashLen hs)) :
    exec .oaepUnpad s = .next (s.afterError .bufRange) := by
  rw [exec, execOaepUnpad, hlabel, hmgf, ← s.raise_eq_afterError _ (by decide)]
  exact if_neg (mt (s.unpadInBuf_iff _).1 h)

/-- A KLEN that cannot hold a block: its contents are not looked at. -/
theorem exec_oaepUnpad_of_short (h : s.UnpadInBuf (hashLen hs)) (hlen : s.klen < 2 * hashLen hs + 2) :
    exec .oaepUnpad s = .next (s.afterError .decryptionFailed) := by
  rw [exec, execOaepUnpad, hlabel, hmgf, ← s.raise_eq_afterError _ (by decide)]
  exact (if_pos ((s.unpadInBuf_iff _).2 h)).trans (if_pos hlen)

theorem exec_oaepUnpad_of_malformed (h : s.UnpadInBuf (hashLen hs)) (hlen : 2 * hashLen hs + 2 ≤ s.klen)
    (hdecode : oaepDecode hs ms s.klen (s.readBuf s.arg0 s.klen) (s.readBuf s.arg2 s.arg3) = none) :
    exec .oaepUnpad s = .next (s.afterError .decryptionFailed) := by
  rw [exec, execOaepUnpad, hlabel, hmgf, ← s.raise_eq_afterError _ (by decide)]
  simp only [if_pos ((s.unpadInBuf_iff _).2 h), if_neg hlen.not_gt, hdecode]

theorem exec_oaepUnpad_of_message {msg : List Byte} (h : s.UnpadInBuf (hashLen hs)) (hlen : 2 * hashLen hs + 2 ≤ s.klen)
    (hdecode : oaepDecode hs ms s.klen (s.readBuf s.arg0 s.klen) (s.readBuf s.arg2 s.arg3) = some msg) :
    exec .oaepUnpad s = .next ((s.writeBuf s.arg4 msg).setRes (BitVec.ofNat 32 msg.length)).complete := by
  rw [exec, execOaepUnpad, hlabel, hmgf]
  simp only [if_pos ((s.unpadInBuf_iff _).2 h), if_neg hlen.not_gt, hdecode]

end

end Sys2Proof.Machine
end

section
/-! PROOFS. The invariant of the machine: it holds at reset, and every step keeps it.

What a host access or the end of a command can do to the flags is known from `State.hostAccess_cases` and `exec_ends`; what is
left is that no command writes a register at or past 2^MAXBITS or a byte outside BUF (`exec_keepsData`). -/

namespace Sys2Proof.Machine

/-! ### The data that commands write -/

/-- The invariant's part about the registers and BUF (rules R20 and R50). -/
structure DataInv (s : State) : Prop where
  regs : ∀ r : Reg, s.reg r < 2 ^ s.params.maxbits
  canonical : s.buf.wf = true
  within : s.buf.within s.params.bufsz = true

theorem State.Inv.data {s : State} (h : s.Inv) : DataInv s := ⟨h.regs, h.bufCanonical, h.bufWithin⟩

/-- Registers and BUF of a configuration are all the data there is. -/
theorem DataInv.congr {s t : State} (h : DataInv s) (hparams : t.params = s.params) (hx : t.x = s.x)
    (hbuf : t.buf = s.buf) : DataInv t := by
  have hreg (r : Reg) : t.reg r = s.reg r := by simp only [State.reg, hx]
  exact ⟨fun r => hreg r ▸ hparams ▸ h.regs r, hbuf ▸ h.canonical, hbuf ▸ hparams ▸ h.within⟩

theorem DataInv.complete {s : State} (h : DataInv s) : DataInv s.complete := h.congr rfl rfl rfl

theorem DataInv.raise {s : State} (h : DataInv s) (e : ErrCode) : DataInv (s.raise e) := h.congr rfl rfl rfl

theorem DataInv.afterError {s : State} (h : DataInv s) (e : ErrCode) : DataInv (s.afterError e) := h.congr rfl rfl rfl

theorem DataInv.afterRngError {s : State} (h : DataInv s) (rng : List RngAnswer) (draws : Nat) :
    DataInv (s.afterRngError rng draws) := h.congr rfl rfl rfl

theorem DataInv.setRes {s : State} (h : DataInv s) (w : Word) : DataInv (s.setRes w) := h.congr rfl rfl rfl

theorem DataInv.of_onlyDraws {s t : State} (h : DataInv s) (hdraws : OnlyDraws s t) : DataInv t := by
  rw [hdraws]
  exact h.congr rfl rfl rfl

theorem DataInv.setReg {s : State} (h : DataInv s) {v : Nat} (hv : v < 2 ^ s.params.maxbits) (rd : Reg) :
    DataInv (s.setReg rd v) := by
  refine ⟨fun r => ?_, h.canonical, h.within⟩
  rw [State.setReg_reg]
  split
  · exact hv
  · exact h.regs r

theorem DataInv.writeBuf {s : State} (h : DataInv s) {a : Nat} {bytes : List Byte}
    (hrange : a + bytes.length ≤ s.params.bufsz) : DataInv (s.writeBuf a bytes) :=
  ⟨h.regs, Memory.wf_writeBytes h.canonical a bytes, Memory.within_writeBytes h.within bytes hrange⟩

theorem DataInv.completeReg {s : State} (h : DataInv s) (rd : Reg) (v : Nat) : DataInv (s.completeReg rd v) := by
  rcases s.completeReg_cases rd v with ⟨hv, heq⟩ | ⟨-, heq⟩ <;> rw [heq]
  · exact (h.setReg hv rd).complete
  · exact h.raise _

/-! ### Results that fit a register -/

/-- A 32-bit constant fits every register, for MAXBITS is at least 64 (rules R8 and R212). -/
theorem toNat_lt_of_legal {p : Params} (h : p.legal = true) (w : Word) : w.toNat < 2 ^ p.maxbits := by
  obtain ⟨-, hmin, -⟩ := (Params.legal_iff p).1 h
  calc w.toNat < 2 ^ 32 := w.isLt
    _ ≤ 2 ^ p.maxbits := Nat.pow_le_pow_right (by decide) (by omega)

/-- RANDBITS's value has no more than nb bits (rule R144). -/
theorem randbitsValue_lt {nb : Nat} (h : 1 ≤ nb) (odd : Bool) (d : List Byte) : randbitsValue nb odd d < 2 ^ nb := by
  refine Nat.lt_pow_two_of_testBit _ fun j hj => ?_
  rw [randbitsValue_testBit]
  simp [show ¬ j < nb by omega, show ¬ j = nb - 1 by omega, show ¬ j = 0 by omega]

/-! ### What each command writes -/

/-- RANDBITS's count is at most MAXBITS where it gets as far as a value (rule R144). -/
theorem State.randbits_keepsData {s t : State} (h : DataInv s) {odd : Bool} {rd : Reg} (ht : s.randbits odd rd = .next t) :
    DataInv t := by
  rcases s.randbits_cases odd rd with ⟨e, -, heq⟩ | ⟨hpos, hfits, d, s', hdraw, heq⟩ <;> cases heq.symm.trans ht
  · exact h.afterError e
  · cases d with
    | none => exact h.afterRngError _ _
    | some d =>
      have hdraws := State.drawBytes_onlyDraws hdraw
      refine ((h.of_onlyDraws hdraws).setReg ?_ rd).complete
      calc randbitsValue s.arg5 odd d < 2 ^ s.arg5 := randbitsValue_lt hpos odd d
        _ ≤ 2 ^ s'.params.maxbits := Nat.pow_le_pow_right (by decide) (hdraws.params ▸ hfits)

theorem exec_isprime_keepsData {s t : State} (h : DataInv s) {rs1 : Reg} (ht : exec (.isprime rs1) s = .next t) :
    DataInv t := by
  rcases exec_isprime_cases rs1 s with heq | ⟨v, heq⟩ | ⟨v, s', hdraw, heq⟩ <;> cases heq.symm.trans ht
  · exact h.afterError _
  · exact (h.setRes _).complete
  · cases v with
    | none => exact h.afterRngError _ _
    | some v => exact ((h.of_onlyDraws (State.mrRounds_onlyDraws hdraw)).setRes _).complete

/-- The block has KLEN bytes, which is the length of the range that was checked (rule R182). -/
theorem exec_oaepPad_keepsData {s t : State} (h : DataInv s) (ht : exec .oaepPad s = .next t) : DataInv t := by
  rcases exec_oaepPad_cases s with ⟨e, -, heq⟩ | ⟨hs, ms, -, -, ⟨-, -, hblock⟩, hlen, d, s', hdraw, heq⟩ <;>
    cases heq.symm.trans ht
  · exact h.afterError e
  · cases d with
    | none => exact h.afterRngError _ _
    | some seed =>
      have hdraws := State.drawBytes_onlyDraws hdraw
      have hcount : (s.readBuf s.arg0 s.arg1).length = s.arg1 := Memory.length_readBytes _ _ _
      refine ((h.of_onlyDraws hdraws).writeBuf ?_).complete
      rwa [length_oaepEncode _ _ _ _ _ _ (by rwa [hcount]) (State.length_of_drawBytes hdraw), hdraws.params]

/-- A decoded message is no longer than the range that was checked for it (rule R184). -/
theorem exec_oaepUnpad_keepsData {s t : State} (h : DataInv s) (ht : exec .oaepUnpad s = .next t) : DataInv t := by
  by_cases hreserved : s.labelHash = none ∨ s.mgfHash = none
  · cases (exec_oaepUnpad_of_reserved hreserved).symm.trans ht
    exact h.afterError _
  obtain ⟨hs, ms, hlabel, hmgf⟩ := State.exists_hashes hreserved
  by_cases hin : s.UnpadInBuf (hashLen hs)
  · by_cases hlen : s.klen < 2 * hashLen hs + 2
    · cases (exec_oaepUnpad_of_short hlabel hmgf hin hlen).symm.trans ht
      exact h.afterError _
    have hlen : 2 * hashLen hs + 2 ≤ s.klen := Nat.le_of_not_lt hlen
    rcases hdecode : oaepDecode hs ms s.klen (s.readBuf s.arg0 s.klen) (s.readBuf s.arg2 s.arg3) with _ | msg
    · cases (exec_oaepUnpad_of_malformed hlabel hmgf hin hlen hdecode).symm.trans ht
      exact h.afterError _
    · cases (exec_oaepUnpad_of_message hlabel hmgf hin hlen hdecode).symm.trans ht
      refine ((h.writeBuf ?_).setRes _).complete
      have hout := hin.2.2 hlen
      have hmsg := length_of_oaepDecode (by simp [State.readBuf]) hdecode
      omega
  · cases (exec_oaepUnpad_of_not_inBuf hlabel hmgf hin).symm.trans ht
    exact h.afterError _

/-- No command writes a register at or past 2^MAXBITS or a byte outside BUF (rules R20, R50 and R116). -/
theorem exec_keepsData {i : Instr} {s t : State} (hlegal : s.params.legal = true) (h : DataInv s) (ht : exec i s = .next t) :
    DataInv t := by
  cases i with
  | nop =>
    cases (exec_nop s).symm.trans ht
    exact h.complete
  | mov rd rs1 =>
    cases (exec_mov rd rs1 s).symm.trans ht
    exact (h.setReg (h.regs rs1) rd).complete
  | ldi rd =>
    cases (exec_ldi rd s).symm.trans ht
    exact (h.setReg (toNat_lt_of_legal hlegal _) rd).complete
  | zeroize =>
    cases (exec_zeroize s).symm.trans ht
    exact ⟨fun r => by simp, rfl, rfl⟩
  | add rd rs1 rs2 =>
    cases (exec_add rd rs1 rs2 s).symm.trans ht
    exact h.completeReg rd _
  | mul rd rs1 rs2 =>
    cases (exec_mul rd rs1 rs2 s).symm.trans ht
    exact h.completeReg rd _
  | sub rd rs1 rs2 =>
    rw [exec_sub] at ht
    split at ht <;> cases ht
    · exact h.afterError _
    · exact (h.setReg ((Nat.sub_le _ _).trans_lt (h.regs rs1)) rd).complete
  | modred rd rs1 rs2 =>
    rw [exec_modred] at ht
    split at ht <;> cases ht
    · exact h.afterError _
    · next hn => exact (h.setReg ((Nat.mod_lt _ (Nat.pos_of_ne_zero hn)).trans (h.regs rs2)) rd).complete
  | modpow rd rs1 rs2 rs3 =>
    rw [exec_modpow] at ht
    split at ht <;> cases ht
    · exact h.afterError _
    · next hn => exact (h.setReg ((Nat.mod_lt _ (Nat.pos_of_ne_zero hn)).trans (h.regs rs3)) rd).complete
  | modinv rd rs1 rs2 =>
    by_cases hn : s.reg rs2 = 0
    · cases (exec_modinv_of_eq_zero hn rd rs1).symm.trans ht
      exact h.afterError _
    obtain ⟨hinvertible, hnone⟩ := modInverse_spec (s.reg rs1) (Nat.pos_of_ne_zero hn)
    by_cases hgcd : Nat.gcd (s.reg rs1) (s.reg rs2) = 1
    · obtain ⟨y, hy, hlt, -⟩ := hinvertible hgcd
      cases (exec_modinv_of_some hn hy rd).symm.trans ht
      exact (h.setReg (hlt.trans (h.regs rs2)) rd).complete
    · cases (exec_modinv_of_none hn (hnone hgcd) rd).symm.trans ht
      exact h.afterError _
  | cmp rs1 rs2 =>
    cases (exec_cmp rs1 rs2 s).symm.trans ht
    exact (h.setRes _).complete
  | bitlen rs1 =>
    cases (exec_bitlen rs1 s).symm.trans ht
    exact (h.setRes _).complete
  | frombytes rd =>
    rw [exec_frombytes] at ht
    split at ht <;> cases ht
    · exact h.completeReg rd _
    · exact h.afterError _
  | tobytes rs1 =>
    rw [exec_tobytes] at ht
    split at ht <;> cases ht
    · next hrange => exact ((h.writeBuf (by rwa [length_i2osp])).setRes _).complete
    · exact h.afterError _
  | randbits rd => exact State.randbits_keepsData h ht
  | randbitsOdd rd => exact State.randbits_keepsData h ht
  | isprime rs1 => exact exec_isprime_keepsData h ht
  | mgf1 =>
    rcases hmgf : s.mgfHash with _ | ms
    · cases (exec_mgf1_of_none hmgf).symm.trans ht
      exact h.afterError _
    rw [exec_mgf1_of_some hmgf] at ht
    split at ht <;> cases ht
    · next hrange => exact (h.writeBuf (by rw [length_mgf1]; exact hrange.2)).complete
    · exact h.afterError _
  | oaepPad => exact exec_oaepPad_keepsData h ht
  | oaepUnpad => exact exec_oaepUnpad_keepsData h ht

/-! ### Steps -/

/-- A completion leaves the engine idle, so only the data and the code are left to look at. -/
theorem State.Inv.of_completes {s t : State} (h : s.Inv) (hdata : DataInv t) (hends : Completes s t) : t.Inv where
  legal := hends.host.params ▸ h.legal
  regs := hdata.regs
  bufCanonical := hdata.canonical
  bufWithin := hdata.within
  snapLive hbusy := absurd hbusy (by simp [hends.busy])
  busyNotDone hbusy := absurd hbusy (by simp [hends.busy])
  engineCode := hends.engineCode

/-- Every command ends in one of the two ways, and both are completions (rule R24). -/
theorem exec_completes {i : Instr} {s t : State} (ht : exec i s = .next t) : Completes s t := by
  obtain ⟨u, hu, hends⟩ := exec_ends i s
  cases hu.symm.trans ht
  exact hends.elim FailsFrom.completes SucceedsFrom.completes

/-- So is the completion of an illegal word, which raises ILLEGAL_COMMAND (rule R75). -/
theorem State.completion_completes {s t : State} (ht : s.completion = .next t) : Completes s t := by
  unfold State.completion at ht
  split at ht
  · exact exec_completes ht
  · cases ht
    exact (FailsFrom.of_raise false s _ (by decide) rfl).completes

theorem State.completion_keepsData {s t : State} (h : s.Inv) (ht : s.completion = .next t) : DataInv t := by
  unfold State.completion at ht
  split at ht
  · exact exec_keepsData h.legal h.data ht
  · cases ht
    exact h.data.raise _

/-- A string that the host stores lies in BUF: an aligned access does not reach past its end, for BUFSZ is a multiple of 4. -/
theorem HostStores.within {s : State} (hlegal : s.params.legal = true) {k : Nat} {bytes : List Byte}
    (h : HostStores s k bytes) (hbuf : s.buf.within s.params.bufsz = true) :
    (s.buf.writeBytes k bytes).within s.params.bufsz = true := by
  obtain ⟨-, -, -, hdvd, -⟩ := (Params.legal_iff _).1 hlegal
  rcases h with rfl | ⟨hlen, hk⟩ | ⟨hlen, haligned, hk⟩
  · exact hbuf
  · exact Memory.within_writeBytes hbuf bytes (by omega)
  · exact Memory.within_writeBytes hbuf bytes (by omega)

theorem State.Inv.hostStep {s t : State} (h : s.Inv) (hstep : HostStep s t) : t.Inv where
  legal := hstep.params ▸ h.legal
  regs r := by
    have hreg : t.reg r = s.reg r := by simp only [State.reg, hstep.x]
    exact hreg ▸ hstep.params ▸ h.regs r
  bufCanonical := by
    obtain ⟨k, bytes, -, hbuf⟩ := hstep.stores
    exact hbuf ▸ Memory.wf_writeBytes h.bufCanonical k bytes
  bufWithin := by
    obtain ⟨k, bytes, hstores, hbuf⟩ := hstep.stores
    exact hbuf ▸ hstep.params ▸ hstores.within h.legal h.bufWithin
  snapLive hbusy := by
    rcases hstep.issues hbusy with hflight | ⟨hsnap, -⟩
    · obtain ⟨-, -, hsnap, hcsr, -⟩ := hstep.flight hflight
      rw [hsnap, hcsr, h.snapLive hflight]
    · exact hsnap
  busyNotDone hbusy := by
    rcases hstep.issues hbusy with hflight | ⟨-, hdone⟩
    · exact hstep.flightDone (h.busyNotDone hflight)
    · exact hdone
  engineCode := hstep.errcode ▸ h.engineCode

/-- The reset state meets the invariant in every legal configuration. -/
theorem State.Inv.resetMbe {s : State} (h : s.params.legal = true) : s.resetMbe.Inv where
  legal := h
  regs r := by simp
  bufCanonical := rfl
  bufWithin := rfl
  snapLive _ := rfl
  busyNotDone _ := rfl
  engineCode := rfl

/-- The pending steps and the bus answer are no part of the invariant. -/
theorem State.Inv.congr {s t : State} (h : s.Inv) (ht : t = { s with agenda := t.agenda, reply := t.reply }) : t.Inv := by
  rw [ht]
  exact { h with regs := h.regs }

theorem State.Inv.hostAccess {s : State} (h : s.Inv) (a : Access) : (s.hostAccess a).Inv := by
  rcases s.hostAccess_cases a with ⟨w, -, -, hreset⟩ | hstep
  · rw [hreset]
    exact (State.Inv.resetMbe h.legal).congr rfl
  · exact h.hostStep hstep

/-! ### The obligations -/

/-- Settles O54: a step is a completion, an idle turn, a host access or a hardware reset (`step_cases`), and each keeps it. -/
theorem everyStepKeepsTheInvariant : Obligations.EveryStepKeepsTheInvariant := by
  intro s t h ht
  obtain ⟨-, s', hs', hcases⟩ := step_cases ht
  have h' : s'.Inv := h.congr (by rw [hs'])
  rcases hcases with ⟨-, hcompletion⟩ | ⟨-, rfl⟩ | ⟨a, -, rfl⟩ | ⟨-, rfl⟩
  · exact h'.of_completes (State.completion_keepsData h' hcompletion) (State.completion_completes hcompletion)
  · exact h'
  · exact h'.hostAccess a
  · exact State.Inv.resetMbe h'.legal

/-- Settles O55: the power-on state is what a reset leaves, in the default configuration. -/
theorem resetMeetsTheInvariant : Obligations.ResetMeetsTheInvariant :=
  State.Inv.resetMbe (s := State.reset) (by decide)

end Sys2Proof.Machine
end

section
/-! PROOFS. The host window (spec/10_state.md, 20_memory.md): reads and writes of CSRs and of BUF, and the interrupt line. -/

namespace Sys2Proof.Machine

/-! ### CSRs -/

/-- The CSRs in the order of rule R25. -/
def mappedCsrs : List Csr :=
  [.id, .maxbitsR, .bufszR, .nregR, .ctrl, .status, .errcode, .cmd, .res, .hashcfg, .rounds, .klen, .arg0, .arg1, .arg2, .arg3,
    .arg4, .arg5, .ier]

/-- The CSRs whose writes are ignored (rules R29 and R31 to R34). -/
def readOnlyCsrs : List Csr := [.id, .maxbitsR, .bufszR, .nregR, .errcode, .res]

theorem writeCsr_of_readOnly {c : Csr} (h : c ∈ readOnlyCsrs) (w : Word) (s : State) : writeCsr c w s = s := by
  cases c with
  | id | maxbitsR | bufszR | nregR | errcode | res => rfl
  | _ => simp [readOnlyCsrs] at h

/-- Settles O15: each offset of the list is the offset of a CSR, whose value `readCsr` gives. -/
theorem csrMapReadsAndReadOnlyWrites : Obligations.CsrMapReadsAndReadOnlyWrites := by
  intro s
  refine ⟨fun p hp => ?_, fun w offset hoffset => ?_⟩
  · obtain ⟨c, -, rfl⟩ := List.mem_map.1 (show p ∈ mappedCsrs.map fun c => (c.offset, readCsr c s) from hp)
    exact (State.hostAccess_csrAt (csrAt_offset c) s).1
  · obtain ⟨c, hc, rfl⟩ := List.mem_map.1 (show offset ∈ readOnlyCsrs.map Csr.offset from hoffset)
    rw [(State.hostAccess_csrAt (csrAt_offset c) s).2, writeCsr_of_readOnly hc, State.taken]

/-- W1C on STATUS as a mask: exactly the bits 1, 3 and 4 of the data clear a bit (rule R28). -/
theorem State.statusWord_writeCsr_status (s : State) (w : Word) :
    (writeCsr .status w s).statusWord = s.statusWord &&& ~~~(w &&& 0x1A) := by
  obtain ⟨h0, h1, h2, h3, h4, h5, h6⟩ := s.statusWord_bits
  obtain ⟨g0, g1, g2, g3, g4, g5, g6⟩ := (writeCsr .status w s).statusWord_bits
  have herr : (writeCsr .status w s).err = s.err := rfl
  have hstatus : (writeCsr .status w s).status = s.status.writeOneToClear w := rfl
  refine BitVec.eq_of_getLsbD_eq fun i hi => ?_
  by_cases hfield : i < 6
  · interval_cases i <;> simp_all [Status.writeOneToClear]
  · rw [g6 i (by omega), BitVec.getLsbD_and, h6 i (by omega), Bool.false_and]

/-- Settles O14: STATUS packs its fields at bits 0 to 5, and its write clears under the mask 0x1A. -/
theorem statusFieldsReadAndClear : Obligations.StatusFieldsReadAndClear := by
  intro s
  obtain ⟨hread, hwrite⟩ := State.hostAccess_csrAt (show csrAt 0x014 = some .status from rfl) s
  obtain ⟨hbusy, hdone, herr, hoverrun, haccerr, hrngf, hreserved⟩ := s.statusWord_bits
  refine ⟨hread, hbusy, hdone, s.err_eq ▸ herr, hoverrun, haccerr, hrngf, hreserved, fun w => ?_⟩
  rw [hwrite]
  exact ⟨s.statusWord_writeCsr_status w, rfl⟩

/-! ### Operand CSRs and IER -/

/-- The CSRs that the host writes only while BUSY = 0 (rule R27): the operand CSRs and IER. -/
def operandCsrs : List Csr := [.hashcfg, .rounds, .klen, .arg0, .arg1, .arg2, .arg3, .arg4, .arg5, .ier]

/-- The bits of an operand CSR or IER that the rules name (rules R25 and R35 to R39). -/
def Csr.namedBits : Csr → Word
  | .hashcfg => 0xFF
  | .rounds => 0xFF
  | .ier => 1
  | _ => 0xFFFFFFFF

theorem operandCsrs_offset {c : Csr} (h : c ∈ operandCsrs) : 0x024 ≤ c.offset := by
  revert c
  decide

theorem zeroExtend_low_byte (w : Word) : (w.extractLsb' 0 8).zeroExtend 32 = w &&& 0xFF := by
  rw [show (0xFF : Word) = fieldMask 0 8 by decide, and_fieldMask, BitVec.shiftLeft_zero]

theorem bitAt_zero_eq_and (w : Word) : bitAt (w.getLsbD 0) 0 = w &&& 1 := by
  have hone : w &&& 1 = _ := BitVec.and_one_eq_setWidth_ofBool_getLsbD
  rw [hone]
  cases w.getLsbD 0 <;> rfl

section
variable {s : State} (hidle : s.status.busy = false)
include hidle

/-- An idle write to an operand CSR or IER writes operand CSRs or IER only (rule R27). -/
theorem writeCsr_of_idle {c : Csr} (hc : 0x024 ≤ c.offset) (w : Word) :
    ∃ csr doneIe, writeCsr c w s = { s with csr := csr, doneIe := doneIe } := by
  cases c with
  | id | maxbitsR | bufszR | nregR | ctrl | status | errcode | cmd | res => exact absurd hc (by decide)
  | hashcfg | rounds | klen | arg0 | arg1 | arg2 | arg3 | arg4 | arg5 =>
    rw [writeCsr, State.writeOperand_of_idle hidle]
    exact ⟨_, s.doneIe, rfl⟩
  | ier =>
    rw [writeCsr, State.writeIer_of_idle hidle]
    exact ⟨s.csr, _, rfl⟩

theorem readCsr_writeCsr_same {c : Csr} (hc : 0x024 ≤ c.offset) (w : Word) :
    readCsr c (writeCsr c w s) = w &&& c.namedBits := by
  have hall : w &&& 0xFFFFFFFF = w := BitVec.and_allOnes
  cases c with
  | id | maxbitsR | bufszR | nregR | ctrl | status | errcode | cmd | res => exact absurd hc (by decide)
  | hashcfg | rounds =>
    rw [writeCsr, State.writeOperand_of_idle hidle]
    exact zeroExtend_low_byte w
  | klen | arg0 | arg1 | arg2 | arg3 | arg4 | arg5 =>
    rw [writeCsr, State.writeOperand_of_idle hidle]
    exact hall.symm
  | ier =>
    rw [writeCsr, State.writeIer_of_idle hidle]
    exact bitAt_zero_eq_and w

/-- An idle write to an operand CSR or IER disturbs no other CSR. -/
theorem readCsr_writeCsr_ne {c c' : Csr} (hc : 0x024 ≤ c.offset) (hne : c' ≠ c) (w : Word) :
    readCsr c' (writeCsr c w s) = readCsr c' s := by
  cases c with
  | id | maxbitsR | bufszR | nregR | ctrl | status | errcode | cmd | res => exact absurd hc (by decide)
  | hashcfg | rounds | klen | arg0 | arg1 | arg2 | arg3 | arg4 | arg5 =>
    rw [writeCsr, State.writeOperand_of_idle hidle]
    cases c' <;> (try exact absurd rfl hne) <;> rfl
  | ier =>
    rw [writeCsr, State.writeIer_of_idle hidle]
    cases c' with
    | ier => exact absurd rfl hne
    | _ => rfl

end

/-- What a 32-bit read in the CSR region answers, mapped or not (rules R26 and R52). -/
theorem State.hostAccess_read_reply {o : Nat} (ho : o < 0x1000) (s : State) :
    (s.hostAccess (.read .word o)).reply = .value ((csrAt o).elim 0 fun c => readCsr c s) := by
  cases hc : csrAt o with
  | none => rw [(State.hostAccess_refused ho (.inr hc) s).1, State.refuse_read, Option.elim_none]
  | some c => rw [(State.hostAccess_csrAt hc s).1, State.answer_reply, Option.elim_some]

/-- The bus answer is no CSR. -/
theorem readCsr_taken (c : Csr) (s : State) : readCsr c s.taken = readCsr c s := by cases c <;> rfl

/-- Settles O13: an idle write to an operand CSR or IER writes that one field, and a read looks at one field. -/
theorem idleOperandWritesReadBack : Obligations.IdleOperandWritesReadBack := by
  intro s w hidle p hp
  obtain ⟨c, hmem, rfl⟩ := List.mem_map.1 (show p ∈ operandCsrs.map fun c => (c.offset, c.namedBits) from hp)
  have hc : 0x024 ≤ c.offset := operandCsrs_offset hmem
  have hlast : c.offset < 0x1000 := by cases c <;> decide
  dsimp only
  rw [(State.hostAccess_csrAt (csrAt_offset c) s).2]
  refine ⟨?_, fun offset hne hregion => ?_, ?_⟩
  · rw [State.hostAccess_read_reply hlast, csrAt_offset, Option.elim_some, readCsr_taken, readCsr_writeCsr_same hidle hc]
  · rw [State.hostAccess_read_reply hregion, State.hostAccess_read_reply hregion]
    cases hother : csrAt offset with
    | none => rfl
    | some c' =>
      obtain rfl := (csrAt_eq_some_iff offset c').1 hother
      have hne' : c' ≠ c := fun heq => hne (heq ▸ rfl)
      rw [Option.elim_some, Option.elim_some, readCsr_taken, readCsr_writeCsr_ne hidle hc hne']
  · obtain ⟨csr, doneIe, hwrite⟩ := writeCsr_of_idle hidle hc w
    rw [hwrite]
    exact ⟨fun _ => rfl, fun _ => rfl, rfl⟩

/-! ### BUF -/

section
variable {s : State} (hidle : s.status.busy = false) (k : Nat)
include hidle

theorem State.bufRead_byte : s.bufRead .byte k = s.answer ((s.buf.read k).zeroExtend 32) :=
  if_neg (Bool.eq_false_iff.1 hidle)

theorem State.bufWrite_byte (w : Word) :
    s.bufWrite .byte k w = { s with buf := s.buf.write k (w.extractLsb' 0 8) }.taken :=
  if_neg (Bool.eq_false_iff.1 hidle)

variable {k}

theorem State.bufRead_word (h : k % 4 = 0) : s.bufRead .word k = s.answer (s.buf.readLanes k) :=
  (if_neg (Bool.eq_false_iff.1 hidle)).trans (if_pos h)

theorem State.bufWrite_word (h : k % 4 = 0) (w : Word) :
    s.bufWrite .word k w = { s with buf := s.buf.writeBytes k (lanes w) }.taken :=
  (if_neg (Bool.eq_false_iff.1 hidle)).trans (if_pos h)

/-- The widths that rule R54 allows nowhere, and a misaligned 32-bit access. -/
theorem State.buf_refused {width : Width} (h : width = .half ∨ width = .other ∨ (width = .word ∧ k % 4 ≠ 0)) :
    s.bufRead width k = s.refuse true ∧ ∀ w, s.bufWrite width k w = s.refuse false := by
  simp only [State.bufRead, State.bufWrite, hidle]
  rcases h with rfl | rfl | ⟨rfl, hmisaligned⟩
  · exact ⟨rfl, fun _ => rfl⟩
  · exact ⟨rfl, fun _ => rfl⟩
  · exact ⟨if_neg hmisaligned, fun _ => if_neg hmisaligned⟩

end

theorem State.hostAccess_read_word_reply {s : State} {k : Nat} (hidle : s.status.busy = false) (hk : k < s.params.bufsz)
    (h : k % 4 = 0) : (s.hostAccess (.read .word (0x1000 + k))).reply = .value (s.buf.readLanes k) := by
  rw [(State.hostAccess_buf hk .word).1, State.bufRead_word hidle h, State.answer_reply]

/-- The four bytes of a 32-bit write, each at its offset (rule R54). -/
theorem Memory.read_writeBytes_lanes {m : Memory} (h : m.wf = true) (k : Nat) (w : Word) :
    (m.writeBytes k (lanes w)).read k = w.extractLsb' 0 8 ∧ (m.writeBytes k (lanes w)).read (k + 1) = w.extractLsb' 8 8 ∧
      (m.writeBytes k (lanes w)).read (k + 2) = w.extractLsb' 16 8 ∧
      (m.writeBytes k (lanes w)).read (k + 3) = w.extractLsb' 24 8 :=
  ⟨Memory.read_writeBytes_inside h k 0 _ (by simp [lanes]), Memory.read_writeBytes_inside h k 1 _ (by simp [lanes]),
    Memory.read_writeBytes_inside h k 2 _ (by simp [lanes]), Memory.read_writeBytes_inside h k 3 _ (by simp [lanes])⟩

theorem Memory.readLanes_writeBytes {m : Memory} (h : m.wf = true) (k : Nat) (w : Word) :
    (m.writeBytes k (lanes w)).readLanes k = w := by
  obtain ⟨h0, h1, h2, h3⟩ := Memory.read_writeBytes_lanes h k w
  rw [Memory.readLanes, h0, h1, h2, h3, four_lanes]

/-- Settles O17: an idle access in BUF's window is a `bufRead` or a `bufWrite`, and the lanes are BUF's own bytes. -/
theorem bufAccessesUseLittleEndianLanes : Obligations.BufAccessesUseLittleEndianLanes := by
  intro s k hidle hwf _ hk
  have haccess (width : Width) := State.hostAccess_buf hk width
  refine ⟨?_, fun w => ?_, fun haligned => ⟨?_, fun w => ?_⟩, fun width hrefused => ?_⟩
  · rw [(haccess .byte).1, State.bufRead_byte hidle, State.answer]
  · rw [(haccess .byte).2, State.bufWrite_byte hidle]
    refine ⟨_, rfl, rfl, ?_, fun b hb => ?_⟩
    · exact (Memory.read_write hwf k k _).trans (if_pos rfl)
    · exact (Memory.read_write hwf k b _).trans (if_neg hb)
  · rw [(haccess .word).1, State.bufRead_word hidle haligned]
    exact ⟨_, rfl, toNat_four_bytes _ _ _ _⟩
  · rw [(haccess .word).2, State.bufWrite_word hidle haligned]
    obtain ⟨h0, h1, h2, h3⟩ := Memory.read_writeBytes_lanes hwf k w
    refine ⟨_, rfl, rfl, h0, h1, h2, h3, fun b hb => Memory.read_writeBytes_outside hwf k b _ hb, ?_⟩
    rw [State.hostAccess_read_word_reply (by exact hidle) (by exact hk) haligned]
    exact congrArg _ (Memory.readLanes_writeBytes hwf k w)
  · obtain ⟨hread, hwrite⟩ := State.buf_refused hidle hrefused
    exact ⟨(haccess width).1.trans hread, fun w => ((haccess width).2 w).trans (hwrite w)⟩

/-- Settles O18: such an access is past both regions of the window. -/
theorem accessesPastTheWindowChangeNothing : Obligations.AccessesPastTheWindowChangeNothing := by
  intro s width offset w hpast
  obtain ⟨hread, hwrite⟩ := State.hostAccess_past hpast width
  exact ⟨hread, hwrite w⟩

/-! ### The interrupt line -/

/-- Every completion sets DONE and leaves IER, so it drives IRQ to DONE_IE (rules R24 and R240). -/
theorem Completes.irq {s t : State} (h : Completes s t) : t.irq = s.doneIe := by
  rw [State.irq, h.done, h.host.doneIe, Bool.true_and]

/-- Settles O20: a completion sets DONE (`Completes.irq`); W1C and issue clear it; IER is the other factor. -/
theorem interruptLineFollowsDoneAndEnable : Obligations.InterruptLineFollowsDoneAndEnable := by
  intro s
  refine ⟨by simp [State.irq], ?_, fun i t ht => (exec_completes ht).irq, fun w hw => ?_, fun hidle w => ?_,
    fun hidle w => ?_, fun n => by simp [State.irqInput]⟩
  · obtain ⟨t, ht⟩ := s.completion_next
    exact ⟨t, ht, (State.completion_completes ht).irq⟩
  · rw [(State.hostAccess_csrAt (show csrAt 0x014 = some .status from rfl) s).2]
    simp [State.irq, writeCsr, Status.writeOneToClear, hw]
  · rw [(State.hostAccess_csrAt (show csrAt 0x01C = some .cmd from rfl) s).2, writeCsr, State.writeCmd_of_idle hidle]
    simp [State.irq]
  · rw [(State.hostAccess_csrAt (show csrAt 0x048 = some .ier from rfl) s).2, writeCsr, State.writeIer_of_idle hidle]
    rfl

/-! ### Steps -/

theorem State.advance_of_nil {s : State} (h : s.agenda = []) : s.advance = s.engineTurn := by
  rw [State.advance, h]

theorem State.advance_of_cons {s : State} {e : Event} {rest : List Event} (h : s.agenda = e :: rest) :
    s.advance = State.perform e { s with agenda := rest } := by
  rw [State.advance, h]

theorem State.engineTurn_of_busy {s : State} (h : s.status.busy = true) : s.engineTurn = s.completion := if_pos h

theorem State.engineTurn_of_idle {s : State} (h : s.status.busy = false) : s.engineTurn = .next s :=
  if_neg (Bool.eq_false_iff.1 h)

theorem State.completion_of_decode {s : State} {i : Instr} (h : decode s.cur = .ok i) : s.completion = exec i s := by
  rw [State.completion, h]

/-- A busy engine's turn is its completion, whether it is pending or no step is (rule R24). -/
theorem step_of_busy {s : State} (hlegal : s.params.legal = true) (hbusy : s.status.busy = true) :
    (s.agenda = [] → step s = s.completion) ∧
      ∀ rest, s.agenda = .engine :: rest → step s = ({ s with agenda := rest } : State).completion := by
  rw [step_of_legal hlegal]
  refine ⟨fun hagenda => ?_, fun rest hagenda => ?_⟩
  · rw [State.advance_of_nil hagenda, State.engineTurn_of_busy hbusy]
  · rw [State.advance_of_cons hagenda]
    exact State.engineTurn_of_busy hbusy

/-- Settles O6: the turn is the completion (`step_of_busy`), which executes what CUR decodes to. -/
theorem engineTurnRunsTheIssuedCommand : Obligations.EngineTurnRunsTheIssuedCommand := by
  refine ⟨fun s i hlegal hbusy hdecode => ?_, fun s => step_of_busy⟩
  obtain ⟨hnil, hcons⟩ := step_of_busy hlegal hbusy
  exact ⟨fun hagenda => (hnil hagenda).trans (State.completion_of_decode hdecode),
    fun rest hagenda => (hcons rest hagenda).trans (State.completion_of_decode hdecode)⟩

/-- Settles O7: a step takes the first pending one off the list, and an idle engine's turn does nothing else. -/
theorem hostStepsAndIdleTurns : Obligations.HostStepsAndIdleTurns := by
  intro s hlegal
  rw [step_of_legal hlegal]
  refine ⟨fun a rest hagenda => ?_, fun hidle hagenda => ?_, fun hidle rest hagenda => ?_⟩
  · rw [State.advance_of_cons hagenda]
    rfl
  · rw [State.advance_of_nil hagenda, State.engineTurn_of_idle hidle]
  · rw [State.advance_of_cons hagenda]
    exact State.engineTurn_of_idle hidle

end Sys2Proof.Machine
end

section
/-! PROOFS. Byte conversion and random integers (spec/42_bigint_bytes.md): TOBYTES and FROMBYTES undo each other, and RANDBITS. -/

namespace Sys2Proof.Machine

/-! ### The round trip (rule R147) -/

/-- Where FROMBYTES succeeds, its register holds the number that the bytes of its range make (rule R140). -/
theorem exec_frombytes_ok {rd : Reg} {s t : State} (ht : exec (.frombytes rd) s = .next t) (hok : t.errcode = .ok) :
    t.reg rd = be (s.readBuf s.arg0 s.arg1) := by
  rw [exec_frombytes, ← be_readBuf] at ht
  split at ht <;> cases ht
  · rcases s.completeReg_cases rd (be (s.readBuf s.arg0 s.arg1)) with ⟨-, heq⟩ | ⟨-, heq⟩ <;> rw [heq] at hok ⊢
    · exact State.setReg_reg_same rd _ s
    · cases hok
  · cases hok

/-- Where TOBYTES succeeds, BUF holds the big-endian bytes and RES their number (rule R142). -/
theorem exec_tobytes_ok {rs1 : Reg} {s t : State} (ht : exec (.tobytes rs1) s = .next t) (hok : t.errcode = .ok) :
    s.arg4 + tobytesLen s.arg5 (s.reg rs1) ≤ s.params.bufsz ∧
      t = ((s.writeBuf s.arg4 (i2osp (s.reg rs1) (tobytesLen s.arg5 (s.reg rs1)))).setRes
        (BitVec.ofNat 32 (tobytesLen s.arg5 (s.reg rs1)))).complete := by
  rw [exec_tobytes] at ht
  split at ht <;> cases ht
  · next hrange => exact ⟨hrange, rfl⟩
  · cases hok

/-- The bytes that TOBYTES writes are enough for the value (rule R142). -/
theorem lt_pow_tobytesLen (minLen v : Nat) : v < 256 ^ tobytesLen minLen v :=
  (bytelen_le_iff v _).1 (le_max_right minLen (bytelen v))

/-- A string read as a number needs no more bytes than the string has, so TOBYTES gives it back. -/
theorem tobytesLen_be (bytes : List Byte) : tobytesLen bytes.length (be bytes) = bytes.length :=
  max_eq_left ((bytelen_le_iff _ _).2 (be_lt bytes))

/-- A byte count that fits in BUF fits in RES (rule R8). -/
theorem toNat_ofNat_of_le_bufsz {p : Params} (hlegal : p.legal = true) {k : Nat} (hk : k ≤ p.bufsz) :
    (BitVec.ofNat 32 k).toNat = k := by
  obtain ⟨-, -, -, -, -, hmax, -⟩ := (Params.legal_iff p).1 hlegal
  rw [BitVec.toNat_ofNat, Nat.mod_eq_of_lt]
  omega

theorem frombytes_of_tobytes {rs1 rd : Reg} {s t u : State} (hinv : s.Inv) (ht : exec (.tobytes rs1) s = .next t)
    (hok : t.errcode = .ok) (hparams : u.params = t.params) (hbuf : u.buf = t.buf) (hoff : u.snap.arg0 = s.snap.arg4)
    (hlen : u.snap.arg1 = t.res) : ∃ v, exec (.frombytes rd) u = .next v ∧ WritesReg rd (s.reg rs1) u v := by
  obtain ⟨hrange, rfl⟩ := exec_tobytes_ok ht hok
  generalize hk : tobytesLen s.arg5 (s.reg rs1) = k at hrange hparams hbuf hlen
  have harg0 : u.arg0 = s.arg4 := congrArg BitVec.toNat hoff
  have harg1 : u.arg1 = k :=
    (congrArg BitVec.toNat hlen).trans (toNat_ofNat_of_le_bufsz hinv.legal (by omega))
  have hvalue : beSum u u.arg0 u.arg1 = s.reg rs1 := by
    have hread : u.readBuf s.arg4 k = i2osp (s.reg rs1) k := by
      rw [State.readBuf, hbuf]
      simpa using Memory.readBytes_writeBytes hinv.bufCanonical s.arg4 (i2osp (s.reg rs1) k)
    rw [← be_readBuf, harg0, harg1, hread, be_i2osp (hk ▸ lt_pow_tobytesLen s.arg5 (s.reg rs1))]
  have hin : u.arg0 + u.arg1 ≤ u.params.bufsz := by
    rw [harg0, harg1, hparams]
    exact hrange
  have hexec : exec (.frombytes rd) u = .next (u.completeReg rd (s.reg rs1)) := by
    rw [exec_frombytes, if_pos hin, hvalue]
  have hfits : s.reg rs1 < 2 ^ u.params.maxbits := by
    rw [hparams]
    exact hinv.regs rs1
  exact ⟨_, hexec, ((u.completeReg_effect rd _).1 hfits).1⟩

theorem tobytes_of_frombytes {rd : Reg} {s t u : State} (ht : exec (.frombytes rd) s = .next t) (hok : t.errcode = .ok)
    (hreg : u.reg rd = t.reg rd) (hwf : u.buf.wf = true) (hlen : u.snap.arg5 = s.snap.arg1)
    (hrange : u.snap.arg4.toNat + s.snap.arg1.toNat ≤ u.params.bufsz) :
    ∃ v, exec (.tobytes rd) u = .next v ∧
      WritesBuf u.snap.arg4.toNat (s.readBuf s.snap.arg0.toNat s.snap.arg1.toNat) u v ∧ v.res = s.snap.arg1 := by
  rw [exec_frombytes_ok ht hok] at hreg
  have hcount : (s.readBuf s.arg0 s.arg1).length = s.arg1 := Memory.length_readBytes _ _ _
  have harg5 : u.arg5 = (s.readBuf s.arg0 s.arg1).length := (congrArg BitVec.toNat hlen).trans hcount.symm
  have hexec : exec (.tobytes rd) u =
      .next ((u.writeBuf u.arg4 (s.readBuf s.arg0 s.arg1)).setRes (BitVec.ofNat 32 s.arg1)).complete := by
    rw [exec_tobytes, hreg, harg5, tobytesLen_be, i2osp_be, hcount]
    exact if_pos hrange
  have hres : BitVec.ofNat 32 s.arg1 = s.snap.arg1 := by rw [State.arg1, BitVec.ofNat_toNat, BitVec.setWidth_eq]
  exact ⟨_, hexec, State.writeBuf_writesBuf hwf _ _ rfl, hres⟩

/-- Settles O33: BE and I2OSP undo each other, and TOBYTES writes as many bytes as the value or the string needs. -/
theorem tobytesFrombytesRoundTrip : Obligations.TobytesFrombytesRoundTrip :=
  ⟨fun _ _ _ _ _ => frombytes_of_tobytes, fun _ _ _ _ _ ht hok _ => tobytes_of_frombytes ht hok⟩

/-! ### RANDBITS (rules R144 and R146) -/

/-- RANDBITS with its draw answered by the number n. -/
theorem State.randbits_of_value {s : State} (hzero : s.arg5 ≠ 0) (hfits : s.arg5 ≤ s.params.maxbits)
    (hrngf : s.status.rngf = false) {n : Nat} {rest : List RngAnswer} (hrng : s.rng = .value n :: rest)
    (odd : Bool) (rd : Reg) :
    ∃ t, s.randbits odd rd = .next t ∧
      WritesReg rd (randbitsValue s.arg5 odd (answerBytes ((s.arg5 + 7) / 8) n)) s t ∧
        t.rng = rest ∧ t.draws = s.draws + 1 := by
  have hdraw := State.drawBytes_of_value ((s.arg5 + 7) / 8) hrngf hrng
  exact ⟨_, State.randbits_of_draw hzero hfits hdraw odd rd,
    (State.setReg_writesReg rd _ _).of_onlyDraws (State.drawBytes_onlyDraws hdraw), rfl, rfl⟩

theorem testBit_top_randbitsValue (nb : Nat) (odd : Bool) (d : List Byte) :
    (randbitsValue nb odd d).testBit (nb - 1) = true := by
  simp [randbitsValue_testBit]

/-- Settles O34: every answer's bytes are the string they were made from, and `randbitsValue_testBit` names each bit. -/
theorem randbitsKeepsLowBitsAndForcesTop : Obligations.RandbitsKeepsLowBitsAndForcesTop := by
  intro rd s draw rest odd
  refine ⟨opOf_cmdWord (by decide) (by decide) .., opOf_cmdWord (by decide) (by decide) ..,
    fun hpos hfits hrngf hlen hrng => ?_⟩
  have hzero : s.arg5 ≠ 0 := Nat.pos_iff_ne_zero.1 hpos
  obtain ⟨t, ht, hwrites, hrest, hdraws⟩ := State.randbits_of_value hzero hfits hrngf hrng odd rd
  have hbytes : answerBytes ((s.arg5 + 7) / 8) (be draw) = draw := by
    rw [show (s.arg5 + 7) / 8 = draw.length from hlen.symm, answerBytes_be]
  rw [hbytes] at hwrites
  refine ⟨t, _, (exec_randbits_eq odd rd s).trans ht, hwrites, hrest, hdraws, randbitsValue_lt hpos odd draw,
    testBit_top_randbitsValue _ odd draw, fun j hj => ?_⟩
  have hlow : j < s.arg5 - 1 := hj
  simp [randbitsValue_testBit, show j < s.arg5 by omega, hlow.ne]

/-- Settles O35: each check of RANDBITS in its order, and a failed draw leaves what its answer took. -/
theorem randbitsErrorsInOrder : Obligations.RandbitsErrorsInOrder := by
  intro rd s odd
  dsimp only
  rw [exec_randbits_eq]
  refine ⟨fun hzero => State.randbits_of_zero hzero odd rd,
    fun hzero hlarge => State.randbits_of_large hzero hlarge odd rd,
    fun hzero hfits hrngf => ?_, fun hzero hfits hrngf rest hrng => ?_⟩
  · exact State.randbits_of_fail hzero hfits (State.drawBytes_of_rngf _ hrngf) odd rd
  · exact State.randbits_of_fail hzero hfits (State.drawBytes_of_fail _ hrngf hrng) odd rd

/-- Where RANDBITS succeeds, it writes its value of some draw (rule R144). -/
theorem State.randbits_ok {s t : State} {odd : Bool} {rd : Reg} (ht : s.randbits odd rd = .next t) (hok : t.errcode = .ok) :
    1 ≤ s.arg5 ∧ ∃ d, t.reg rd = randbitsValue s.arg5 odd d := by
  rcases s.randbits_cases odd rd with ⟨e, he, heq⟩ | ⟨hpos, -, d, s', -, heq⟩ <;> cases heq.symm.trans ht
  · exact absurd hok he
  · cases d with
    | none => cases hok
    | some d => exact ⟨hpos, d, State.setReg_reg_same rd _ s'⟩

/-- A value of nb bits with the forced bits set is what RANDBITS makes of its own bytes (rule R146). -/
theorem randbitsValue_of_forced {nb v : Nat} {odd : Bool} (hpos : 1 ≤ nb) (htop : 2 ^ (nb - 1) ≤ v) (hlt : v < 2 ^ nb)
    (hodd : odd = true → v % 2 = 1) : randbitsValue nb odd (answerBytes ((nb + 7) / 8) v) = v := by
  have hbe : be (answerBytes ((nb + 7) / 8) v) = v := by
    have hbytes : v < 256 ^ ((nb + 7) / 8) := by
      rw [show 256 = 2 ^ 8 by rfl, ← pow_mul]
      exact hlt.trans_le (Nat.pow_le_pow_right (by decide) (by omega))
    rw [answerBytes, Nat.mod_eq_of_lt hbytes, be_i2osp hbytes]
  refine Nat.eq_of_testBit_eq fun j => ?_
  rw [randbitsValue_testBit, hbe]
  by_cases hj : j < nb
  · by_cases htopBit : j = nb - 1
    · have hset : v.testBit (nb - 1) = true :=
        Nat.testBit_of_two_pow_le_and_two_pow_add_one_gt htop (by rwa [Nat.sub_add_cancel hpos])
      simp [htopBit, hset]
    · by_cases hbit0 : odd = true ∧ j = 0
      · obtain ⟨rfl, rfl⟩ := hbit0
        simp [Nat.testBit_zero, hodd rfl]
      · have hkept : (odd && decide (j = 0)) = false := by simpa using hbit0
        simp [hj, htopBit, hkept]
  · have hclear : v.testBit j = false :=
      Nat.testBit_lt_two_pow (hlt.trans_le (Nat.pow_le_pow_right (by decide) (Nat.le_of_not_lt hj)))
    simp [hj, hclear, show j ≠ nb - 1 by omega, show j ≠ 0 by omega]

/-- Settles O36: a success has the forced bits by construction; a value that has them is the answer that gives it. -/
theorem randbitsReachesExactlyTheForcedBitValues : Obligations.RandbitsReachesExactlyTheForcedBitValues := by
  intro rd s odd
  dsimp only
  refine ⟨fun t ht hok => ?_, fun hpos hfits hrngf v htop hlt hodd => ?_⟩
  · rw [exec_randbits_eq] at ht
    obtain ⟨hpos, d, hvalue⟩ := State.randbits_ok ht hok
    rw [hvalue]
    refine ⟨Nat.ge_two_pow_of_testBit (testBit_top_randbitsValue _ odd d), randbitsValue_lt hpos odd d, fun hodd => ?_⟩
    have hbit : (randbitsValue s.arg5 odd d).testBit 0 = true := by
      rw [randbitsValue_testBit, hodd]
      simp
    exact of_decide_eq_true ((Nat.testBit_zero _).symm.trans hbit)
  · obtain ⟨t, ht, hwrites, -⟩ := State.randbits_of_value (s := { s with rng := .value v :: s.rng })
      (Nat.pos_iff_ne_zero.1 hpos) hfits hrngf rfl odd rd
    refine ⟨v, t, (exec_randbits_eq odd rd _).trans ht, ?_⟩
    have hvalue := randbitsValue_of_forced hpos htop hlt hodd
    exact hvalue ▸ hwrites.of_onlyDraws (by rfl)

end Sys2Proof.Machine
end

section
/-! PROOFS. Primality (spec/43_primality.md): what the Miller-Rabin rounds answer for given draws, and that a prime has no
witness. -/

namespace Sys2Proof.Machine

/-! ### A prime has no witness (rules R162 and R163) -/

/-- Modulo a prime only 1 and -1 square to 1, so going back from b^(2^s) = 1 by square roots ends at b = 1 or passes -1. -/
theorem eq_one_or_exists_eq_neg_one {F : Type*} [Field F] {b : F} : ∀ {s : Nat}, b ^ 2 ^ s = 1 →
    b = 1 ∨ ∃ j < s, b ^ 2 ^ j = -1
  | 0, h => .inl (by simpa using h)
  | s + 1, h => by
    rw [pow_succ, pow_mul, pow_two, mul_self_eq_one_iff] at h
    rcases h with hone | hneg
    · rcases eq_one_or_exists_eq_neg_one hone with hb | ⟨j, hj, hneg⟩
      · exact .inl hb
      · exact .inr ⟨j, by omega, hneg⟩
    · exact .inr ⟨s, by omega, hneg⟩

theorem natCast_eq_neg_one_iff {c : Nat} (hc : 0 < c) (n : Nat) : (n : ZMod c) = -1 ↔ n % c = c - 1 := by
  have hcast : ((c - 1 : Nat) : ZMod c) = -1 := by
    rw [Nat.cast_sub hc, ZMod.natCast_self, Nat.cast_one, zero_sub]
  rw [← hcast, ZMod.natCast_eq_natCast_iff', Nat.mod_eq_of_lt (a := c - 1) (by omega)]

theorem noWitness_of_prime {c a : Nat} (hc : c.Prime) (ha : ¬ c ∣ a) : NoWitness c a := by
  have hfact : Fact c.Prime := ⟨hc⟩
  obtain ⟨s, d, hodd, hsplit⟩ := Nat.exists_eq_two_pow_mul_odd (n := c - 1) (by have := hc.two_le; omega)
  have hunit : (a : ZMod c) ≠ 0 := by rwa [Ne, ZMod.natCast_eq_zero_iff]
  have hfermat : ((a : ZMod c) ^ d) ^ 2 ^ s = 1 := by
    rw [← pow_mul, Nat.mul_comm, ← hsplit, ZMod.pow_card_sub_one_eq_one hunit]
  refine ⟨s, d, Nat.odd_iff.1 hodd, hsplit, ?_⟩
  rcases eq_one_or_exists_eq_neg_one hfermat with hone | ⟨j, hj, hneg⟩
  · left
    have hmod : a ^ d ≡ 1 [MOD c] := by
      rw [← ZMod.natCast_eq_natCast_iff]
      exact_mod_cast hone
    rw [hmod, Nat.mod_eq_of_lt hc.one_lt]
  · right
    have hmod : a ^ (d * 2 ^ j) % c = c - 1 := by
      rw [← natCast_eq_neg_one_iff hc.pos, pow_mul]
      exact_mod_cast hneg
    rcases Nat.eq_zero_or_pos j with rfl | hpos
    · exact .inl (by simpa using hmod)
    · exact .inr ⟨j, hpos, hj, hmod⟩

/-- Every base of [2, c-2] passes for a prime c. -/
theorem mrPasses_of_prime {c a : Nat} (hc : c.Prime) (hlarge : 2 < c) (hlo : 2 ≤ a) (hhi : a ≤ c - 2) :
    mrPasses c a = true := by
  have hodd : c % 2 = 1 := hc.eq_two_or_odd.resolve_left hlarge.ne'
  refine (mrPasses_iff_noWitness hlarge hodd).2 (noWitness_of_prime hc fun hdvd => ?_)
  have := Nat.le_of_dvd (by omega) hdvd
  omega

/-! ### The rounds (rules R160 and R162) -/

/-- A base drawn from the range is itself, and passes iff it is no witness. -/
theorem mrPasses_answerRange_iff {c a : Nat} (hlarge : 2 < c) (hodd : c % 2 = 1) (hlo : 2 ≤ a) (hhi : a ≤ c - 2) :
    mrPasses c (answerRange 2 (c - 2) a) = true ↔ NoWitness c a := by
  rw [answerRange_of_mem hlo hhi, mrPasses_iff_noWitness hlarge hodd]

theorem State.drawRange_eq_some {lo hi a : Nat} {s s' : State} (h : s.drawRange lo hi = (some a, s')) :
    ∃ n, a = answerRange lo hi n := by
  unfold State.drawRange at h
  split at h <;> cases h
  exact ⟨_, rfl⟩

/-- If every base of the range passes, the rounds that end end with "probably prime". -/
theorem State.mrRounds_verdict {c t : Nat} {s s' : State} {v : Bool} (hlarge : 4 ≤ c)
    (hpass : ∀ a, 2 ≤ a → a ≤ c - 2 → mrPasses c a = true) (h : s.mrRounds c t = (some v, s')) : v = true := by
  induction t generalizing s with
  | zero =>
    cases h
    rfl
  | succ t ih =>
    rw [State.mrRounds] at h
    split at h
    · cases h
    · next a u hdraw =>
      obtain ⟨n, rfl⟩ := State.drawRange_eq_some hdraw
      obtain ⟨hlo, hhi⟩ := answerRange_mem (show 2 ≤ c - 2 by omega) n
      rw [if_pos (hpass _ hlo hhi)] at h
      exact ih h

section
variable {c t : Nat} {s : State}

/-- A round whose draw fails ends the rounds (rule R234). -/
theorem State.mrRounds_succ_of_rngf (h : s.status.rngf = true) : s.mrRounds c (t + 1) = (none, s) := by
  rw [State.mrRounds, State.drawRange, State.draw_of_rngf h]

theorem State.eq_of_mrRounds_of_rngf {s' : State} {v : Option Bool} (h : s.status.rngf = true)
    (hdraw : s.mrRounds c t = (v, s')) : s = s' := by
  cases t with
  | zero =>
    cases hdraw
    rfl
  | succ t =>
    cases (State.mrRounds_succ_of_rngf h).symm.trans hdraw
    rfl

variable (h : s.status.rngf = false) {rest : List RngAnswer}
include h

theorem State.mrRounds_succ_of_fail (hrng : s.rng = .fail :: rest) :
    s.mrRounds c (t + 1) = (none, { s with rng := rest, draws := s.draws + 1 }) := by
  rw [State.mrRounds, State.drawRange, State.draw_of_fail h hrng]

/-- A witness ends the rounds (rule R160). -/
theorem State.mrRounds_succ_of_witness {w : Nat} (hrng : s.rng = .value w :: rest)
    (hw : mrPasses c (answerRange 2 (c - 2) w) = false) :
    s.mrRounds c (t + 1) = (some false, { s with rng := rest, draws := s.draws + 1 }) := by
  rw [State.mrRounds, State.drawRange, State.draw_of_value h hrng]
  simp only [hw, Bool.false_eq_true, if_false]

variable {bases : List Nat} (hpass : ∀ a ∈ bases, mrPasses c (answerRange 2 (c - 2) a) = true) (hlen : bases.length < t)
include hpass hlen

/-- The rounds after some passing bases whose next draw fails. -/
theorem State.mrRounds_of_fail (hrng : s.willDraw bases (.fail :: rest)) :
    s.mrRounds c t = (none, { s with rng := rest, draws := s.draws + bases.length + 1 }) := by
  obtain ⟨left, rfl⟩ := Nat.exists_eq_add_of_lt hlen
  rw [Nat.add_assoc, State.mrRounds_of_values bases _ s hrng h hpass, State.mrRounds_succ_of_fail (by exact h) (by rfl)]

/-- The rounds after some passing bases whose next base is a witness. -/
theorem State.mrRounds_of_witness {w : Nat} (hrng : s.willDraw bases (.value w :: rest))
    (hw : mrPasses c (answerRange 2 (c - 2) w) = false) :
    s.mrRounds c t = (some false, { s with rng := rest, draws := s.draws + bases.length + 1 }) := by
  obtain ⟨left, rfl⟩ := Nat.exists_eq_add_of_lt hlen
  rw [Nat.add_assoc, State.mrRounds_of_values bases _ s hrng h hpass,
    State.mrRounds_succ_of_witness (by exact h) (by rfl) hw]

end

/-! ### Candidates and trial division (rules R160 and R161) -/

/-- Trial division does not decide c: c is at least 2 and no prime up to TD_BOUND divides it (rule R160). -/
structure State.Undecided (s : State) (c : Nat) : Prop where
  two_le : 2 ≤ c
  no_factor : ∀ p, p.Prime → p ≤ s.params.tdBound → ¬ p ∣ c

theorem State.Undecided.trialDivision {s : State} {c : Nat} (h : s.Undecided c) : trialDivision c s.tdPrimes = none :=
  (s.trialDivision_tdPrimes c).2.2 h.no_factor

theorem State.undecided_of_prime {s : State} {c : Nat} (hc : c.Prime) (h : s.params.tdBound < c) : s.Undecided c := by
  refine ⟨hc.two_le, fun p hp hle hdvd => ?_⟩
  obtain rfl := (Nat.prime_dvd_prime_iff_eq hp hc).1 hdvd
  omega

/-- 2 is always a trial-division prime, so a round's candidate is odd and above 2 (rules R8 and R161). -/
theorem State.Undecided.odd {s : State} {c : Nat} (h : s.Undecided c) (hlegal : s.params.legal = true) :
    2 < c ∧ c % 2 = 1 := by
  obtain ⟨-, -, -, -, -, -, hbound⟩ := (Params.legal_iff _).1 hlegal
  have hodd := h.no_factor 2 Nat.prime_two (by omega)
  have htwo := h.two_le
  omega

/-! ### What ISPRIME answers -/

section
variable {s : State} {rs1 : Reg} (hrounds : s.snap.rounds ≠ 0)
include hrounds

theorem isprime_of_factor (hc : ¬ (s.reg rs1).Prime)
    (h : s.reg rs1 < 2 ∨ ∃ p, p.Prime ∧ p ≤ s.params.tdBound ∧ p ∣ s.reg rs1) :
    exec (.isprime rs1) s = .next (s.setRes 0).complete := by
  by_cases htwo : s.reg rs1 < 2
  · exact exec_isprime_of_lt_two hrounds htwo
  · have htrial := (s.trialDivision_tdPrimes (s.reg rs1)).2.1 hc (h.resolve_left htwo)
    exact exec_isprime_of_trialDivision hrounds (Nat.le_of_not_lt htwo) htrial

theorem isprime_of_tdPrime (hc : (s.reg rs1).Prime) (h : s.reg rs1 ≤ s.params.tdBound) :
    exec (.isprime rs1) s = .next (s.setRes 1).complete :=
  exec_isprime_of_trialDivision hrounds hc.two_le ((s.trialDivision_tdPrimes _).1 hc h)

/-- The rounds' verdict is ISPRIME's, and the draws they made are all that is left of them. -/
theorem isprime_of_rounds (h : s.Undecided (s.reg rs1)) {s' : State} {v : Bool}
    (hdraw : s.mrRounds (s.reg rs1) s.rounds = (some v, s')) :
    ∃ t, exec (.isprime rs1) s = .next t ∧ WritesRes (verdictWord v) s t ∧ t.rng = s'.rng ∧ t.draws = s'.draws :=
  ⟨_, exec_isprime_of_rounds hrounds h.two_le h.trialDivision hdraw,
    (State.setRes_writesRes _ s').of_onlyDraws (State.mrRounds_onlyDraws hdraw), rfl, rfl⟩

/-- As many passing bases as ROUNDS: probably prime. -/
theorem isprime_of_passing (h : s.Undecided (s.reg rs1)) (hrngf : s.status.rngf = false) {bases : List Nat}
    {rest : List RngAnswer} (hpass : ∀ n ∈ bases, mrPasses (s.reg rs1) (answerRange 2 (s.reg rs1 - 2) n) = true)
    (hlen : bases.length = s.snap.rounds.toNat) (hrng : s.willDraw bases rest) :
    ∃ t, exec (.isprime rs1) s = .next t ∧ WritesRes 1 s t ∧ t.rng = rest ∧ t.draws = s.draws + bases.length := by
  have hdraw := State.mrRounds_of_values bases rest s hrng hrngf hpass 0
  rw [Nat.add_zero, hlen] at hdraw
  obtain ⟨t, ht, hwrites, hrest, hdraws⟩ := isprime_of_rounds hrounds h hdraw
  exact ⟨t, ht, hwrites, hrest, hlen ▸ hdraws⟩

/-- A prime gets no verdict but 1, whatever is drawn (rule R163). -/
theorem isprime_of_prime (hlegal : s.params.legal = true) (hc : (s.reg rs1).Prime) {t : State}
    (ht : exec (.isprime rs1) s = .next t) (hok : t.errcode = .ok) : WritesRes 1 s t := by
  by_cases htd : s.reg rs1 ≤ s.params.tdBound
  · cases (isprime_of_tdPrime hrounds hc htd).symm.trans ht
    exact s.setRes_writesRes 1
  · have hundecided := State.undecided_of_prime hc (Nat.lt_of_not_le htd)
    obtain ⟨-, -, -, -, -, -, hbound⟩ := (Params.legal_iff _).1 hlegal
    rcases hdraw : s.mrRounds (s.reg rs1) s.rounds with ⟨_ | v, s'⟩
    · cases (exec_isprime_of_fail hrounds hundecided.two_le hundecided.trialDivision hdraw).symm.trans ht
      cases hok
    · obtain ⟨u, hu, hwrites, -⟩ := isprime_of_rounds hrounds hundecided hdraw
      cases hu.symm.trans ht
      obtain rfl : v = true := State.mrRounds_verdict (by omega) (fun a => mrPasses_of_prime hc (by omega)) hdraw
      exact hwrites

end

/-! ### The obligations -/

/-- Settles O37: a trial-division prime is found in the list, and any other prime has no witness (`mrPasses_of_prime`). -/
theorem isprimeAcceptsEveryPrime : Obligations.IsprimeAcceptsEveryPrime := by
  intro rs1 s
  refine ⟨opOf_cmdWord (by decide) (by decide) .., fun hlegal hc hrounds => ⟨fun t => isprime_of_prime hrounds hlegal hc,
    fun htd => ?_, fun hlarge hrngf ns rest hlen hrng => ?_⟩⟩
  · exact ⟨_, isprime_of_tdPrime hrounds hc htd, s.setRes_writesRes 1, rfl, rfl⟩
  · have hundecided := State.undecided_of_prime hc hlarge
    obtain ⟨-, -, -, -, -, -, hbound⟩ := (Params.legal_iff _).1 hlegal
    have hpass (n : Nat) : mrPasses (s.reg rs1) (answerRange 2 (s.reg rs1 - 2) n) = true := by
      obtain ⟨hlo, hhi⟩ := answerRange_mem (show 2 ≤ s.reg rs1 - 2 by omega) n
      exact mrPasses_of_prime hc (by omega) hlo hhi
    exact hlen ▸ isprime_of_passing hrounds hundecided hrngf (fun n _ => hpass n) hlen hrng

/-- Settles O38: trial division finds the factor, for a list of primes holds no other verdict than composite. -/
theorem isprimeRejectsByTrialDivision : Obligations.IsprimeRejectsByTrialDivision :=
  fun _ s hrounds hc hfactor => ⟨_, isprime_of_factor hrounds hc hfactor, s.setRes_writesRes 0, rfl, rfl⟩

/-- A composite below q^2 has a prime factor below q, and there is no prime between TD_BOUND and q (rule R165). -/
theorem exists_factor_below_square {c q b : Nat} (hleast : ∀ p, p.Prime → b < p → q ≤ p) (hc : ¬ c.Prime) (h : c < q ^ 2) :
    c < 2 ∨ ∃ p, p.Prime ∧ p ≤ b ∧ p ∣ c := by
  by_cases htwo : c < 2
  · exact .inl htwo
  · have hprime : c.minFac.Prime := Nat.minFac_prime (by omega)
    refine .inr ⟨c.minFac, hprime, ?_, c.minFac_dvd⟩
    by_contra hlarge
    have hsq : c.minFac ^ 2 ≤ c := Nat.minFac_sq_le_self (by omega) hc
    have hq : q ^ 2 ≤ c.minFac ^ 2 := Nat.pow_le_pow_left (hleast _ hprime (by omega)) 2
    omega

/-- Settles O39: below q^2 a composite has a trial-division factor, and a prime is always accepted. -/
theorem isprimeIsExactBelowTheSquare : Obligations.IsprimeIsExactBelowTheSquare := by
  intro rs1 s t q hlegal _ _ hleast hbelow ht hok
  have hrounds : s.snap.rounds ≠ 0 := by
    intro hzero
    cases (exec_isprime_of_no_rounds hzero rs1).symm.trans ht
    cases hok
  refine ⟨fun hc => (isprime_of_prime hrounds hlegal hc ht hok).dest, fun hc => ?_⟩
  cases (isprime_of_factor hrounds hc (exists_factor_below_square hleast hc hbelow)).symm.trans ht
  rfl

/-- Settles O40: bases of the range answer for themselves, and a round passes iff its base is no witness. -/
theorem isprimeFollowsTheDrawnBases : Obligations.IsprimeFollowsTheDrawnBases := by
  intro rs1 s bases rest hlegal hrounds hrngf htwo hfactor hbases
  have hundecided : s.Undecided (s.reg rs1) := ⟨htwo, hfactor⟩
  obtain ⟨hlarge, hodd⟩ := hundecided.odd hlegal
  have hpass : ∀ a ∈ bases, mrPasses (s.reg rs1) (answerRange 2 (s.reg rs1 - 2) a) = true := fun a ha =>
    have ⟨hlo, hhi, hbase⟩ := hbases a ha
    (mrPasses_answerRange_iff hlarge hodd hlo hhi).2 hbase
  refine ⟨fun hlen hrng => isprime_of_passing hrounds hundecided hrngf hpass hlen hrng, fun hlen w hlo hhi hw hrng => ?_⟩
  have hfails : mrPasses (s.reg rs1) (answerRange 2 (s.reg rs1 - 2) w) = false :=
    Bool.eq_false_iff.2 fun hpasses => hw ((mrPasses_answerRange_iff hlarge hodd hlo hhi).1 hpasses)
  have hwill : s.willDraw bases (.value w :: rest) := by simpa [State.willDraw] using hrng
  exact isprime_of_rounds hrounds hundecided (State.mrRounds_of_witness hrngf hpass hlen hwill hfails)

/-- Settles O41: the count is checked first, and the draw that fails is the last one made. -/
theorem isprimeErrorsInOrder : Obligations.IsprimeErrorsInOrder := by
  intro rs1 s
  refine ⟨fun hzero => exec_isprime_of_no_rounds hzero rs1, fun hrounds htwo hfactor => ?_⟩
  have hundecided : s.Undecided (s.reg rs1) := ⟨htwo, hfactor⟩
  refine ⟨fun hrngf => ?_, fun hlegal hrngf bases rest hlen hbases hrng => ?_⟩
  · obtain ⟨left, hleft⟩ := Nat.exists_eq_add_one_of_ne_zero (State.rounds_ne_zero hrounds)
    have hdraw : s.mrRounds (s.reg rs1) s.rounds = (none, s) := by rw [hleft, State.mrRounds_succ_of_rngf hrngf]
    exact exec_isprime_of_fail hrounds htwo hundecided.trialDivision hdraw
  · obtain ⟨hlarge, hodd⟩ := hundecided.odd hlegal
    have hpass : ∀ a ∈ bases, mrPasses (s.reg rs1) (answerRange 2 (s.reg rs1 - 2) a) = true := fun a ha =>
      have ⟨hlo, hhi, hbase⟩ := hbases a ha
      (mrPasses_answerRange_iff hlarge hodd hlo hhi).2 hbase
    exact exec_isprime_of_fail hrounds htwo hundecided.trialDivision (State.mrRounds_of_fail hrngf hpass hlen hrng)

end Sys2Proof.Machine
end

section
/-! PROOFS. OAEP (spec/44_oaep.md): the block that is written, the blocks that decode, and the round trip. -/

namespace Sys2Proof.Machine

/-! ### The block that OAEP_UNPAD reads (rule R184) -/

/-- The seed that unmasking a block gives (rule R184), for an hLen of h. -/
def unmaskedSeed (ms : HashFn) (h : Nat) (em : List Byte) : List Byte :=
  xorBytes ((em.drop 1).take h) (mgf1 ms (em.drop (h + 1)) h)

/-- The data block that unmasking a k-byte block gives (rule R184), for an hLen of h. -/
def unmaskedDB (ms : HashFn) (h k : Nat) (em : List Byte) : List Byte :=
  xorBytes (em.drop (h + 1)) (mgf1 ms (unmaskedSeed ms h em) (k - h - 1))

theorem oaepDecode_eq (hs ms : HashFn) (k : Nat) (em label : List Byte) :
    oaepDecode hs ms k em label =
      if em.take 1 = [0x00] ∧ (unmaskedDB ms (hashLen hs) k em).take (hashLen hs) = hash hs label then
        afterSeparator ((unmaskedDB ms (hashLen hs) k em).drop (hashLen hs))
      else none := rfl

theorem take_one_eq_iff (em : List Byte) (b : Byte) : em.take 1 = [b] ↔ em[0]? = some b := by
  cases em <;> simp

/-- A string starts with H and goes on with R iff it is the two joined. -/
theorem take_and_drop_iff {n : Nat} {l H R : List Byte} (hn : H.length = n) : l.take n = H ∧ l.drop n = R ↔ l = H ++ R := by
  constructor
  · rintro ⟨rfl, rfl⟩
    exact (List.take_append_drop n l).symm
  · rintro rfl
    exact ⟨List.take_left' hn, List.drop_left' hn⟩

/-- A block decodes to a message iff its first byte is 0 and its DB is the label's hash, zeros, 0x01 and that message. -/
theorem oaepDecode_eq_some_iff (hs ms : HashFn) (k : Nat) (em label msg : List Byte) :
    oaepDecode hs ms k em label = some msg ↔
      em[0]? = some 0x00 ∧ ∃ i, unmaskedDB ms (hashLen hs) k em = hash hs label ++ zeros i ++ [0x01] ++ msg := by
  have hsplit (i : Nat) := take_and_drop_iff (l := unmaskedDB ms (hashLen hs) k em) (R := zeros i ++ [0x01] ++ msg)
    (length_hash hs label)
  simp only [← List.append_assoc] at hsplit
  rw [oaepDecode_eq, Option.ite_none_right_eq_some, take_one_eq_iff, afterSeparator_eq_some_iff]
  simp only [← hsplit, exists_and_left, and_assoc]

/-! ### Decoding an encoded block (rule R186) -/

/-- Rule R182's data block of a message of n bytes. -/
def encodedDB (hs : HashFn) (k n : Nat) (msg label : List Byte) : List Byte :=
  hash hs label ++ zeros (k - n - 2 * hashLen hs - 2) ++ [0x01] ++ msg

/-- Rule R182's masking of a data block with a seed, for an hLen of h. -/
def maskedBlock (ms : HashFn) (h k : Nat) (seed db : List Byte) : List Byte :=
  let maskedDB := xorBytes db (mgf1 ms seed (k - h - 1))
  [0x00] ++ xorBytes seed (mgf1 ms maskedDB h) ++ maskedDB

theorem oaepEncode_eq (hs ms : HashFn) (k : Nat) {n : Nat} {msg : List Byte} (label seed : List Byte) (hn : msg.length = n) :
    oaepEncode hs ms k msg label seed = maskedBlock ms (hashLen hs) k seed (encodedDB hs k n msg label) := by
  subst hn
  rfl

theorem length_encodedDB {hs : HashFn} {k n : Nat} {msg : List Byte} (label : List Byte) (hn : msg.length = n)
    (hlen : n + 2 * hashLen hs + 2 ≤ k) : (encodedDB hs k n msg label).length = k - hashLen hs - 1 := by
  simp only [encodedDB, List.length_append, length_hash, length_zeros, List.length_singleton]
  omega

/-- Unmasking gives back the data block that was masked, for the block is cut where its parts were joined. -/
theorem unmaskedDB_maskedBlock (ms : HashFn) {h k : Nat} {seed db : List Byte} (hseed : seed.length = h)
    (hdb : db.length = k - h - 1) : unmaskedDB ms h k (maskedBlock ms h k seed db) = db := by
  have hcut {maskedSeed maskedDB : List Byte} (hlen : maskedSeed.length = h) :
      (([0x00] ++ maskedSeed ++ maskedDB).drop 1).take h = maskedSeed ∧
        ([0x00] ++ maskedSeed ++ maskedDB).drop (h + 1) = maskedDB := by
    simp [← hlen]
  obtain ⟨hcutSeed, hcutDB⟩ := hcut (maskedSeed := xorBytes seed (mgf1 ms (xorBytes db (mgf1 ms seed (k - h - 1))) h))
    (maskedDB := xorBytes db (mgf1 ms seed (k - h - 1))) (by simp [hseed])
  rw [maskedBlock, unmaskedDB, unmaskedSeed, hcutSeed, hcutDB, xorBytes_xorBytes (by rw [hseed, length_mgf1]),
    xorBytes_xorBytes (by rw [hdb, length_mgf1])]

theorem oaepDecode_oaepEncode (hs ms : HashFn) {k : Nat} {msg seed : List Byte} (label : List Byte)
    (hlen : msg.length + 2 * hashLen hs + 2 ≤ k) (hseed : seed.length = hashLen hs) :
    oaepDecode hs ms k (oaepEncode hs ms k msg label seed) label = some msg := by
  have hdb := unmaskedDB_maskedBlock ms hseed (length_encodedDB label rfl hlen)
  rw [oaepEncode_eq hs ms k label seed rfl]
  exact (oaepDecode_eq_some_iff ..).2 ⟨rfl, _, hdb⟩

/-! ### What the commands do -/

/-- OAEP_PAD past its checks, with the draw answered (rule R182). -/
theorem exec_oaepPad_writes {s s' : State} {hs ms : HashFn} {seed : List Byte} (hlabel : s.labelHash = some hs)
    (hmgf : s.mgfHash = some ms) (hwf : s.buf.wf = true) (hin : s.PadInBuf) (hlen : s.arg1 + 2 * hashLen hs + 2 ≤ s.klen)
    (hdraw : s.drawBytes (hashLen hs) = (some seed, s')) :
    ∃ t, exec .oaepPad s = .next t ∧
      WritesBuf s.arg4 (oaepEncode hs ms s.klen (s.readBuf s.arg0 s.arg1) (s.readBuf s.arg2 s.arg3) seed) s t ∧
        t.res = s.res ∧ t.rng = s'.rng ∧ t.draws = s'.draws := by
  have hdraws := State.drawBytes_onlyDraws hdraw
  have hwf' : s'.buf.wf = true := by
    rw [hdraws]
    exact hwf
  exact ⟨_, exec_oaepPad_of_draw hlabel hmgf hin hlen hdraw, (State.writeBuf_writesBuf hwf' _ _ rfl).of_onlyDraws hdraws,
    hdraws.res, rfl, rfl⟩

/-- Where OAEP_PAD succeeds, the message was short enough and BUF holds its block for some drawn seed (rule R182). -/
theorem exec_oaepPad_ok {s t : State} {hs : HashFn} (hlabel : s.labelHash = some hs) (hwf : s.buf.wf = true)
    (ht : exec .oaepPad s = .next t) (hok : t.errcode = .ok) :
    ∃ ms seed, s.mgfHash = some ms ∧ s.arg1 + 2 * hashLen hs + 2 ≤ s.klen ∧ seed.length = hashLen hs ∧
      WritesBuf s.arg4 (oaepEncode hs ms s.klen (s.readBuf s.arg0 s.arg1) (s.readBuf s.arg2 s.arg3) seed) s t := by
  rcases exec_oaepPad_cases s with ⟨e, he, heq⟩ | ⟨hs', ms, hlabel', hmgf, hin, hlen, d, s', hdraw, heq⟩
  · cases heq.symm.trans ht
    exact absurd hok he
  · cases hlabel.symm.trans hlabel'
    cases d with
    | none =>
      cases heq.symm.trans ht
      cases hok
    | some seed =>
      obtain ⟨u, hu, hwrites, -⟩ := exec_oaepPad_writes hlabel hmgf hwf hin hlen hdraw
      cases hu.symm.trans ht
      exact ⟨ms, seed, hmgf, hlen, State.length_of_drawBytes hdraw, hwrites⟩

/-- OAEP_UNPAD of a block that decodes, with its message stored and counted in RES (rule R184). -/
theorem exec_oaepUnpad_writes {s : State} {hs ms : HashFn} {msg : List Byte} (hlabel : s.labelHash = some hs)
    (hmgf : s.mgfHash = some ms) (hwf : s.buf.wf = true) (hin : s.UnpadInBuf (hashLen hs))
    (hlen : 2 * hashLen hs + 2 ≤ s.klen)
    (hdecode : oaepDecode hs ms s.klen (s.readBuf s.arg0 s.klen) (s.readBuf s.arg2 s.arg3) = some msg) :
    ∃ t, exec .oaepUnpad s = .next t ∧ WritesBuf s.arg4 msg s t ∧ t.res = BitVec.ofNat 32 msg.length ∧ NoDraw s t :=
  ⟨_, exec_oaepUnpad_of_message hlabel hmgf hin hlen hdecode, State.writeBuf_writesBuf hwf _ _ rfl, rfl, rfl, rfl⟩

/-! ### The obligations -/

/-- Settles O42: the two selectors are the halves of HASHCFG's byte, and the rest is rule R35's table. -/
theorem hashSelectorsNameTheHashes : Obligations.HashSelectorsNameTheHashes := by
  refine ⟨fun o => ⟨?_, ?_⟩, rfl, rfl, rfl, rfl, by decide, rfl, rfl, rfl, rfl, rfl, rfl⟩
  · simp [Operands.hashSel]
  · have hbyte := o.hashcfg.isLt
    simp only [Operands.mgfSel, BitVec.extractLsb'_toNat, Nat.shiftRight_eq_div_pow]
    omega

/-- Settles O44: the answer stands for the seed it was made from, and the model's block is rule R182's. -/
theorem oaepPadWritesTheEncodedBlock : Obligations.OaepPadWritesTheEncodedBlock := by
  intro s hs ms seed rest
  refine ⟨opOf_cmdWord (by decide) (by decide) .., fun hlabel hmgf hwf hmsg hlabelRange hblock hlen hrngf hseed hrng => ?_⟩
  have hdraw := State.drawBytes_of_value (hashLen hs) hrngf hrng
  rw [show answerBytes (hashLen hs) (be seed) = seed from hseed ▸ answerBytes_be seed] at hdraw
  have hcount : (s.readBuf s.arg0 s.arg1).length = s.arg1 := Memory.length_readBytes _ _ _
  have hencode := oaepEncode_eq hs ms s.klen (s.readBuf s.arg2 s.arg3) seed hcount
  have hlength : (oaepEncode hs ms s.klen (s.readBuf s.arg0 s.arg1) (s.readBuf s.arg2 s.arg3) seed).length = s.klen :=
    length_oaepEncode _ _ _ _ _ _ (by rwa [hcount]) hseed
  obtain ⟨t, ht, hwrites, hres, hrest, hdraws⟩ :=
    exec_oaepPad_writes hlabel hmgf hwf ⟨hmsg, hlabelRange, hblock⟩ hlen hdraw
  rw [hencode] at hlength hwrites
  exact ⟨t, _, _, _, ht, rfl, rfl, rfl, hlength, hwrites, hres, hrest, hdraws⟩

/-- Settles O45: each check of OAEP_PAD in its order; past them only the draw can fail. -/
theorem oaepPadErrorsInOrder : Obligations.OaepPadErrorsInOrder := by
  intro s
  refine ⟨exec_oaepPad_of_reserved, fun hs ms hlabel hmgf => ⟨fun hout => exec_oaepPad_of_not_inBuf hlabel hmgf hout,
    fun hin hlen => exec_oaepPad_of_tooLong hlabel hmgf hin hlen, fun hin hlen => ⟨fun hrngf => ?_, fun hrngf rest hrng => ?_,
      fun hrngf n rest hrng => ?_⟩⟩⟩
  · exact exec_oaepPad_of_fail hlabel hmgf hin hlen (State.drawBytes_of_rngf _ hrngf)
  · exact exec_oaepPad_of_fail hlabel hmgf hin hlen (State.drawBytes_of_fail _ hrngf hrng)
  · exact ⟨_, exec_oaepPad_of_draw hlabel hmgf hin hlen (State.drawBytes_of_value _ hrngf hrng), State.complete_endsOk rfl⟩

/-- Settles O46: the model's decoder accepts exactly these blocks (`oaepDecode_eq_some_iff`). -/
theorem oaepUnpadAcceptsExactlyTheWellFormedBlocks : Obligations.OaepUnpadAcceptsExactlyTheWellFormedBlocks := by
  intro s hs ms
  refine ⟨opOf_cmdWord (by decide) (by decide) .., fun hlabel hmgf hwf hblock hlabelRange hlen hout => ?_⟩
  have hin : s.UnpadInBuf (hashLen hs) := ⟨hblock, hlabelRange, fun _ => hout⟩
  refine ⟨fun i msg hfirst hdb => ?_, fun hmalformed => ?_⟩
  · exact exec_oaepUnpad_writes hlabel hmgf hwf hin hlen ((oaepDecode_eq_some_iff ..).2 ⟨hfirst, i, hdb⟩)
  · refine exec_oaepUnpad_of_malformed hlabel hmgf hin hlen (Option.eq_none_iff_forall_ne_some.2 fun msg hdecode => ?_)
    obtain ⟨hfirst, i, hdb⟩ := (oaepDecode_eq_some_iff ..).1 hdecode
    exact hmalformed ⟨i, msg, hfirst, hdb⟩

/-- Settles O47: the checks before decoding look at the selectors, the ranges and KLEN only. -/
theorem oaepUnpadErrorsInOrder : Obligations.OaepUnpadErrorsInOrder := by
  intro s
  refine ⟨exec_oaepUnpad_of_reserved, fun hs ms hlabel hmgf => ⟨fun hpast => ?_, fun hblock hlabelRange hlen => ?_⟩⟩
  · refine exec_oaepUnpad_of_not_inBuf hlabel hmgf fun ⟨hblock, hlabelRange, hout⟩ => ?_
    rcases hpast with hpast | hpast | ⟨hlen, hpast⟩
    · exact hpast.not_ge hblock
    · exact hpast.not_ge hlabelRange
    · exact hpast.not_ge (hout hlen)
  · exact exec_oaepUnpad_of_short hlabel hmgf ⟨hblock, hlabelRange, fun hlong => absurd hlong hlen.not_ge⟩ hlen

/-- Settles O48: the block that was written is the one that is read, and decoding undoes encoding for every seed. -/
theorem oaepRoundTrip : Obligations.OaepRoundTrip := by
  intro s t u hs hwf ht hok hlabel hwfU hcfg hklen hlabelBytes hblock hinBlock hinLabel hinOut
  obtain ⟨ms, seed, hmgf, hlen, hseed, hwrites⟩ := exec_oaepPad_ok hlabel hwf ht hok
  have hklenU : u.klen = s.klen := congrArg BitVec.toNat hklen
  have hlabelU : u.labelHash = some hs := by rw [State.labelHash, Operands.hashSel, hcfg]; exact hlabel
  have hmgfU : u.mgfHash = some ms := by rw [State.mgfHash, Operands.mgfSel, hcfg]; exact hmgf
  have hcount : (s.readBuf s.arg0 s.arg1).length = s.arg1 := Memory.length_readBytes _ _ _
  have hread : u.readBuf u.arg0 u.klen =
      oaepEncode hs ms s.klen (s.readBuf s.arg0 s.arg1) (s.readBuf s.arg2 s.arg3) seed := by
    have hstored := hwrites.readBuf
    rw [length_oaepEncode _ _ _ _ _ _ (by rwa [hcount]) hseed] at hstored
    exact hblock.trans hstored
  have hdecode : oaepDecode hs ms u.klen (u.readBuf u.arg0 u.klen) (u.readBuf u.arg2 u.arg3) =
      some (s.readBuf s.arg0 s.arg1) := by
    rw [hread, hklenU, show u.readBuf u.arg2 u.arg3 = s.readBuf s.arg2 s.arg3 from hlabelBytes]
    exact oaepDecode_oaepEncode hs ms _ (by rwa [hcount]) hseed
  obtain ⟨v, hv, hstores, hres, -⟩ := exec_oaepUnpad_writes hlabelU hmgfU hwfU ⟨hinBlock, hinLabel, fun _ => hinOut⟩
    (by omega) hdecode
  refine ⟨v, hv, hstores, ?_⟩
  rw [hres, hcount, State.arg1, BitVec.ofNat_toNat, BitVec.setWidth_eq]

end Sys2Proof.Machine
end

section
/-! PROOFS. The machine as a whole: what changes RES, the sticky RNGF, the exponentiation algorithms of rule R109, and that
every command in flight completes. -/

namespace Sys2Proof.Machine

/-! ### RES (rules R34 and R213) -/

theorem mnemonic_mem_of_isResWriting {i : Instr} (hi : isResWriting i = true) :
    i.mnemonic ∈ ["cmp", "bitlen", "tobytes", "isprime", "oaep.unpad", "zeroize"] := by
  cases i with
  | cmp | bitlen | tobytes | isprime | oaepUnpad | zeroize => simp [Instr.mnemonic]
  | _ => cases hi

/-- Settles O51: a failure keeps RES, and so does a success of a command that is not one of the list. -/
theorem onlyResultCommandsChangeRes : Obligations.OnlyResultCommandsChangeRes := by
  intro i s t ht hchanged
  obtain ⟨u, hu, hends⟩ := exec_ends i s
  cases hu.symm.trans ht
  rcases hends with hfails | hsucceeds
  · rw [hfails.eq] at hchanged
    exact absurd rfl hchanged
  · refine ⟨hsucceeds.errcode, mnemonic_mem_of_isResWriting (Bool.of_not_eq_false fun hi => hchanged ?_)⟩
    obtain ⟨s', x, buf, res, -, -, hres, rfl⟩ := hsucceeds
    exact hres hi

/-! ### RNGF (rule R234) -/

/-- No command clears RNGF. -/
theorem exec_keepsRngf {i : Instr} {s t : State} (h : s.status.rngf = true) (ht : exec i s = .next t) :
    t.status.rngf = true := by
  obtain ⟨u, hu, hends⟩ := exec_ends i s
  cases hu.symm.trans ht
  rcases hends with hfails | ⟨s', x, buf, res, hdraws, -, -, rfl⟩
  · rw [hfails.eq]
    simp [h]
  · rw [hdraws]
    exact h

theorem rngf_of_rngUnavailable {i : Instr} {s t : State} (ht : exec i s = .next t) (hcode : t.errcode = .rngUnavailable) :
    t.status.rngf = true := by
  obtain ⟨u, hu, hends⟩ := exec_ends i s
  cases hu.symm.trans ht
  rcases hends with hfails | hsucceeds
  · rw [hfails.eq]
    simp [hcode]
  · rw [hsucceeds.errcode] at hcode
    cases hcode

section
variable {s t : State} (h : s.status.rngf = true)
include h

theorem State.randbits_noDraw {odd : Bool} {rd : Reg} (ht : s.randbits odd rd = .next t) : NoDraw s t := by
  rcases s.randbits_cases odd rd with ⟨e, -, heq⟩ | ⟨-, -, d, s', hdraw, heq⟩ <;> cases heq.symm.trans ht
  · exact ⟨rfl, rfl⟩
  · cases (State.drawBytes_of_rngf _ h).symm.trans hdraw
    exact ⟨rfl, rfl⟩

theorem exec_isprime_noDraw {rs1 : Reg} (ht : exec (.isprime rs1) s = .next t) : NoDraw s t := by
  rcases exec_isprime_cases rs1 s with heq | ⟨v, heq⟩ | ⟨v, s', hdraw, heq⟩ <;> cases heq.symm.trans ht
  · exact ⟨rfl, rfl⟩
  · exact ⟨rfl, rfl⟩
  · obtain rfl : s = s' := State.eq_of_mrRounds_of_rngf h hdraw
    cases v <;> exact ⟨rfl, rfl⟩

theorem exec_oaepPad_noDraw (ht : exec .oaepPad s = .next t) : NoDraw s t := by
  rcases exec_oaepPad_cases s with ⟨e, -, heq⟩ | ⟨hs, ms, -, -, -, -, d, s', hdraw, heq⟩ <;> cases heq.symm.trans ht
  · exact ⟨rfl, rfl⟩
  · cases (State.drawBytes_of_rngf _ h).symm.trans hdraw
    exact ⟨rfl, rfl⟩

/-- While RNGF = 1 no command asks the oracle (rule R234). -/
theorem exec_noDraw_of_rngf {i : Instr} (ht : exec i s = .next t) : NoDraw s t := by
  cases hi : isDrawing i with
  | false => exact noDraw_of_not_isDrawing hi ht
  | true =>
    cases i with
    | randbits | randbitsOdd => exact State.randbits_noDraw h ht
    | isprime => exact exec_isprime_noDraw h ht
    | oaepPad => exact exec_oaepPad_noDraw h ht
    | _ => cases hi

/-- The same of a completion, whatever CUR holds. -/
theorem State.completion_of_rngf (ht : s.completion = .next t) :
    t.rng = s.rng ∧ t.draws = s.draws ∧ t.status.rngf = true := by
  unfold State.completion at ht
  split at ht
  · obtain ⟨hrng, hdraws⟩ := exec_noDraw_of_rngf h ht
    exact ⟨hrng, hdraws, exec_keepsRngf h ht⟩
  · cases ht
    exact ⟨rfl, rfl, by simp [h]⟩

end

/-- Settles O53: of the steps (`step_cases`) only the two resets write RNGF, and only a completion could draw. -/
theorem rngFailureIsStickyUntilReset : Obligations.RngFailureIsStickyUntilReset := by
  refine ⟨fun i s t => rngf_of_rngUnavailable, fun s t hrngf ht => ?_⟩
  obtain ⟨-, s', hs', hcases⟩ := step_cases ht
  have hrngf' : s'.status.rngf = true := by
    rw [hs']
    exact hrngf
  have hhistory : s'.rng = s.rng ∧ s'.draws = s.draws := by
    rw [hs']
    exact ⟨rfl, rfl⟩
  rw [← hhistory.1, ← hhistory.2]
  rcases hcases with ⟨-, hcompletion⟩ | ⟨-, rfl⟩ | ⟨a, hhead, rfl⟩ | ⟨hhead, rfl⟩
  · obtain ⟨hrng, hdraws, hkept⟩ := State.completion_of_rngf hrngf' hcompletion
    exact ⟨hrng, hdraws, .inl hkept⟩
  · exact ⟨rfl, rfl, .inl hrngf'⟩
  · rcases s'.hostAccess_cases a with ⟨w, hw, rfl, hreset⟩ | hstep
    · rw [hreset]
      exact ⟨rfl, rfl, .inr (.inr ⟨w, hw, hhead⟩)⟩
    · exact ⟨hstep.rng, hstep.draws, .inl (hstep.rngf.trans hrngf')⟩
  · exact ⟨rfl, rfl, .inr (.inl hhead)⟩

/-! ### Exponentiation (rule R109) -/

/-- w squarings modulo n, on a value already reduced. -/
theorem foldl_square_mod (x n w : Nat) :
    (List.replicate w ()).foldl (fun r _ => r * r % n) (x % n) = x ^ 2 ^ w % n := by
  induction w generalizing x with
  | zero => simp
  | succ w ih => rw [List.replicate_succ, List.foldl_cons, ← Nat.mul_mod, ih, ← pow_two, ← pow_mul, ← pow_succ']

/-- After k windows the value is the power with the exponent's top k windows (rule R109). -/
theorem modPowWindows_eq {a e n w steps : Nat} (he : e < 2 ^ (w * steps)) {k : Nat} (hk : k ≤ steps) :
    modPowWindows a e n w steps k = a ^ (e / 2 ^ (w * (steps - k))) % n := by
  induction k with
  | zero => rw [modPowWindows, Nat.sub_zero, Nat.div_eq_of_lt he, pow_zero]
  | succ k ih =>
    have hwindow : w * (steps - k) = w * (steps - 1 - k) + w := by
      rw [show steps - k = steps - 1 - k + 1 by omega, Nat.mul_add_one]
    have hquotient : e / 2 ^ (w * (steps - k)) = e / 2 ^ (w * (steps - 1 - k)) / 2 ^ w := by
      rw [hwindow, pow_add, Nat.div_div_eq_div_mul]
    rw [show steps - (k + 1) = steps - 1 - k by omega]
    simp only [modPowWindows, ih (by omega), hquotient, foldl_square_mod]
    generalize e / 2 ^ (w * (steps - 1 - k)) = m
    calc (a ^ (m / 2 ^ w)) ^ 2 ^ w % n * ((a % n) ^ (m % 2 ^ w) % n) % n
      _ = (a ^ (m / 2 ^ w)) ^ 2 ^ w * a ^ (m % 2 ^ w) % n := by rw [← Nat.pow_mod, ← Nat.mul_mod]
      _ = a ^ (2 ^ w * (m / 2 ^ w) + m % 2 ^ w) % n := by rw [← pow_mul, ← pow_add, Nat.mul_comm]
      _ = a ^ m % n := by rw [Nat.div_add_mod]

/-- Settles O57: each algorithm's value after its last step is the power with the whole exponent. -/
theorem fixedWindowExponentiationAgrees : Obligations.FixedWindowExponentiationAgrees := by
  intro maxbits w a e n hw he
  refine ⟨by simpa using modPowTop_eq a e n maxbits maxbits he le_rfl, ?_⟩
  have hcovers : e < 2 ^ (w * ((maxbits + w - 1) / w)) :=
    he.trans_le (Nat.pow_le_pow_right (by decide) (Nat.mul_comm w _ ▸ le_ceilDiv_mul maxbits hw))
  simpa [modPowFixed] using modPowWindows_eq (a := a) (n := n) hcovers le_rfl

/-! ### Flight (rule R270) -/

/-- No step that is performed changes the configuration or the steps still pending. -/
theorem State.perform_next (e : Event) (s : State) :
    ∃ t, State.perform e s = .next t ∧ t.params = s.params ∧ t.agenda = s.agenda := by
  cases e with
  | host a =>
    refine ⟨_, rfl, ?_⟩
    rcases s.hostAccess_cases a with ⟨w, -, -, hreset⟩ | hstep
    · rw [hreset]
      exact ⟨rfl, rfl⟩
    · exact ⟨hstep.params, hstep.agenda⟩
  | engine =>
    cases hbusy : s.status.busy with
    | true =>
      obtain ⟨t, ht⟩ := s.completion_next
      have hhost := (State.completion_completes ht).host
      exact ⟨t, (State.engineTurn_of_busy hbusy).trans ht, hhost.params, hhost.agenda⟩
    | false => exact ⟨s, State.engineTurn_of_idle hbusy, rfl, rfl⟩
  | hardReset => exact ⟨_, rfl, rfl, rfl⟩

/-- Each pending step is taken in turn; with none left a busy engine completes. -/
theorem exists_run_idle (agenda : List Event) {s : State} (hlegal : s.params.legal = true) (hagenda : s.agenda = agenda) :
    ∃ n t, n ≤ agenda.length + 1 ∧ Sys2Proof.core.run n s = .next t ∧ t.status.busy = false := by
  induction agenda generalizing s with
  | nil =>
    cases hbusy : s.status.busy with
    | false => exact ⟨0, s, by omega, rfl, hbusy⟩
    | true =>
      obtain ⟨t, ht⟩ := s.completion_next
      have hstep : Sys2Proof.core.step s = .next t := ((step_of_busy hlegal hbusy).1 hagenda).trans ht
      exact ⟨1, t, le_rfl, coreRun_succ Sys2Proof.core hstep 0, (State.completion_completes ht).busy⟩
  | cons e rest ih =>
    obtain ⟨t, ht, hparams, hrest⟩ := State.perform_next e { s with agenda := rest }
    have hstep : Sys2Proof.core.step s = .next t :=
      (step_of_legal hlegal).trans ((State.advance_of_cons hagenda).trans ht)
    obtain ⟨n, u, hn, hrun, hidle⟩ := ih (hparams ▸ hlegal) hrest
    exact ⟨n + 1, u, Nat.succ_le_succ hn, (coreRun_succ Sys2Proof.core hstep n).trans hrun, hidle⟩

/-- Settles O58, by induction on the pending steps (`exists_run_idle`). -/
theorem issuedCommandsComplete : Obligations.IssuedCommandsComplete :=
  fun s hlegal => exists_run_idle s.agenda hlegal rfl

end Sys2Proof.Machine
end

section
/-! PROOFS. Accesses to a busy engine (spec/20_memory.md, rule R59): the host's side of the state takes no part in a completion. -/

namespace Sys2Proof.Machine

/-! ### The host's side of the state -/

/-- s with the host's side of h: STATUS but for RNGF, IER, the pending steps and the bus answer. -/
def State.withHostOf (s h : State) : State :=
  { s with
    status := { h.status with rngf := s.status.rngf }
    doneIe := h.doneIe
    agenda := h.agenda
    reply := h.reply }

/-- An access during a command that does not reset the machine changes the host's side only. -/
theorem HostStep.eq_withHostOf {s t : State} (h : HostStep s t) (hbusy : s.status.busy = true) : t = s.withHostOf t := by
  obtain ⟨-, hcur, hsnap, hcsr, hbuf⟩ := h.flight hbusy
  rw [State.withHostOf, ← h.params, ← h.x, ← hbuf, ← h.errcode, ← hcur, ← h.res, ← hcsr, ← hsnap,
    ← h.rng, ← h.draws, ← h.rngf]

/-! ### Draws -/

theorem State.askOracle_withHostOf (s h : State) :
    (s.withHostOf h).askOracle = (s.askOracle.1, s.askOracle.2.withHostOf h) := by
  simp only [State.askOracle, State.withHostOf]
  split <;> rfl

theorem State.draw_withHostOf (s h : State) : (s.withHostOf h).draw = (s.draw.1, s.draw.2.withHostOf h) := by
  have hrngf : (s.withHostOf h).status.rngf = s.status.rngf := rfl
  simp only [State.draw, hrngf, State.askOracle_withHostOf]
  split
  · rfl
  · rcases s.askOracle with ⟨_ | n, s'⟩ <;> rfl

theorem State.drawBytes_withHostOf (k : Nat) (s h : State) :
    (s.withHostOf h).drawBytes k = ((s.drawBytes k).1, (s.drawBytes k).2.withHostOf h) := by
  simp only [State.drawBytes, State.draw_withHostOf]
  rcases s.draw with ⟨_ | n, s'⟩ <;> rfl

theorem State.drawRange_withHostOf (lo hi : Nat) (s h : State) :
    (s.withHostOf h).drawRange lo hi = ((s.drawRange lo hi).1, (s.drawRange lo hi).2.withHostOf h) := by
  simp only [State.drawRange, State.draw_withHostOf]
  rcases s.draw with ⟨_ | n, s'⟩ <;> rfl

theorem State.mrRounds_withHostOf (c t : Nat) (s h : State) :
    (s.withHostOf h).mrRounds c t = ((s.mrRounds c t).1, (s.mrRounds c t).2.withHostOf h) := by
  induction t generalizing s with
  | zero => rfl
  | succ t ih =>
    simp only [State.mrRounds, State.drawRange_withHostOf]
    rcases s.drawRange 2 (c - 2) with ⟨_ | a, s'⟩
    · rfl
    · by_cases hpasses : mrPasses c a = true
      · simp only [if_pos hpasses, ih]
      · simp only [if_neg hpasses]

/-! ### Commands -/

theorem State.completeReg_withHostOf (rd : Reg) (v : Nat) (s h : State) :
    (s.withHostOf h).completeReg rd v = (s.completeReg rd v).withHostOf h.complete := by
  have hfits : (s.withHostOf h).fits v = s.fits v := rfl
  rw [State.completeReg, State.completeReg, hfits]
  split <;> rfl

/-- o' is o with the host's side of h, as the completion leaves it. -/
def Follows (h : State) (o o' : StepOutcome) : Prop := ∃ t, o = .next t ∧ o' = .next (t.withHostOf h.complete)

theorem Follows.ite {h : State} {p : Prop} [Decidable p] {a b a' b' : StepOutcome} (hpos : Follows h a a')
    (hneg : Follows h b b') : Follows h (if p then a else b) (if p then a' else b') := by
  split
  · exact hpos
  · exact hneg

theorem State.randbits_follows (odd : Bool) (rd : Reg) (s h : State) :
    Follows h (s.randbits odd rd) ((s.withHostOf h).randbits odd rd) := by
  refine .ite ⟨_, rfl, rfl⟩ (.ite ⟨_, rfl, rfl⟩ ?_)
  have hnb : (s.withHostOf h).arg5 = s.arg5 := rfl
  simp only [hnb, State.drawBytes_withHostOf]
  rcases s.drawBytes ((s.arg5 + 7) / 8) with ⟨_ | d, s'⟩
  · exact ⟨_, rfl, rfl⟩
  · exact ⟨_, rfl, rfl⟩

theorem exec_isprime_follows (rs1 : Reg) (s h : State) :
    Follows h (exec (.isprime rs1) s) (exec (.isprime rs1) (s.withHostOf h)) := by
  refine .ite ⟨_, rfl, rfl⟩ (.ite ⟨_, rfl, rfl⟩ ?_)
  have hread : (s.withHostOf h).reg rs1 = s.reg rs1 ∧ (s.withHostOf h).tdPrimes = s.tdPrimes ∧
      (s.withHostOf h).rounds = s.rounds := ⟨rfl, rfl, rfl⟩
  simp only [hread, State.mrRounds_withHostOf]
  rcases trialDivision (s.reg rs1) s.tdPrimes with _ | v
  · rcases s.mrRounds (s.reg rs1) s.rounds with ⟨_ | v, s'⟩
    · exact ⟨_, rfl, rfl⟩
    · exact ⟨_, rfl, rfl⟩
  · exact ⟨_, rfl, rfl⟩

theorem exec_oaepPad_follows (s h : State) : Follows h (exec .oaepPad s) (exec .oaepPad (s.withHostOf h)) := by
  by_cases hreserved : s.labelHash = none ∨ s.mgfHash = none
  · exact ⟨_, exec_oaepPad_of_reserved hreserved, exec_oaepPad_of_reserved (s := s.withHostOf h) hreserved⟩
  obtain ⟨hs, ms, hlabel, hmgf⟩ := State.exists_hashes hreserved
  have hlabel' : (s.withHostOf h).labelHash = some hs := hlabel
  have hmgf' : (s.withHostOf h).mgfHash = some ms := hmgf
  by_cases hin : s.PadInBuf
  · by_cases hlen : s.klen < s.arg1 + 2 * hashLen hs + 2
    · exact ⟨_, exec_oaepPad_of_tooLong hlabel hmgf hin hlen, exec_oaepPad_of_tooLong hlabel' hmgf' hin hlen⟩
    have hlen : s.arg1 + 2 * hashLen hs + 2 ≤ s.klen := Nat.le_of_not_lt hlen
    have hdraw' := State.drawBytes_withHostOf (hashLen hs) s h
    rcases hdraw : s.drawBytes (hashLen hs) with ⟨_ | seed, s'⟩ <;> rw [hdraw] at hdraw'
    · exact ⟨_, exec_oaepPad_of_fail hlabel hmgf hin hlen hdraw,
        exec_oaepPad_of_fail (s' := s'.withHostOf h) hlabel' hmgf' hin hlen hdraw'⟩
    · exact ⟨_, exec_oaepPad_of_draw hlabel hmgf hin hlen hdraw, exec_oaepPad_of_draw hlabel' hmgf' hin hlen hdraw'⟩
  · exact ⟨_, exec_oaepPad_of_not_inBuf hlabel hmgf hin, exec_oaepPad_of_not_inBuf hlabel' hmgf' hin⟩

theorem exec_oaepUnpad_follows (s h : State) : Follows h (exec .oaepUnpad s) (exec .oaepUnpad (s.withHostOf h)) := by
  by_cases hreserved : s.labelHash = none ∨ s.mgfHash = none
  · exact ⟨_, exec_oaepUnpad_of_reserved hreserved, exec_oaepUnpad_of_reserved (s := s.withHostOf h) hreserved⟩
  obtain ⟨hs, ms, hlabel, hmgf⟩ := State.exists_hashes hreserved
  have hlabel' : (s.withHostOf h).labelHash = some hs := hlabel
  have hmgf' : (s.withHostOf h).mgfHash = some ms := hmgf
  by_cases hin : s.UnpadInBuf (hashLen hs)
  · by_cases hlen : s.klen < 2 * hashLen hs + 2
    · exact ⟨_, exec_oaepUnpad_of_short hlabel hmgf hin hlen, exec_oaepUnpad_of_short hlabel' hmgf' hin hlen⟩
    have hlen : 2 * hashLen hs + 2 ≤ s.klen := Nat.le_of_not_lt hlen
    rcases hdecode : oaepDecode hs ms s.klen (s.readBuf s.arg0 s.klen) (s.readBuf s.arg2 s.arg3) with _ | msg
    · exact ⟨_, exec_oaepUnpad_of_malformed hlabel hmgf hin hlen hdecode,
        exec_oaepUnpad_of_malformed hlabel' hmgf' hin hlen hdecode⟩
    · exact ⟨_, exec_oaepUnpad_of_message hlabel hmgf hin hlen hdecode,
        exec_oaepUnpad_of_message hlabel' hmgf' hin hlen hdecode⟩
  · exact ⟨_, exec_oaepUnpad_of_not_inBuf hlabel hmgf hin, exec_oaepUnpad_of_not_inBuf hlabel' hmgf' hin⟩

/-- Every command reads and writes the engine's side of the state only. -/
theorem exec_withHostOf (i : Instr) (s h : State) : Follows h (exec i s) (exec i (s.withHostOf h)) := by
  cases i with
  | nop | mov | ldi | zeroize | cmp | bitlen => exact ⟨_, rfl, rfl⟩
  | add rd rs1 rs2 => exact ⟨_, exec_add rd rs1 rs2 s, congrArg _ (State.completeReg_withHostOf ..)⟩
  | mul rd rs1 rs2 => exact ⟨_, exec_mul rd rs1 rs2 s, congrArg _ (State.completeReg_withHostOf ..)⟩
  | sub rd rs1 rs2 =>
    rw [exec_sub, exec_sub]
    exact .ite ⟨_, rfl, rfl⟩ ⟨_, rfl, rfl⟩
  | modred rd rs1 rs2 =>
    rw [exec_modred, exec_modred]
    exact .ite ⟨_, rfl, rfl⟩ ⟨_, rfl, rfl⟩
  | modpow rd rs1 rs2 rs3 =>
    rw [exec_modpow, exec_modpow]
    exact .ite ⟨_, rfl, rfl⟩ ⟨_, rfl, rfl⟩
  | modinv rd rs1 rs2 =>
    by_cases hn : s.reg rs2 = 0
    · exact ⟨_, exec_modinv_of_eq_zero hn rd rs1, exec_modinv_of_eq_zero (s := s.withHostOf h) hn rd rs1⟩
    rcases hinverse : modInverse (s.reg rs1) (s.reg rs2) with _ | y
    · exact ⟨_, exec_modinv_of_none hn hinverse rd, exec_modinv_of_none (s := s.withHostOf h) hn hinverse rd⟩
    · exact ⟨_, exec_modinv_of_some hn hinverse rd, exec_modinv_of_some (s := s.withHostOf h) hn hinverse rd⟩
  | frombytes rd =>
    rw [exec_frombytes, exec_frombytes]
    exact .ite ⟨_, rfl, congrArg _ (State.completeReg_withHostOf ..)⟩ ⟨_, rfl, rfl⟩
  | tobytes rs1 =>
    rw [exec_tobytes, exec_tobytes]
    exact .ite ⟨_, rfl, rfl⟩ ⟨_, rfl, rfl⟩
  | randbits rd => exact State.randbits_follows false rd s h
  | randbitsOdd rd => exact State.randbits_follows true rd s h
  | isprime rs1 => exact exec_isprime_follows rs1 s h
  | mgf1 =>
    rcases hmgf : s.mgfHash with _ | ms
    · exact ⟨_, exec_mgf1_of_none hmgf, exec_mgf1_of_none (s := s.withHostOf h) hmgf⟩
    · rw [exec_mgf1_of_some hmgf, exec_mgf1_of_some (s := s.withHostOf h) hmgf]
      exact .ite ⟨_, rfl, rfl⟩ ⟨_, rfl, rfl⟩
  | oaepPad => exact exec_oaepPad_follows s h
  | oaepUnpad => exact exec_oaepUnpad_follows s h

/-- So does the completion of any word, legal or not. -/
theorem State.completion_withHostOf (s h : State) : Follows h s.completion (s.withHostOf h).completion := by
  have hcur : (s.withHostOf h).cur = s.cur := rfl
  rw [State.completion, State.completion, hcur]
  split
  · exact exec_withHostOf _ s h
  · exact ⟨_, rfl, rfl⟩

/-- Settles O56: an access that leaves BUSY set was no soft reset, so it changed the host's side alone, and completions do not
look there. -/
theorem busyHostAccessesCannotChangeTheResult : Obligations.BusyHostAccessesCannotChangeTheResult := by
  intro s a hbusy hstill
  rcases s.hostAccess_cases a with ⟨w, -, -, hreset⟩ | hstep
  · rw [hreset] at hstill
    cases hstill
  · obtain ⟨t, ht, hu⟩ := s.completion_withHostOf (s.hostAccess a)
    rw [← hstep.eq_withHostOf hbusy] at hu
    exact ⟨t, _, ht, hu, rfl, rfl, rfl, rfl, rfl, rfl, rfl, rfl, rfl⟩

end Sys2Proof.Machine
end
